-- ==== Sys2Proof/Word.lean ====
section
/-! DEFINITION. The word types of the block (00_scope.md R7 to R9): every register is an unsigned
integer of a fixed width, and no value is signed. -/

namespace Sys2Proof

/-- `u8`: a general register, a timer, a memory byte, a flag slot, the field `kk` (R7, R101). -/
abbrev Byte := BitVec 8

/-- `u16`: `I`, `PC`, a stack entry, an instruction word (R7, R100). -/
abbrev Word16 := BitVec 16

/-- A 4-bit field of an instruction word: a register name `x` or `y`, or the count `n` (R101). -/
abbrev Nibble := BitVec 4

/-- The 12-bit address field `nnn` (R101). -/
abbrev Addr12 := BitVec 12

end Sys2Proof
end

