-- ==== Sys2Proof/Config.lean ====
section
/-! DEFINITION. The fixed parameters of the block (00_scope.md R6), the two variants (R52) and the
one value the spec leaves free, the random byte of `Cxkk` (R171). -/

namespace Sys2Proof

/-- The variant register's two values (10_state.md R52): the instruction-set variant in force. -/
inductive Variant where
  | chip8
  | superchip
  deriving DecidableEq, Repr

namespace Config

/-- `MEM_SIZE`: addresses 0x000..0xFFF (R6, 20_memory.md R80). -/
abbrev memSize : Nat := 4096

/-- `ENTRY`: the program entry point and the address the ROM image is loaded at (R6). -/
abbrev entry : Nat := 0x200

/-- `ROM_MAX` = `MEM_SIZE - 0x200` (R6). -/
abbrev romMax : Nat := memSize - entry

/-- `STACK_DEPTH` (R6). -/
abbrev stackDepth : Nat := 16

/-- `LORES_W` and `LORES_H` (R6). -/
abbrev loresW : Nat := 64
abbrev loresH : Nat := 32

/-- `HIRES_W` and `HIRES_H` (R6). -/
abbrev hiresW : Nat := 128
abbrev hiresH : Nat := 64

/-- `RAND` (R6, 41_alu.md R171): "a free input (a draw) of each `Cxkk` step, 8 bits, under no law".
The draw of the `n`-th `Cxkk` executed is `rand n`, a constant with no body: no proof can see any
of its values (assumption log 4). -/
opaque rand : Nat → Byte

end Config

end Sys2Proof
end

