-- ==== Sys2Proof/Syntax.lean ====
section
/-! DEFINITION. The instructions: one constructor for each of the 44 rows of the opcode map
(30_encoding.md R104, R105; spec/opcode_table.json), with the operand fields of its row. -/

namespace Sys2Proof

/-- The 44 instructions of R104, in the order of the opcode table. A register operand is the 4-bit
field that names it; every value of the field names a register (10_state.md R30). -/
inductive Instr where
  /-- `00Cn` (SC): scroll down `n` rows, R290. -/
  | scd (n : Nibble)
  /-- `00E0`: clear the active buffer, R272. -/
  | cls
  /-- `00EE`: return, R200. -/
  | ret
  /-- `00FB` (SC): scroll right 4, R291. -/
  | scr
  /-- `00FC` (SC): scroll left 4, R292. -/
  | scl
  /-- `00FD` (SC): exit, R210. -/
  | exit
  /-- `00FE` (SC): low resolution, R301. -/
  | low
  /-- `00FF` (SC): high resolution, R302. -/
  | high
  /-- `1nnn`: jump, R201. -/
  | jp (nnn : Addr12)
  /-- `2nnn`: call, R202. -/
  | call (nnn : Addr12)
  /-- `3xkk`: skip if equal to an immediate, R203. -/
  | seVxKk (x : Nibble) (kk : Byte)
  /-- `4xkk`: skip if not equal to an immediate, R204. -/
  | sneVxKk (x : Nibble) (kk : Byte)
  /-- `5xy0`: skip if two registers are equal, R205. -/
  | seVxVy (x y : Nibble)
  /-- `6xkk`: load an immediate, R160. -/
  | ldVxKk (x : Nibble) (kk : Byte)
  /-- `7xkk`: add an immediate, R161. -/
  | addVxKk (x : Nibble) (kk : Byte)
  /-- `8xy0`: copy a register, R162. -/
  | ldVxVy (x y : Nibble)
  /-- `8xy1`: or, R163. -/
  | orVxVy (x y : Nibble)
  /-- `8xy2`: and, R164. -/
  | andVxVy (x y : Nibble)
  /-- `8xy3`: exclusive or, R165. -/
  | xorVxVy (x y : Nibble)
  /-- `8xy4`: add with carry into VF, R166. -/
  | addVxVy (x y : Nibble)
  /-- `8xy5`: subtract with not-borrow into VF, R167. -/
  | subVxVy (x y : Nibble)
  /-- `8xy6`: shift right, R168. -/
  | shrVxVy (x y : Nibble)
  /-- `8xy7`: subtract the other way round, R169. -/
  | subnVxVy (x y : Nibble)
  /-- `8xyE`: shift left, R170. -/
  | shlVxVy (x y : Nibble)
  /-- `9xy0`: skip if two registers differ, R206. -/
  | sneVxVy (x y : Nibble)
  /-- `Annn`: load the index register, R240. -/
  | ldINnn (nnn : Addr12)
  /-- `Bnnn`: jump with offset, R207. -/
  | jpV0Nnn (nnn : Addr12)
  /-- `Cxkk`: random byte and mask, R171. -/
  | rndVxKk (x : Nibble) (kk : Byte)
  /-- `Dxyn`: draw `n` rows of 8 pixels, R285 (with `n = 0`, under CHIP8 only, R287). -/
  | drwVxVyN (x y n : Nibble)
  /-- `Dxy0` (SC): draw a 16x16 sprite, R286. -/
  | drwVxVy0 (x y : Nibble)
  /-- `Ex9E`: skip if a key is down, R325. -/
  | skpVx (x : Nibble)
  /-- `ExA1`: skip if a key is up, R326. -/
  | sknpVx (x : Nibble)
  /-- `Fx07`: read the delay timer, R335. -/
  | ldVxDT (x : Nibble)
  /-- `Fx0A`: wait for a key, R330. -/
  | ldVxK (x : Nibble)
  /-- `Fx15`: write the delay timer, R336. -/
  | ldDTVx (x : Nibble)
  /-- `Fx18`: write the sound timer, R337. -/
  | ldSTVx (x : Nibble)
  /-- `Fx1E`: add to the index register, R241. -/
  | addIVx (x : Nibble)
  /-- `Fx29`: address of a small glyph, R242. -/
  | ldFVx (x : Nibble)
  /-- `Fx30` (SC): address of a big glyph, R243. -/
  | ldHFVx (x : Nibble)
  /-- `Fx33`: binary-coded decimal, R245. -/
  | ldBVx (x : Nibble)
  /-- `Fx55`: store V0..Vx, R246. -/
  | ldMemVx (x : Nibble)
  /-- `Fx65`: load V0..Vx, R247. -/
  | ldVxMem (x : Nibble)
  /-- `Fx75` (SC): save V0..Vx in the persistent flags, R250. -/
  | ldRVx (x : Nibble)
  /-- `Fx85` (SC): load V0..Vx from the persistent flags, R252. -/
  | ldVxR (x : Nibble)
  deriving DecidableEq, Repr

/-- The name an instruction has in spec/opcode_table.json. -/
def Instr.mnemonic : Instr → String
  | .scd _ => "SCD_n"
  | .cls => "CLS"
  | .ret => "RET"
  | .scr => "SCR"
  | .scl => "SCL"
  | .exit => "EXIT"
  | .low => "LOW"
  | .high => "HIGH"
  | .jp _ => "JP_nnn"
  | .call _ => "CALL_nnn"
  | .seVxKk _ _ => "SE_Vx__kk"
  | .sneVxKk _ _ => "SNE_Vx__kk"
  | .seVxVy _ _ => "SE_Vx__Vy"
  | .ldVxKk _ _ => "LD_Vx__kk"
  | .addVxKk _ _ => "ADD_Vx__kk"
  | .ldVxVy _ _ => "LD_Vx__Vy"
  | .orVxVy _ _ => "OR_Vx__Vy"
  | .andVxVy _ _ => "AND_Vx__Vy"
  | .xorVxVy _ _ => "XOR_Vx__Vy"
  | .addVxVy _ _ => "ADD_Vx__Vy"
  | .subVxVy _ _ => "SUB_Vx__Vy"
  | .shrVxVy _ _ => "SHR_Vx__Vy"
  | .subnVxVy _ _ => "SUBN_Vx__Vy"
  | .shlVxVy _ _ => "SHL_Vx__Vy"
  | .sneVxVy _ _ => "SNE_Vx__Vy"
  | .ldINnn _ => "LD_I__nnn"
  | .jpV0Nnn _ => "JP_V0__nnn"
  | .rndVxKk _ _ => "RND_Vx__kk"
  | .drwVxVyN _ _ _ => "DRW_Vx__Vy__n"
  | .drwVxVy0 _ _ => "DRW_Vx__Vy__0"
  | .skpVx _ => "SKP_Vx"
  | .sknpVx _ => "SKNP_Vx"
  | .ldVxDT _ => "LD_Vx__DT"
  | .ldVxK _ => "LD_Vx__K"
  | .ldDTVx _ => "LD_DT__Vx"
  | .ldSTVx _ => "LD_ST__Vx"
  | .addIVx _ => "ADD_I__Vx"
  | .ldFVx _ => "LD_F__Vx"
  | .ldHFVx _ => "LD_HF__Vx"
  | .ldBVx _ => "LD_B__Vx"
  | .ldMemVx _ => "LD__I___Vx"
  | .ldVxMem _ => "LD_Vx___I"
  | .ldRVx _ => "LD_R__Vx"
  | .ldVxR _ => "LD_Vx__R"

/-- The SUPER-CHIP extension (R110): the ten instructions whose rows are marked SC in R104. -/
def Instr.superOnly : Instr → Bool
  | .scd _ | .scr | .scl | .exit | .low | .high | .drwVxVy0 _ _ | .ldHFVx _ | .ldRVx _
  | .ldVxR _ => true
  | .cls | .ret | .jp _ | .call _ | .seVxKk _ _ | .sneVxKk _ _ | .seVxVy _ _ | .ldVxKk _ _
  | .addVxKk _ _ | .ldVxVy _ _ | .orVxVy _ _ | .andVxVy _ _ | .xorVxVy _ _ | .addVxVy _ _
  | .subVxVy _ _ | .shrVxVy _ _ | .subnVxVy _ _ | .shlVxVy _ _ | .sneVxVy _ _ | .ldINnn _
  | .jpV0Nnn _ | .rndVxKk _ _ | .drwVxVyN _ _ _ | .skpVx _ | .sknpVx _ | .ldVxDT _ | .ldVxK _
  | .ldDTVx _ | .ldSTVx _ | .addIVx _ | .ldFVx _ | .ldBVx _ | .ldMemVx _ | .ldVxMem _ => false

end Sys2Proof
end

