-- ==== Sys2Proof/WellFormed.lean ====
section
/-! DEFINITION. Which instructions exist for a variant: the three checks a term of `Instr` must pass
to be the meaning of some word (30_encoding.md R104, R111, R112, R113). -/

namespace Sys2Proof

/-- A row marked SC exists only under SUPERCHIP (R104, R111). -/
def Instr.variantOk (v : Variant) (i : Instr) : Bool :=
  !i.superOnly || v == .superchip

/-- `Fx75` and `Fx85` exist only for `x <= 7`: there are eight flag slots (R104, R112 (f)). -/
def Instr.flagSlotsOk : Instr → Bool
  | .ldRVx x | .ldVxR x => decide (x.toNat ≤ 7)
  | .scd _ | .cls | .ret | .scr | .scl | .exit | .low | .high | .jp _ | .call _ | .seVxKk _ _
  | .sneVxKk _ _ | .seVxVy _ _ | .ldVxKk _ _ | .addVxKk _ _ | .ldVxVy _ _ | .orVxVy _ _
  | .andVxVy _ _ | .xorVxVy _ _ | .addVxVy _ _ | .subVxVy _ _ | .shrVxVy _ _ | .subnVxVy _ _
  | .shlVxVy _ _ | .sneVxVy _ _ | .ldINnn _ | .jpV0Nnn _ | .rndVxKk _ _ | .drwVxVyN _ _ _
  | .drwVxVy0 _ _ | .skpVx _ | .sknpVx _ | .ldVxDT _ | .ldVxK _ | .ldDTVx _ | .ldSTVx _
  | .addIVx _ | .ldFVx _ | .ldHFVx _ | .ldBVx _ | .ldMemVx _ | .ldVxMem _ => true

/-- Under SUPERCHIP a word `Dxy0` is the 16x16 draw, so `Dxyn` has `n` in 1..15 there (R113); under
CHIP8 `n = 0` is admitted (R111, R287). -/
def Instr.spriteRowsOk (v : Variant) : Instr → Bool
  | .drwVxVyN _ _ n => v == .chip8 || n != 0#4
  | .scd _ | .cls | .ret | .scr | .scl | .exit | .low | .high | .jp _ | .call _ | .seVxKk _ _
  | .sneVxKk _ _ | .seVxVy _ _ | .ldVxKk _ _ | .addVxKk _ _ | .ldVxVy _ _ | .orVxVy _ _
  | .andVxVy _ _ | .xorVxVy _ _ | .addVxVy _ _ | .subVxVy _ _ | .shrVxVy _ _ | .subnVxVy _ _
  | .shlVxVy _ _ | .sneVxVy _ _ | .ldINnn _ | .jpV0Nnn _ | .rndVxKk _ _ | .drwVxVy0 _ _
  | .skpVx _ | .sknpVx _ | .ldVxDT _ | .ldVxK _ | .ldDTVx _ | .ldSTVx _ | .addIVx _ | .ldFVx _
  | .ldHFVx _ | .ldBVx _ | .ldMemVx _ | .ldVxMem _ | .ldRVx _ | .ldVxR _ => true

/-- An instruction of the variant: it passes the three checks. -/
def Instr.wellFormed (v : Variant) (i : Instr) : Bool :=
  i.variantOk v && i.flagSlotsOk && i.spriteRowsOk v

end Sys2Proof
end

