-- ==== Sys2Proof/Decode.lean ====
section
/-! DEFINITION. The decoder, total on every word and every list of bytes, the encoder, and the opcode
map of R104 as data (30_encoding.md). The decoder reads the word's fields; the map states each row's
mask and match; the encoder lays the fields out. The three are written separately, so that statements
can hold them against each other. -/

namespace Sys2Proof

/-! ### Fields of a word (R101) -/

/-- `op = w[15:12]`. -/
def fieldOp (w : Word16) : Nibble := w.extractLsb' 12 4

/-- `x = w[11:8]`. -/
def fieldX (w : Word16) : Nibble := w.extractLsb' 8 4

/-- `y = w[7:4]`. -/
def fieldY (w : Word16) : Nibble := w.extractLsb' 4 4

/-- `n = w[3:0]`. -/
def fieldN (w : Word16) : Nibble := w.extractLsb' 0 4

/-- `kk = w[7:0]`. -/
def fieldKk (w : Word16) : Byte := w.extractLsb' 0 8

/-- `nnn = w[11:0]`. -/
def fieldNnn (w : Word16) : Addr12 := w.extractLsb' 0 12

/-! ### Decoding -/

/-- What a word decodes to (R103): exactly one instruction, or `Illegal`. -/
inductive Decoded where
  | instr (i : Instr)
  /-- The word matches no row of R104 for the variant (R112). -/
  | illegal (w : Word16)
  deriving DecidableEq, Repr

/-- A row marked SC decodes only under SUPERCHIP; under CHIP8 the word is illegal (R111). -/
def superRow (v : Variant) (w : Word16) (i : Instr) : Decoded :=
  match v with
  | .superchip => .instr i
  | .chip8 => .illegal w

/-- Family 0: `00E0`, `00EE` and the SUPER-CHIP words; every other `0nnn` is illegal (R112 (a)). -/
def decodeFamily0 (v : Variant) (w : Word16) : Decoded :=
  if fieldX w = 0#4 then
    if fieldY w = 0xC#4 then superRow v w (.scd (fieldN w))
    else match fieldKk w with
      | 0xE0#8 => .instr .cls
      | 0xEE#8 => .instr .ret
      | 0xFB#8 => superRow v w .scr
      | 0xFC#8 => superRow v w .scl
      | 0xFD#8 => superRow v w .exit
      | 0xFE#8 => superRow v w .low
      | 0xFF#8 => superRow v w .high
      | _ => .illegal w
  else .illegal w

/-- Family 8: the sub-opcode is `n`; 8 to D and F are illegal (R112 (c)). -/
def decodeFamily8 (w : Word16) : Decoded :=
  match fieldN w with
  | 0x0#4 => .instr (.ldVxVy (fieldX w) (fieldY w))
  | 0x1#4 => .instr (.orVxVy (fieldX w) (fieldY w))
  | 0x2#4 => .instr (.andVxVy (fieldX w) (fieldY w))
  | 0x3#4 => .instr (.xorVxVy (fieldX w) (fieldY w))
  | 0x4#4 => .instr (.addVxVy (fieldX w) (fieldY w))
  | 0x5#4 => .instr (.subVxVy (fieldX w) (fieldY w))
  | 0x6#4 => .instr (.shrVxVy (fieldX w) (fieldY w))
  | 0x7#4 => .instr (.subnVxVy (fieldX w) (fieldY w))
  | 0xE#4 => .instr (.shlVxVy (fieldX w) (fieldY w))
  | _ => .illegal w

/-- Family D: under SUPERCHIP `n = 0` is the 16x16 draw (R113); under CHIP8 it is `Dxyn` with no rows
(R111). -/
def decodeFamilyD (v : Variant) (w : Word16) : Decoded :=
  if v = .superchip ∧ fieldN w = 0#4 then .instr (.drwVxVy0 (fieldX w) (fieldY w))
  else .instr (.drwVxVyN (fieldX w) (fieldY w) (fieldN w))

/-- Family E: the sub-opcode is `kk` (R112 (d)). -/
def decodeFamilyE (w : Word16) : Decoded :=
  match fieldKk w with
  | 0x9E#8 => .instr (.skpVx (fieldX w))
  | 0xA1#8 => .instr (.sknpVx (fieldX w))
  | _ => .illegal w

/-- `Fx75` and `Fx85` with `x > 7` are illegal (R112 (f)). -/
def flagRow (v : Variant) (w : Word16) (i : Instr) : Decoded :=
  if (fieldX w).toNat ≤ 7 then superRow v w i else .illegal w

/-- Family F: the sub-opcode is `kk` (R112 (e), (f), (g)). -/
def decodeFamilyF (v : Variant) (w : Word16) : Decoded :=
  match fieldKk w with
  | 0x07#8 => .instr (.ldVxDT (fieldX w))
  | 0x0A#8 => .instr (.ldVxK (fieldX w))
  | 0x15#8 => .instr (.ldDTVx (fieldX w))
  | 0x18#8 => .instr (.ldSTVx (fieldX w))
  | 0x1E#8 => .instr (.addIVx (fieldX w))
  | 0x29#8 => .instr (.ldFVx (fieldX w))
  | 0x30#8 => superRow v w (.ldHFVx (fieldX w))
  | 0x33#8 => .instr (.ldBVx (fieldX w))
  | 0x55#8 => .instr (.ldMemVx (fieldX w))
  | 0x65#8 => .instr (.ldVxMem (fieldX w))
  | 0x75#8 => flagRow v w (.ldRVx (fieldX w))
  | 0x85#8 => flagRow v w (.ldVxR (fieldX w))
  | _ => .illegal w

/-- Decoding of a word under a variant (R103, R104, R136). It reads nothing else; the quirks do not
change it. -/
def decode (v : Variant) (w : Word16) : Decoded :=
  match fieldOp w with
  | 0x0#4 => decodeFamily0 v w
  | 0x1#4 => .instr (.jp (fieldNnn w))
  | 0x2#4 => .instr (.call (fieldNnn w))
  | 0x3#4 => .instr (.seVxKk (fieldX w) (fieldKk w))
  | 0x4#4 => .instr (.sneVxKk (fieldX w) (fieldKk w))
  | 0x5#4 => if fieldN w = 0#4 then .instr (.seVxVy (fieldX w) (fieldY w)) else .illegal w
  | 0x6#4 => .instr (.ldVxKk (fieldX w) (fieldKk w))
  | 0x7#4 => .instr (.addVxKk (fieldX w) (fieldKk w))
  | 0x8#4 => decodeFamily8 w
  | 0x9#4 => if fieldN w = 0#4 then .instr (.sneVxVy (fieldX w) (fieldY w)) else .illegal w
  | 0xA#4 => .instr (.ldINnn (fieldNnn w))
  | 0xB#4 => .instr (.jpV0Nnn (fieldNnn w))
  | 0xC#4 => .instr (.rndVxKk (fieldX w) (fieldKk w))
  | 0xD#4 => decodeFamilyD v w
  | 0xE#4 => decodeFamilyE w
  | 0xF#4 => decodeFamilyF v w
  | _ => .illegal w

/-- The word two bytes hold: the byte at the lower address is the high byte (20_memory.md R83). -/
def wordOfBytes (hi lo : Byte) : Word16 := hi ++ lo

/-- The high byte of a word, which stands at the lower address (R83). -/
def highByte (w : Word16) : Byte := w.extractLsb' 8 8

/-- The low byte of a word (R83). -/
def lowByte (w : Word16) : Byte := w.extractLsb' 0 8

/-- Why a list of bytes holds no instruction. -/
inductive Reject where
  /-- Its first word is illegal for the variant (R112). -/
  | illegalInstruction (w : Word16)
  /-- It has fewer than the two bytes of an instruction (R100, R115). -/
  | tooShort
  deriving DecidableEq, Repr

/-- Decoding from a list of bytes: the instruction of the first two, and the bytes after them. -/
def decodeBytes (v : Variant) : List Byte → Except Reject (Instr × List Byte)
  | hi :: lo :: rest =>
    match decode v (wordOfBytes hi lo) with
    | .instr i => .ok (i, rest)
    | .illegal w => .error (.illegalInstruction w)
  | _ => .error .tooShort

/-- The word of a row of the opcode table: the table's `nbits` bits, every bit above them 0. All
instructions have one word of 16 bits (R100), numbered from its least significant bit (R9). -/
def tableWord (nbits w : Nat) : Word16 := BitVec.ofNat 16 (w % 2 ^ nbits)

/-- The instruction the decoder reads from the bits of a row of the opcode table. All 44 rows decode
under SUPERCHIP (R111), so that is the variant it decodes under (assumption log 7). -/
def decodeTableWord (nbits w : Nat) : Option Instr :=
  match decode .superchip (tableWord nbits w) with
  | .instr i => some i
  | .illegal _ => none

/-! ### Encoding -/

/-- A word from four nibbles, the first in the high bits (R9, R101). -/
def wordXYN (op x y n : Nibble) : Word16 := op ++ x ++ y ++ n

/-- A word from `op`, `x` and `kk` (R101). -/
def wordXKk (op x : Nibble) (kk : Byte) : Word16 := op ++ x ++ kk

/-- A word from `op` and `nnn` (R101). -/
def wordNnn (op : Nibble) (nnn : Addr12) : Word16 := op ++ nnn

/-- The word of an instruction (R104): the row's `match`, with the operand fields at the positions of
R101. -/
def encode : Instr → Word16
  | .scd n => wordXYN 0x0#4 0x0#4 0xC#4 n
  | .cls => 0x00E0#16
  | .ret => 0x00EE#16
  | .scr => 0x00FB#16
  | .scl => 0x00FC#16
  | .exit => 0x00FD#16
  | .low => 0x00FE#16
  | .high => 0x00FF#16
  | .jp nnn => wordNnn 0x1#4 nnn
  | .call nnn => wordNnn 0x2#4 nnn
  | .seVxKk x kk => wordXKk 0x3#4 x kk
  | .sneVxKk x kk => wordXKk 0x4#4 x kk
  | .seVxVy x y => wordXYN 0x5#4 x y 0x0#4
  | .ldVxKk x kk => wordXKk 0x6#4 x kk
  | .addVxKk x kk => wordXKk 0x7#4 x kk
  | .ldVxVy x y => wordXYN 0x8#4 x y 0x0#4
  | .orVxVy x y => wordXYN 0x8#4 x y 0x1#4
  | .andVxVy x y => wordXYN 0x8#4 x y 0x2#4
  | .xorVxVy x y => wordXYN 0x8#4 x y 0x3#4
  | .addVxVy x y => wordXYN 0x8#4 x y 0x4#4
  | .subVxVy x y => wordXYN 0x8#4 x y 0x5#4
  | .shrVxVy x y => wordXYN 0x8#4 x y 0x6#4
  | .subnVxVy x y => wordXYN 0x8#4 x y 0x7#4
  | .shlVxVy x y => wordXYN 0x8#4 x y 0xE#4
  | .sneVxVy x y => wordXYN 0x9#4 x y 0x0#4
  | .ldINnn nnn => wordNnn 0xA#4 nnn
  | .jpV0Nnn nnn => wordNnn 0xB#4 nnn
  | .rndVxKk x kk => wordXKk 0xC#4 x kk
  | .drwVxVyN x y n => wordXYN 0xD#4 x y n
  | .drwVxVy0 x y => wordXYN 0xD#4 x y 0x0#4
  | .skpVx x => wordXKk 0xE#4 x 0x9E#8
  | .sknpVx x => wordXKk 0xE#4 x 0xA1#8
  | .ldVxDT x => wordXKk 0xF#4 x 0x07#8
  | .ldVxK x => wordXKk 0xF#4 x 0x0A#8
  | .ldDTVx x => wordXKk 0xF#4 x 0x15#8
  | .ldSTVx x => wordXKk 0xF#4 x 0x18#8
  | .addIVx x => wordXKk 0xF#4 x 0x1E#8
  | .ldFVx x => wordXKk 0xF#4 x 0x29#8
  | .ldHFVx x => wordXKk 0xF#4 x 0x30#8
  | .ldBVx x => wordXKk 0xF#4 x 0x33#8
  | .ldMemVx x => wordXKk 0xF#4 x 0x55#8
  | .ldVxMem x => wordXKk 0xF#4 x 0x65#8
  | .ldRVx x => wordXKk 0xF#4 x 0x75#8
  | .ldVxR x => wordXKk 0xF#4 x 0x85#8

/-! ### The opcode map (R104) -/

/-- A row of R104: "A word matches a row when `(w & mask) = match`"; `superOnly` is the mark SC. -/
structure OpcodeRow where
  mnemonic : String
  mask : Word16
  pattern : Word16
  superOnly : Bool
  deriving DecidableEq, Repr

/-- The word matches the row (R104). -/
def OpcodeRow.matchesWord (r : OpcodeRow) (w : Word16) : Bool := w &&& r.mask == r.pattern

/-- The row exists for the variant (R104, R111). -/
def OpcodeRow.existsIn (r : OpcodeRow) (v : Variant) : Bool := !r.superOnly || v == .superchip

/-- The rows of family 0. -/
def opcodeRows0 : List OpcodeRow := [
  ⟨"SCD_n", 0xFFF0#16, 0x00C0#16, true⟩,
  ⟨"CLS", 0xFFFF#16, 0x00E0#16, false⟩,
  ⟨"RET", 0xFFFF#16, 0x00EE#16, false⟩,
  ⟨"SCR", 0xFFFF#16, 0x00FB#16, true⟩,
  ⟨"SCL", 0xFFFF#16, 0x00FC#16, true⟩,
  ⟨"EXIT", 0xFFFF#16, 0x00FD#16, true⟩,
  ⟨"LOW", 0xFFFF#16, 0x00FE#16, true⟩,
  ⟨"HIGH", 0xFFFF#16, 0x00FF#16, true⟩]

/-- The rows `1nnn` to `7xkk`. -/
def opcodeRowsTransfer : List OpcodeRow := [
  ⟨"JP_nnn", 0xF000#16, 0x1000#16, false⟩,
  ⟨"CALL_nnn", 0xF000#16, 0x2000#16, false⟩,
  ⟨"SE_Vx__kk", 0xF000#16, 0x3000#16, false⟩,
  ⟨"SNE_Vx__kk", 0xF000#16, 0x4000#16, false⟩,
  ⟨"SE_Vx__Vy", 0xF00F#16, 0x5000#16, false⟩,
  ⟨"LD_Vx__kk", 0xF000#16, 0x6000#16, false⟩,
  ⟨"ADD_Vx__kk", 0xF000#16, 0x7000#16, false⟩]

/-- The rows `8xy0` to `9xy0`. -/
def opcodeRowsRegister : List OpcodeRow := [
  ⟨"LD_Vx__Vy", 0xF00F#16, 0x8000#16, false⟩,
  ⟨"OR_Vx__Vy", 0xF00F#16, 0x8001#16, false⟩,
  ⟨"AND_Vx__Vy", 0xF00F#16, 0x8002#16, false⟩,
  ⟨"XOR_Vx__Vy", 0xF00F#16, 0x8003#16, false⟩,
  ⟨"ADD_Vx__Vy", 0xF00F#16, 0x8004#16, false⟩,
  ⟨"SUB_Vx__Vy", 0xF00F#16, 0x8005#16, false⟩,
  ⟨"SHR_Vx__Vy", 0xF00F#16, 0x8006#16, false⟩,
  ⟨"SUBN_Vx__Vy", 0xF00F#16, 0x8007#16, false⟩,
  ⟨"SHL_Vx__Vy", 0xF00F#16, 0x800E#16, false⟩,
  ⟨"SNE_Vx__Vy", 0xF00F#16, 0x9000#16, false⟩]

/-- The rows `Annn` to `ExA1`. -/
def opcodeRowsAtoE : List OpcodeRow := [
  ⟨"LD_I__nnn", 0xF000#16, 0xA000#16, false⟩,
  ⟨"JP_V0__nnn", 0xF000#16, 0xB000#16, false⟩,
  ⟨"RND_Vx__kk", 0xF000#16, 0xC000#16, false⟩,
  ⟨"DRW_Vx__Vy__n", 0xF000#16, 0xD000#16, false⟩,
  ⟨"DRW_Vx__Vy__0", 0xF00F#16, 0xD000#16, true⟩,
  ⟨"SKP_Vx", 0xF0FF#16, 0xE09E#16, false⟩,
  ⟨"SKNP_Vx", 0xF0FF#16, 0xE0A1#16, false⟩]

/-- The rows of family F. -/
def opcodeRowsF : List OpcodeRow := [
  ⟨"LD_Vx__DT", 0xF0FF#16, 0xF007#16, false⟩,
  ⟨"LD_Vx__K", 0xF0FF#16, 0xF00A#16, false⟩,
  ⟨"LD_DT__Vx", 0xF0FF#16, 0xF015#16, false⟩,
  ⟨"LD_ST__Vx", 0xF0FF#16, 0xF018#16, false⟩,
  ⟨"ADD_I__Vx", 0xF0FF#16, 0xF01E#16, false⟩,
  ⟨"LD_F__Vx", 0xF0FF#16, 0xF029#16, false⟩,
  ⟨"LD_HF__Vx", 0xF0FF#16, 0xF030#16, true⟩,
  ⟨"LD_B__Vx", 0xF0FF#16, 0xF033#16, false⟩,
  ⟨"LD__I___Vx", 0xF0FF#16, 0xF055#16, false⟩,
  ⟨"LD_Vx___I", 0xF0FF#16, 0xF065#16, false⟩,
  ⟨"LD_R__Vx", 0xF0FF#16, 0xF075#16, true⟩,
  ⟨"LD_Vx__R", 0xF0FF#16, 0xF085#16, true⟩]

/-- The complete opcode map (R104), 44 rows (R105), in the table's order. -/
def opcodeMap : List OpcodeRow :=
  opcodeRows0 ++ opcodeRowsTransfer ++ opcodeRowsRegister ++ opcodeRowsAtoE ++ opcodeRowsF

end Sys2Proof
end

