-- ==== Sys2Proof/Machine/Framebuffer.lean ====
section
/-! DEFINITION. A framebuffer and the operations of the framebuffer controller on one (10_state.md
R38; 44_display.md R271, R272, R282, R285, R290 to R292). -/

namespace Sys2Proof.Machine

/-- A grid of `w` by `h` pixels, held row by row; row 0 is the top row, and within a row pixel 0 is
the leftmost (R38). -/
abbrev Framebuffer (w h : Nat) := Vector (Vector Bool w) h

namespace Framebuffer

variable {w h : Nat}

/-- All pixels 0. -/
def blank : Framebuffer w h := Vector.replicate h (Vector.replicate w false)

/-- `fb[px][py]`; false outside the grid, which no rule reads. -/
def pixel (fb : Framebuffer w h) (px py : Nat) : Bool :=
  if hy : py < h then if hx : px < w then fb[py][px] else false else false

/-- `fb[px][py] <- b`; nothing outside the grid, which no rule writes. -/
def setPixel (fb : Framebuffer w h) (px py : Nat) (b : Bool) : Framebuffer w h :=
  if hy : py < h then if hx : px < w then fb.set py (fb[py].set px b) else fb else fb

/-- The grid whose pixel at column `px` and row `py` is `f px py`. -/
def ofPixels (f : Nat → Nat → Bool) : Framebuffer w h :=
  Vector.ofFn fun py => Vector.ofFn fun px => f px.val py.val

/-- `toggle(px, py)` (R271): invert the pixel and give its old value. -/
def toggle (fb : Framebuffer w h) (px py : Nat) : Bool × Framebuffer w h :=
  (fb.pixel px py, fb.setPixel px py (xor (fb.pixel px py) true))

/-- Where a sprite pixel whose place is `(px, py)` goes on a screen of `w` by `h` (R282): past the
right or bottom edge it is dropped under `clipping`, and wraps to the opposite edge without it. -/
def edgeTarget (w h : Nat) (clipping : Bool) (px py : Nat) : Option (Nat × Nat) :=
  if px ≥ w ∨ py ≥ h then
    if clipping then none else some (px % w, py % h)
  else some (px, py)

/-- One sprite bit that is 1, at the place `(px, py)`: toggle its target, and record a collision when
the toggle returned 1 (R271, R285). -/
def plot (clipping : Bool) (px py : Nat) (acc : Framebuffer w h × Bool) : Framebuffer w h × Bool :=
  match edgeTarget w h clipping px py with
  | none => acc
  | some (tx, ty) =>
    let (old, fb) := acc.1.toggle tx ty
    (fb, acc.2 || old)

/-- The columns of a sprite row that hold a 1, from the left: bit `n - 1` is the leftmost pixel
(R281). -/
def litColumns {n : Nat} (row : BitVec n) : List Nat :=
  (List.range n).filter fun c => row.getLsbD (n - 1 - c)

/-- The sprite's pixels that are 1, row after row and from the left in a row (R281): pairs of column
and row. -/
def litCells {n : Nat} : List (BitVec n) → Nat → List (Nat × Nat)
  | [], _ => []
  | row :: rows, r => (litColumns row).map (fun c => (c, r)) ++ litCells rows (r + 1)

/-- The pixel writes of a draw with its origin at `(ox, oy)`, in the order of the loops of R285 and
R286; with the new grid, whether any toggle returned 1. -/
def draw {n : Nat} (clipping : Bool) (ox oy : Nat) (rows : List (BitVec n)) (fb : Framebuffer w h) :
    Framebuffer w h × Bool :=
  (litCells rows 0).foldl (fun acc cell => plot clipping (ox + cell.1) (oy + cell.2) acc) (fb, false)

/-- `fb'[px][py] <- (py >= n) ? fb[px][py - n] : 0` (R290). -/
def scrollDown (fb : Framebuffer w h) (n : Nat) : Framebuffer w h :=
  ofPixels fun px py => if py ≥ n then fb.pixel px (py - n) else false

/-- `fb'[px][py] <- (px >= 4) ? fb[px - 4][py] : 0` (R291). -/
def scrollRight4 (fb : Framebuffer w h) : Framebuffer w h :=
  ofPixels fun px py => if px ≥ 4 then fb.pixel (px - 4) py else false

/-- `fb'[px][py] <- (px + 4 < W) ? fb[px + 4][py] : 0` (R292). -/
def scrollLeft4 (fb : Framebuffer w h) : Framebuffer w h :=
  ofPixels fun px py => if px + 4 < w then fb.pixel (px + 4) py else false

end Framebuffer

end Sys2Proof.Machine
end

