-- ==== Sys2Proof/Machine/Settings.lean ====
section
/-! DEFINITION. The settings an engine carries: the quirk set with its defaults for each variant
(10_state.md R50, R54) and the font parameters with their defaults (00_scope.md R6; 10_state.md R62,
R63). -/

namespace Sys2Proof.Machine

/-- The quirk set: six independent booleans, any combination of which is legal (R50). -/
structure Quirks where
  /-- 1: `8xy1`, `8xy2`, `8xy3` set VF to 0 after the operation. -/
  vfReset : Bool
  /-- 1: `Fx55`, `Fx65` advance I by x + 1. -/
  memoryIncrement : Bool
  /-- 1: a sprite draw holds the engine until the next `tick_frame`. -/
  displayWait : Bool
  /-- 1: sprite pixels past the right or bottom edge are dropped; 0: they wrap. -/
  clipping : Bool
  /-- 1: `8xy6`, `8xyE` shift Vx in place; 0: they shift Vy into Vx. -/
  shifting : Bool
  /-- 1: `Bnnn` adds `V[nnn[11:8]]`; 0: it adds V0. -/
  jumping : Bool
  deriving DecidableEq, Repr

/-- The quirk defaults of each variant (R54). -/
def Quirks.defaults : Variant → Quirks
  | .chip8 =>
    { vfReset := true, memoryIncrement := true, displayWait := true, clipping := true,
      shifting := false, jumping := false }
  | .superchip =>
    { vfReset := false, memoryIncrement := false, displayWait := false, clipping := true,
      shifting := true, jumping := true }

/-- The names `set_quirk` knows (R51): the six fields, and `logic`, which writes `vf_reset`
(90_conflicts.md C1). -/
inductive QuirkName where
  | vfReset
  | memoryIncrement
  | displayWait
  | clipping
  | shifting
  | jumping
  deriving DecidableEq, Repr

/-- The field a name stands for; any other name is refused ("a fixed closed set", R51). -/
def QuirkName.ofString (name : String) : Option QuirkName :=
  if name = "vf_reset" then some .vfReset
  else if name = "logic" then some .vfReset
  else if name = "memory_increment" then some .memoryIncrement
  else if name = "display_wait" then some .displayWait
  else if name = "clipping" then some .clipping
  else if name = "shifting" then some .shifting
  else if name = "jumping" then some .jumping
  else none

/-- The value of the field a name stands for. -/
def Quirks.value (q : Quirks) : QuirkName → Bool
  | .vfReset => q.vfReset
  | .memoryIncrement => q.memoryIncrement
  | .displayWait => q.displayWait
  | .clipping => q.clipping
  | .shifting => q.shifting
  | .jumping => q.jumping

/-- Write one field and nothing else (R51). -/
def Quirks.write (q : Quirks) (name : QuirkName) (value : Bool) : Quirks :=
  match name with
  | .vfReset => { q with vfReset := value }
  | .memoryIncrement => { q with memoryIncrement := value }
  | .displayWait => { q with displayWait := value }
  | .clipping => { q with clipping := value }
  | .shifting => { q with shifting := value }
  | .jumping => { q with jumping := value }

/-- The font parameters of R6, which the spec leaves OPEN: "A model must take them as an argument"
(R62). They are carried by the state and written by nothing (assumption log 5). -/
structure Fonts where
  /-- `FONT_SMALL_BASE`. -/
  smallBase : Nat
  /-- `FONT_BIG_BASE`. -/
  bigBase : Nat
  /-- `FONT_SMALL`: 16 glyphs of 5 bytes. -/
  small : Vector Byte 80
  /-- `FONT_BIG`: 10 glyphs of 10 bytes. -/
  big : Vector Byte 100
  deriving DecidableEq, Repr

/-- What R6 asks of the bases: both fonts lie below 0x200 and do not overlap. -/
def Fonts.wf (f : Fonts) : Bool :=
  decide (f.smallBase + 80 ≤ 0x200) && decide (f.bigBase + 100 ≤ 0x200)
    && (decide (f.smallBase + 80 ≤ f.bigBase) || decide (f.bigBase + 100 ≤ f.smallBase))

/-- The glyphs 0 to 7 of the default small font (R62). -/
def smallGlyphs0to7 : List Byte := [
  0xF0, 0x90, 0x90, 0x90, 0xF0,
  0x20, 0x60, 0x20, 0x20, 0x70,
  0xF0, 0x10, 0xF0, 0x80, 0xF0,
  0xF0, 0x10, 0xF0, 0x10, 0xF0,
  0x90, 0x90, 0xF0, 0x10, 0x10,
  0xF0, 0x80, 0xF0, 0x10, 0xF0,
  0xF0, 0x80, 0xF0, 0x90, 0xF0,
  0xF0, 0x10, 0x20, 0x40, 0x40]

/-- The glyphs 8 to F of the default small font (R62). -/
def smallGlyphs8toF : List Byte := [
  0xF0, 0x90, 0xF0, 0x90, 0xF0,
  0xF0, 0x90, 0xF0, 0x10, 0xF0,
  0xF0, 0x90, 0xF0, 0x90, 0x90,
  0xE0, 0x90, 0xE0, 0x90, 0xE0,
  0xF0, 0x80, 0x80, 0x80, 0xF0,
  0xE0, 0x90, 0x90, 0x90, 0xE0,
  0xF0, 0x80, 0xF0, 0x80, 0xF0,
  0xF0, 0x80, 0xF0, 0x80, 0x80]

/-- The glyphs 0 to 4 of the default big font (R63). -/
def bigGlyphs0to4 : List Byte := [
  0x3C, 0x7E, 0xE7, 0xC3, 0xC3, 0xC3, 0xC3, 0xE7, 0x7E, 0x3C,
  0x18, 0x38, 0x58, 0x18, 0x18, 0x18, 0x18, 0x18, 0x18, 0x3C,
  0x3E, 0x7F, 0xC3, 0x06, 0x0C, 0x18, 0x30, 0x60, 0xFF, 0xFF,
  0x3C, 0x7E, 0xC3, 0x03, 0x0E, 0x0E, 0x03, 0xC3, 0x7E, 0x3C,
  0x06, 0x0E, 0x1E, 0x36, 0x66, 0xC6, 0xFF, 0xFF, 0x06, 0x06]

/-- The glyphs 5 to 9 of the default big font (R63). -/
def bigGlyphs5to9 : List Byte := [
  0xFF, 0xFF, 0xC0, 0xC0, 0xFC, 0xFE, 0x03, 0xC3, 0x7E, 0x3C,
  0x3E, 0x7C, 0xC0, 0xC0, 0xFC, 0xFE, 0xC3, 0xC3, 0x7E, 0x3C,
  0xFF, 0xFF, 0x03, 0x06, 0x0C, 0x18, 0x30, 0x60, 0x60, 0x60,
  0x3C, 0x7E, 0xC3, 0xC3, 0x7E, 0x7E, 0xC3, 0xC3, 0x7E, 0x3C,
  0x3C, 0x7E, 0xC3, 0xC3, 0x7F, 0x3F, 0x03, 0x03, 0x3E, 0x7C]

/-- The default of `FONT_SMALL` (R62). -/
def defaultSmallFont : Vector Byte 80 :=
  ⟨(smallGlyphs0to7 ++ smallGlyphs8toF).toArray, by decide⟩

/-- The default of `FONT_BIG` (R63). -/
def defaultBigFont : Vector Byte 100 :=
  ⟨(bigGlyphs0to4 ++ bigGlyphs5to9).toArray, by decide⟩

/-- The default font parameters (R6, R62, R63). -/
def defaultFonts : Fonts :=
  { smallBase := 0x000, bigBase := 0x050, small := defaultSmallFont, big := defaultBigFont }

end Sys2Proof.Machine
end

