-- ==== Sys2Proof/Machine/Memory.lean ====
section
/-! DEFINITION. Memory as plain data (20_memory.md R80): the list of the bytes that differ from what
an unlisted address reads as, in one canonical form. What an unlisted address reads as is the reset
contents of the address (`resetContents`, passed to the operations as `base`). -/

namespace Sys2Proof.Machine

/-- The bytes that differ from the reset contents, in strictly rising order of address. -/
abbrev Memory := List Host.Cell

/-- The contents of an address after reset (R392, R60): the ROM image from 0x200, the two fonts at
their bases, 0 elsewhere. R392 writes them in the order small font, big font, ROM, so the later one
is looked at first. -/
def resetContents (fonts : Fonts) (rom : List Byte) (a : Nat) : Byte :=
  if Config.entry ≤ a ∧ a < Config.entry + rom.length then rom.getD (a - Config.entry) 0
  else if fonts.bigBase ≤ a ∧ a < fonts.bigBase + 100 then
    fonts.big.toList.getD (a - fonts.bigBase) 0
  else if fonts.smallBase ≤ a ∧ a < fonts.smallBase + 80 then
    fonts.small.toList.getD (a - fonts.smallBase) 0
  else 0

namespace Memory

/-- The byte listed for an address, if one is. -/
def lookup : Memory → Nat → Option Byte
  | [], _ => none
  | (k, c) :: m, a => if k = a then some c else lookup m a

/-- The byte at an address: the listed one, else the reset contents. -/
def read (base : Nat → Byte) (m : Memory) (a : Nat) : Byte := (lookup m a).getD (base a)

/-- List a byte for an address, in its place in the order. -/
def insert : Memory → Nat → Byte → Memory
  | [], a, b => [(a, b)]
  | (k, c) :: m, a, b =>
    if a < k then (a, b) :: (k, c) :: m
    else if a = k then (a, b) :: m
    else (k, c) :: insert m a b

/-- Take an address off the list. -/
def erase : Memory → Nat → Memory
  | [], _ => []
  | (k, c) :: m, a => if k = a then m else (k, c) :: erase m a

/-- Set the byte at an address (R88: "A write changes exactly the byte addressed"). Writing what an
unlisted address reads as takes the address off the list. -/
def write (base : Nat → Byte) (m : Memory) (a : Nat) (b : Byte) : Memory :=
  if b = base a then erase m a else insert m a b

/-- The canonical form from address `lo` up: addresses strictly rising, all in the address space, no
entry equal to the reset contents. -/
def wfFrom (base : Nat → Byte) : Nat → Memory → Bool
  | _, [] => true
  | lo, (k, c) :: m =>
    decide (lo ≤ k) && decide (k < Config.memSize) && decide (c ≠ base k) && wfFrom base (k + 1) m

/-- The canonical form. -/
def wf (base : Nat → Byte) (m : Memory) : Bool := wfFrom base 0 m

end Memory

end Sys2Proof.Machine
end

