-- ==== Sys2Proof/Machine/State.lean ====
section
/-! DEFINITION. The state of one engine (10_state.md), its value after construction (R60, R390), and
the reasons a step of the model can stop. -/

namespace Sys2Proof.Machine

/-- `wait_key` (R41). -/
inductive WaitKey where
  | notWaiting
  /-- `Fx0A` waits for a key release, which writes its code to `V[r]`. -/
  | waitingForPress (r : Nibble)
  deriving DecidableEq, Repr

/-- `FaultKind` (60_exceptions.md R350). `variantLocked` is only ever the result of the
`select_variant` command. -/
inductive FaultKind where
  | illegalInstruction
  | stackOverflow
  | stackUnderflow
  | outOfBoundsAccess
  | variantLocked
  | unmodelled
  deriving DecidableEq, Repr

/-- The `info` of a fault, the last column of R351's table. It is diagnostic: no rule reads it (R12). -/
inductive FaultInfo where
  /-- "pc-misaligned" -/
  | pcMisaligned
  /-- "pc-bounds" -/
  | pcBounds
  /-- The word that decodes as `Illegal`. -/
  | word (w : Word16)
  /-- "call" -/
  | call
  /-- "ret" -/
  | ret
  /-- The highest address the instruction would have accessed. -/
  | address (a : Nat)
  /-- "Ex9E key > 0xF" -/
  | skpKey
  /-- "ExA1 key > 0xF" -/
  | sknpKey
  /-- "Fx29 digit > 0xF" -/
  | smallDigit
  /-- "Fx30 digit > 9" -/
  | bigDigit
  deriving DecidableEq, Repr

/-- The signals a cycle or a frame returns (40_cycle.md R131). -/
structure Signal where
  redraw : Bool
  halted : Bool
  fault : Option FaultKind
  deriving DecidableEq, Repr

/-- `{redraw: 0, halted: 0, fault: none}`, the signals a cycle begins with (R130). -/
def Signal.quiet : Signal := { redraw := false, halted := false, fault := none }

/-- The state of one engine. Every field is a row of R60's table, but for the last four: `fonts` holds
the font parameters, `faultInfo` the recorded `info`, `signal` the signals last returned, and `draws`
counts the random bytes drawn. -/
structure State where
  /-- The general registers V0..VF (R30, R31). -/
  V : Vector Byte 16
  /-- The index register (R32). -/
  I : Word16
  /-- The program counter (R33). -/
  PC : Word16
  /-- The number of live stack entries, 0..16 (R34). -/
  SP : Fin (Config.stackDepth + 1)
  /-- The call stack (R34). -/
  stack : Vector Word16 Config.stackDepth
  /-- The delay timer (R35). -/
  DT : Byte
  /-- The sound timer (R35). -/
  ST : Byte
  /-- The address space (R36, R80): the bytes that differ from their reset contents. -/
  mem : Memory
  /-- The ROM image (R37). -/
  rom : List Byte
  /-- The low-res framebuffer (R38). -/
  fbLo : Framebuffer Config.loresW Config.loresH
  /-- The high-res framebuffer (R38). -/
  fbHi : Framebuffer Config.hiresW Config.hiresH
  /-- Selects the active framebuffer (R38). -/
  hires : Bool
  /-- The keypad register: true means pressed (R40). -/
  keys : Vector Bool 16
  /-- The key wait (R41). -/
  waitKey : WaitKey
  /-- The display hold (R42). -/
  vblankHold : Bool
  /-- The engine is halted (R43). -/
  halted : Bool
  /-- The kind of the fault that halted it, if a fault did (R43). -/
  faultState : Option FaultKind
  /-- A cycle has run since reset or construction (R44). -/
  runStarted : Bool
  /-- The persistent flags (R45). -/
  flags : Vector Byte 8
  /-- The quirk set (R50). -/
  quirks : Quirks
  /-- The variant register (R52). -/
  variant : Variant
  /-- The font parameters (R6); nothing writes them. -/
  fonts : Fonts
  /-- The `info` recorded with `faultState` (R12, R351). -/
  faultInfo : Option FaultInfo
  /-- The model's own: the signals the latest cycle or frame returned (R131, R145). -/
  signal : Signal
  /-- The model's own: how many random bytes have been drawn; the next is `Config.rand draws`. -/
  draws : Nat
  deriving DecidableEq, Repr

/-- The model has no fault of its own, so this type has no constructor. What the spec calls a fault
(R350) is an entry it describes (R140, R352): a next state that is halted and records the kind. -/
inductive Fault where
  deriving DecidableEq, Repr

/-- Why a step has no meaning. -/
inductive Refusal where
  /-- Raised by an arm of `exec` whose instruction has no meaning yet; no arm is left that raises it.
  Safe: the run stops, and no claim about a next state holds of it. -/
  | notModelled (mnemonic : String)
  deriving DecidableEq, Repr

/-- What a meaning answers. -/
abbrev Outcome := Host.Outcome State Fault Refusal

/-- A new engine with the given font parameters (R390): the "after construction" column of R60. -/
def State.construct (fonts : Fonts) : State :=
  { V := Vector.replicate 16 0
    I := 0
    PC := 0x200
    SP := 0
    stack := Vector.replicate Config.stackDepth 0
    DT := 0
    ST := 0
    mem := []
    rom := []
    fbLo := Framebuffer.blank
    fbHi := Framebuffer.blank
    hires := false
    keys := Vector.replicate 16 false
    waitKey := .notWaiting
    vblankHold := false
    halted := false
    faultState := none
    runStarted := false
    flags := Vector.replicate 8 0
    quirks := Quirks.defaults .chip8
    variant := .chip8
    fonts := fonts
    faultInfo := none
    signal := Signal.quiet
    draws := 0 }

/-- The engine as constructed with the default fonts, which is also its state after a reset that
follows construction (R60, R390). -/
def State.reset : State := State.construct defaultFonts

end Sys2Proof.Machine
end

