-- ==== Sys2Proof/Machine/Ops.lean ====
section
/-! DEFINITION. The named operations over registers, stack, memory and the active framebuffer; the
entry of a fault, and the reset that is the only way out of it. -/

namespace Sys2Proof.Machine

/-! ### Numbers (00_scope.md R8, R9) -/

/-- `trunc_8(v)`: `v mod 256`. -/
def trunc8 (v : Nat) : Byte := BitVec.ofNat 8 v

/-- `trunc_16(v)`: `v mod 65536`. -/
def trunc16 (v : Nat) : Word16 := BitVec.ofNat 16 v

/-- `zext_16(nnn)` (R102). -/
def zext16 (nnn : Addr12) : Word16 := nnn.setWidth 16

namespace State

/-! ### General registers (R10, R30) -/

/-- `V[x]`. -/
def readV (s : State) (x : Nibble) : Byte := s.V[x.toNat]

/-- `V[x] <- b`. -/
def writeV (s : State) (x : Nibble) (b : Byte) : State := { s with V := s.V.set x.toNat b }

/-- Write a result to `V[x]` and then a flag to VF, so that the flag is what remains when `x = F`
(R31, R176). -/
def writeResultAndFlag (s : State) (x : Nibble) (result flag : Byte) : State :=
  (s.writeV x result).writeV 0xF#4 flag

/-- Load V0 .. V(count - 1) with `f 0`, `f 1`, ... in ascending order (R247, R252). -/
def loadRegisters (s : State) (count : Nat) (f : Nat → Byte) : State :=
  { s with V := Vector.ofFn fun r => if r.val < count then f r.val else s.V[r.val] }

/-- Save V0 .. V(count - 1) in flags[0] .. flags[count - 1] (R250). -/
def saveFlags (s : State) (count : Nat) : State :=
  { s with flags := Vector.ofFn fun j => if j.val < count then s.V[j.val] else s.flags[j.val] }

/-- `flags[j]`; every `j` an instruction uses is below 8 (R112 (f)). -/
def readFlag (s : State) (j : Nat) : Byte := s.flags.toList.getD j 0

/-! ### Program counter (R135, R211) -/

/-- `PC <- PC + 2`: the advance past the fetched word, before the instruction executes (R135). -/
def advancePC (s : State) : State := { s with PC := s.PC + 2#16 }

/-- A skip instruction, after the advance: `PC <- PC + 2` when its condition holds (R211). -/
def skipIf (s : State) (cond : Bool) : State :=
  { s with PC := if cond then s.PC + 2#16 else s.PC }

/-- `PC <- target`, unchecked (R212). -/
def jump (s : State) (target : Word16) : State := { s with PC := target }

/-! ### Call stack (R34) -/

/-- `stack[SP] <- ret; SP <- SP + 1; PC <- target`, for `SP < 16` (R202). -/
def pushAndJump (s : State) (h : s.SP.val < Config.stackDepth) (ret target : Word16) : State :=
  { s with
    stack := s.stack.set s.SP.val ret
    SP := ⟨s.SP.val + 1, by omega⟩
    PC := target }

/-- `SP <- SP - 1; PC <- stack[SP]`, for `SP > 0` (R200). The popped entry is not cleared. -/
def popAndJump (s : State) (h : 0 < s.SP.val) : State :=
  { s with
    SP := ⟨s.SP.val - 1, by omega⟩
    PC := s.stack[s.SP.val - 1]'(by omega) }

/-! ### Memory (20_memory.md) -/

/-- What an address that `mem` does not list reads as: its contents after reset (R82, R392). -/
def resetByte (s : State) (a : Nat) : Byte := resetContents s.fonts s.rom a

/-- `MemRead(a, 1)`, for `a < MEM_SIZE` (R11). -/
def readByte (s : State) (a : Nat) : Byte := s.mem.read s.resetByte a

/-- `MemWrite(a, 1, b)`, for `a < MEM_SIZE` (R11, R88). -/
def writeByte (s : State) (a : Nat) (b : Byte) : State :=
  { s with mem := s.mem.write s.resetByte a b }

/-- Single-byte writes at consecutive ascending addresses from `a` (R83). -/
def writeBytes (s : State) (a : Nat) : List Byte → State
  | [] => s
  | b :: bs => (s.writeByte a b).writeBytes (a + 1) bs

/-- The instruction word at an address: the byte there is the high byte (R83, R134). -/
def fetchWord (s : State) (a : Nat) : Word16 := wordOfBytes (s.readByte a) (s.readByte (a + 1))

/-! ### Active framebuffer (R38) -/

/-- `W`. -/
def width (s : State) : Nat := if s.hires then Config.hiresW else Config.loresW

/-- `H`. -/
def height (s : State) : Nat := if s.hires then Config.hiresH else Config.loresH

/-- `fb[px][py]` of the active buffer. -/
def pixel (s : State) (px py : Nat) : Bool :=
  if s.hires then s.fbHi.pixel px py else s.fbLo.pixel px py

/-- Change the active buffer and nothing else (R270). -/
def updateScreen (s : State) (f : ∀ {w h : Nat}, Framebuffer w h → Framebuffer w h) : State :=
  { s with
    fbLo := if s.hires then s.fbLo else f s.fbLo
    fbHi := if s.hires then f s.fbHi else s.fbHi }

/-- `hires <- b; fb_lo <- all 0; fb_hi <- all 0` (R300). -/
def switchResolution (s : State) (b : Bool) : State :=
  { s with hires := b, fbLo := Framebuffer.blank, fbHi := Framebuffer.blank }

/-- `signal.redraw <- 1` (R273). -/
def signalRedraw (s : State) : State := { s with signal := { s.signal with redraw := true } }

/-! ### Faults (40_cycle.md R140; 60_exceptions.md R352) -/

/-- Entry of a fault, from the state at the start of the cycle (`PC` at the faulting instruction, no
write made): R140 (b) and (c). Every other field keeps its value, which is R140 (a). -/
def takeFault (s : State) (kind : FaultKind) (info : FaultInfo) : State :=
  { s with
    runStarted := true
    halted := true
    faultState := some kind
    faultInfo := some info
    signal := { redraw := false, halted := true, fault := some kind } }

/-- `reset()` (70_reset_and_hazards.md R392), the only exit from the halted state (R354, R394): the
state after construction, but for `rom`, `flags`, `quirks` and `variant`, which survive, and for the
model's `fonts` and `draws`, which nothing resets (assumption log 4, 5). An empty list is memory with
its reset contents everywhere: the fonts and the ROM image reloaded, 0 elsewhere. -/
def resetEngine (s : State) : State :=
  { State.construct s.fonts with
    rom := s.rom
    flags := s.flags
    quirks := s.quirks
    variant := s.variant
    draws := s.draws }

/-! ### The start of a cycle (R130) -/

/-- What every cycle does first: `signal <- {0, 0, none}; run_started <- 1` (R130, R133). -/
def startCycle (s : State) : State := { s with runStarted := true, signal := Signal.quiet }

end State

/-- A meaning under SUPERCHIP only: under CHIP8 the instruction is illegal (R111). The decoder gives
such an instruction under SUPERCHIP alone, so no step takes the other branch. -/
def underSuperchip (s : State) (i : Instr) (effect : State) : Outcome :=
  match s.variant with
  | .superchip => .next effect
  | .chip8 => .next (s.takeFault .illegalInstruction (.word (encode i)))

end Sys2Proof.Machine
end

