-- ==== Sys2Proof/Machine/Operands.lean ====
section
/-! DEFINITION. The operand forms: the address `I + k` and its bounds check (20_memory.md R84, R85;
43_memory_ops.md R253), the sources the quirks choose (41_alu.md R168, R170; 42_control.md R207), the
key an instruction reads (45_input_timers.md R325), and the sprite in memory (44_display.md R280,
R281). -/

namespace Sys2Proof.Machine

/-- The decimal digits of a byte, hundreds first (R245). -/
def bcdDigits (v : Byte) : List Byte :=
  [trunc8 (v.toNat / 100), trunc8 (v.toNat / 10 % 10), trunc8 (v.toNat % 10)]

namespace State

/-- The effective address `I + k`, in `nat` (R85). -/
def effAddr (s : State) (k : Nat) : Nat := s.I.toNat + k

/-- The bounds check of an access to `I .. I + last`: every address is below `MEM_SIZE` exactly when
the last is (R84). -/
def inBounds (s : State) (last : Nat) : Bool := decide (s.effAddr last < Config.memSize)

/-- The registers V0..Vx in ascending order, the bytes `Fx55` stores (R246). -/
def registersTo (s : State) (x : Nibble) : List Byte := s.V.toList.take (x.toNat + 1)

/-- `src <- quirks.shifting ? vx : vy` (R168, R170). -/
def shiftSource (s : State) (x y : Nibble) : Byte :=
  if s.quirks.shifting then s.readV x else s.readV y

/-- `r <- quirks.jumping ? nnn[11:8] : 0` (R207). -/
def jumpRegister (s : State) (nnn : Addr12) : Nibble :=
  if s.quirks.jumping then nnn.extractLsb' 8 4 else 0#4

/-- `keys[k]`, for `k` in 0..15 (R40). -/
def keyDown (s : State) (k : Byte) : Bool := s.keys.toList.getD k.toNat false

/-- `ox = V[x] mod W` (R280). -/
def originX (s : State) (x : Nibble) : Nat := (s.readV x).toNat % s.width

/-- `oy = V[y] mod H` (R280). -/
def originY (s : State) (y : Nibble) : Nat := (s.readV y).toNat % s.height

/-- A sprite of 8-pixel rows: row `r` is the byte at `I + r` (R281). -/
def spriteRows8 (s : State) (rows : Nat) : List Byte :=
  (List.range rows).map fun r => s.readByte (s.effAddr r)

/-- A sprite of 16-pixel rows: row `r` is the two bytes at `I + 2r`, the left one first (R281). -/
def spriteRows16 (s : State) (rows : Nat) : List Word16 :=
  (List.range rows).map fun r =>
    wordOfBytes (s.readByte (s.effAddr (2 * r))) (s.readByte (s.effAddr (2 * r + 1)))

end State

end Sys2Proof.Machine
end

