-- ==== Sys2Proof/Machine/Flags.lean ====
section
/-! DEFINITION. The flag computations: every value an instruction writes to VF (41_alu.md R163 to
R170, R175; 44_display.md R283). -/

namespace Sys2Proof.Machine

/-- A flag value: VF holds 1 or 0. -/
def flagByte (b : Bool) : Byte := if b then 1#8 else 0#8

/-- Carry: 1 exactly when the true sum exceeds 255 (R166, R175). -/
def carryFlag (a b : Byte) : Byte := flagByte (decide (a.toNat + b.toNat > 255))

/-- Not borrow: 1 exactly when the minuend is at least the subtrahend (R167, R169, R175). -/
def notBorrowFlag (minuend subtrahend : Byte) : Byte :=
  flagByte (decide (minuend.toNat ≥ subtrahend.toNat))

/-- The bit a right shift moves out: bit 0 of the source (R168). -/
def rightShiftFlag (src : Byte) : Byte := src &&& 1#8

/-- The bit a left shift moves out: bit 7 of the source (R170). -/
def leftShiftFlag (src : Byte) : Byte := src >>> 7

/-- The collision flag of a draw: 1 if any toggle returned 1, else 0 (R283). -/
def collisionFlag (hit : Bool) : Byte := flagByte hit

/-- `if quirks.vf_reset: V[F] <- 0`, after a logic operation (R163 to R165). -/
def State.resetFlagIfQuirk (s : State) : State :=
  { s with V := if s.quirks.vfReset then (s.writeV 0xF#4 0#8).V else s.V }

end Sys2Proof.Machine
end

