-- ==== Sys2Proof/Machine/Alu.lean ====
section
/-! DEFINITION. Register loads, arithmetic, logic, shifts and random (41_alu.md). Each meaning takes
the state at the start of the instruction, with `PC` at its word, and reads its operands from it (R14);
`advancePC` is the advance of R135. -/

namespace Sys2Proof.Machine

/-- `6xkk` (R160). -/
def execLdVxKk (x : Nibble) (kk : Byte) (s : State) : Outcome :=
  .next (s.advancePC.writeV x kk)

/-- `7xkk` (R161): no flag is written. -/
def execAddVxKk (x : Nibble) (kk : Byte) (s : State) : Outcome :=
  .next (s.advancePC.writeV x (trunc8 ((s.readV x).toNat + kk.toNat)))

/-- `8xy0` (R162). -/
def execLdVxVy (x y : Nibble) (s : State) : Outcome :=
  .next (s.advancePC.writeV x (s.readV y))

/-- `8xy1` (R163). -/
def execOrVxVy (x y : Nibble) (s : State) : Outcome :=
  .next (s.advancePC.writeV x (s.readV x ||| s.readV y)).resetFlagIfQuirk

/-- `8xy2` (R164). -/
def execAndVxVy (x y : Nibble) (s : State) : Outcome :=
  .next (s.advancePC.writeV x (s.readV x &&& s.readV y)).resetFlagIfQuirk

/-- `8xy3` (R165). -/
def execXorVxVy (x y : Nibble) (s : State) : Outcome :=
  .next (s.advancePC.writeV x (s.readV x ^^^ s.readV y)).resetFlagIfQuirk

/-- `8xy4` (R166). -/
def execAddVxVy (x y : Nibble) (s : State) : Outcome :=
  .next (s.advancePC.writeResultAndFlag x (trunc8 ((s.readV x).toNat + (s.readV y).toNat))
    (carryFlag (s.readV x) (s.readV y)))

/-- `8xy5` (R167). -/
def execSubVxVy (x y : Nibble) (s : State) : Outcome :=
  .next (s.advancePC.writeResultAndFlag x (trunc8 ((s.readV x).toNat + 256 - (s.readV y).toNat))
    (notBorrowFlag (s.readV x) (s.readV y)))

/-- `8xy6` (R168). -/
def execShrVxVy (x y : Nibble) (s : State) : Outcome :=
  .next (s.advancePC.writeResultAndFlag x (s.shiftSource x y >>> 1)
    (rightShiftFlag (s.shiftSource x y)))

/-- `8xy7` (R169). -/
def execSubnVxVy (x y : Nibble) (s : State) : Outcome :=
  .next (s.advancePC.writeResultAndFlag x (trunc8 ((s.readV y).toNat + 256 - (s.readV x).toNat))
    (notBorrowFlag (s.readV y) (s.readV x)))

/-- `8xyE` (R170). -/
def execShlVxVy (x y : Nibble) (s : State) : Outcome :=
  .next (s.advancePC.writeResultAndFlag x (trunc8 ((s.shiftSource x y).toNat <<< 1))
    (leftShiftFlag (s.shiftSource x y)))

/-- `Cxkk` (R171): the random byte is the free value `Config.rand` at the number of bytes drawn so
far, which the instruction advances (assumption log 4). -/
def execRndVxKk (x : Nibble) (kk : Byte) (s : State) : Outcome :=
  .next { s.advancePC.writeV x (Config.rand s.draws &&& kk) with draws := s.draws + 1 }

end Sys2Proof.Machine
end

