-- ==== Sys2Proof/Machine/Control.lean ====
section
/-! DEFINITION. Control transfer and exit (42_control.md). `advancePC` leaves `PC` at `a + 2`, as the
pseudocode of that file finds it. -/

namespace Sys2Proof.Machine

/-- `00EE` (R200): `PC` is the popped entry, whatever it was. -/
def execRet (s : State) : Outcome :=
  if h : 0 < s.SP.val then .next (s.popAndJump h)
  else .next (s.takeFault .stackUnderflow .ret)

/-- `1nnn` (R201). -/
def execJp (nnn : Addr12) (s : State) : Outcome :=
  .next (s.advancePC.jump (zext16 nnn))

/-- `2nnn` (R202): the return address is `a + 2`, where the advance left `PC`. -/
def execCall (nnn : Addr12) (s : State) : Outcome :=
  if h : s.SP.val < Config.stackDepth then .next (s.pushAndJump h s.advancePC.PC (zext16 nnn))
  else .next (s.takeFault .stackOverflow .call)

/-- `3xkk` (R203). -/
def execSeVxKk (x : Nibble) (kk : Byte) (s : State) : Outcome :=
  .next (s.advancePC.skipIf (s.readV x == kk))

/-- `4xkk` (R204). -/
def execSneVxKk (x : Nibble) (kk : Byte) (s : State) : Outcome :=
  .next (s.advancePC.skipIf (s.readV x != kk))

/-- `5xy0` (R205). -/
def execSeVxVy (x y : Nibble) (s : State) : Outcome :=
  .next (s.advancePC.skipIf (s.readV x == s.readV y))

/-- `9xy0` (R206). -/
def execSneVxVy (x y : Nibble) (s : State) : Outcome :=
  .next (s.advancePC.skipIf (s.readV x != s.readV y))

/-- `Bnnn` (R207). -/
def execJpV0Nnn (nnn : Addr12) (s : State) : Outcome :=
  .next (s.advancePC.jump
    (trunc16 ((zext16 nnn).toNat + (s.readV (s.jumpRegister nnn)).toNat)))

/-- `00FD` (R210): `halted` is set and `fault_state` stays `none`; `PC` is left at `a + 2`. -/
def execExit (s : State) : Outcome :=
  underSuperchip s .exit
    { s.advancePC with halted := true, signal := { s.signal with halted := true } }

end Sys2Proof.Machine
end

