-- ==== Sys2Proof/Machine/Display.lean ====
section
/-! DEFINITION. The display instructions (44_display.md): clear, draw, scroll, resolution. -/

namespace Sys2Proof.Machine

/-- `if quirks.display_wait: vblank_hold <- 1`, the last write of a draw (R284). -/
def State.holdIfQuirk (s : State) : State :=
  { s with vblankHold := if s.quirks.displayWait then true else s.vblankHold }

/-- The pixel writes of a draw on the active buffer, with the origin of R280, and then the collision
flag (R283). The origin is read before anything is written. -/
def State.drawSprite {n : Nat} (s : State) (x y : Nibble) (rows : List (BitVec n)) : State :=
  let lo := s.fbLo.draw s.quirks.clipping (s.originX x) (s.originY y) rows
  let hi := s.fbHi.draw s.quirks.clipping (s.originX x) (s.originY y) rows
  { s with
    fbLo := if s.hires then s.fbLo else lo.1
    fbHi := if s.hires then hi.1 else s.fbHi
    V := (s.writeV 0xF#4 (collisionFlag (if s.hires then hi.2 else lo.2))).V }

/-- A draw that completes: pixels, flag, redraw, display hold (R285, R286). -/
def State.completeDraw {n : Nat} (s : State) (x y : Nibble) (rows : List (BitVec n)) : State :=
  (s.advancePC.drawSprite x y rows).signalRedraw.holdIfQuirk

/-- `00E0` (R272). -/
def execCls (s : State) : Outcome :=
  .next (s.advancePC.updateScreen fun _ => Framebuffer.blank).signalRedraw

/-- `Dxyn` (R285): all `n` bytes are checked before any pixel changes. With `n = 0` it is R287: it
reads no byte and never faults. -/
def execDrwVxVyN (x y n : Nibble) (s : State) : Outcome :=
  if n.toNat > 0 ∧ s.inBounds (n.toNat - 1) = false then
    .next (s.takeFault .outOfBoundsAccess (.address (s.effAddr (n.toNat - 1))))
  else .next (s.completeDraw x y (s.spriteRows8 n.toNat))

/-- `Dxy0` under SUPERCHIP (R286): 16 rows of 16 pixels, 32 bytes. Under CHIP8 it is `Dxyn` with
`n = 0` (R287); the decoder gives it under SUPERCHIP alone. -/
def execDrwVxVy0 (x y : Nibble) (s : State) : Outcome :=
  match s.variant with
  | .superchip =>
    if s.inBounds 31 then .next (s.completeDraw x y (s.spriteRows16 16))
    else .next (s.takeFault .outOfBoundsAccess (.address (s.effAddr 31)))
  | .chip8 => .next (s.completeDraw x y (s.spriteRows8 0))

/-- `00Cn` (R290). -/
def execScd (n : Nibble) (s : State) : Outcome :=
  underSuperchip s (.scd n) (s.advancePC.updateScreen fun fb => fb.scrollDown n.toNat).signalRedraw

/-- `00FB` (R291). -/
def execScr (s : State) : Outcome :=
  underSuperchip s .scr (s.advancePC.updateScreen fun fb => fb.scrollRight4).signalRedraw

/-- `00FC` (R292). -/
def execScl (s : State) : Outcome :=
  underSuperchip s .scl (s.advancePC.updateScreen fun fb => fb.scrollLeft4).signalRedraw

/-- `00FE` (R301). -/
def execLow (s : State) : Outcome :=
  underSuperchip s .low (s.advancePC.switchResolution false).signalRedraw

/-- `00FF` (R302). -/
def execHigh (s : State) : Outcome :=
  underSuperchip s .high (s.advancePC.switchResolution true).signalRedraw

end Sys2Proof.Machine
end

