-- ==== Sys2Proof/Machine/InputTimers.lean ====
section
/-! DEFINITION. The key and timer instructions (45_input_timers.md). -/

namespace Sys2Proof.Machine

/-- `Ex9E` (R325). -/
def execSkpVx (x : Nibble) (s : State) : Outcome :=
  if (s.readV x).toNat > 0xF then .next (s.takeFault .unmodelled .skpKey)
  else .next (s.advancePC.skipIf (s.keyDown (s.readV x)))

/-- `ExA1` (R326). -/
def execSknpVx (x : Nibble) (s : State) : Outcome :=
  if (s.readV x).toNat > 0xF then .next (s.takeFault .unmodelled .sknpKey)
  else .next (s.advancePC.skipIf (!s.keyDown (s.readV x)))

/-- `Fx07` (R335). -/
def execLdVxDT (x : Nibble) (s : State) : Outcome :=
  .next (s.advancePC.writeV x s.DT)

/-- `Fx0A` (R330): `V[x]` is written later, by `set_key` (R322). -/
def execLdVxK (x : Nibble) (s : State) : Outcome :=
  .next { s.advancePC with waitKey := .waitingForPress x }

/-- `Fx15` (R336). -/
def execLdDTVx (x : Nibble) (s : State) : Outcome :=
  .next { s.advancePC with DT := s.readV x }

/-- `Fx18` (R337). -/
def execLdSTVx (x : Nibble) (s : State) : Outcome :=
  .next { s.advancePC with ST := s.readV x }

end Sys2Proof.Machine
end

