-- ==== Sys2Proof/Machine/MemoryOps.lean ====
section
/-! DEFINITION. The index register, font addresses, BCD, block store and load, persistent flags
(43_memory_ops.md). -/

namespace Sys2Proof.Machine

/-- `if quirks.memory_increment: I <- trunc_16(I + x + 1)` (R246, R247). -/
def State.incrementIfQuirk (s : State) (x : Nibble) : State :=
  { s with I := if s.quirks.memoryIncrement then trunc16 (s.I.toNat + x.toNat + 1) else s.I }

/-- `Annn` (R240). -/
def execLdINnn (nnn : Addr12) (s : State) : Outcome :=
  .next { s.advancePC with I := zext16 nnn }

/-- `Fx1E` (R241): VF is not written. -/
def execAddIVx (x : Nibble) (s : State) : Outcome :=
  .next { s.advancePC with I := trunc16 (s.I.toNat + (s.readV x).toNat) }

/-- `Fx29` (R242). -/
def execLdFVx (x : Nibble) (s : State) : Outcome :=
  if (s.readV x).toNat > 0xF then .next (s.takeFault .unmodelled .smallDigit)
  else .next { s.advancePC with I := trunc16 (s.fonts.smallBase + 5 * (s.readV x).toNat) }

/-- `Fx30` (R243). -/
def execLdHFVx (x : Nibble) (s : State) : Outcome :=
  underSuperchip s (.ldHFVx x)
    (if (s.readV x).toNat > 9 then s.takeFault .unmodelled .bigDigit
     else { s.advancePC with I := trunc16 (s.fonts.bigBase + 10 * (s.readV x).toNat) })

/-- `Fx33` (R245). -/
def execLdBVx (x : Nibble) (s : State) : Outcome :=
  if s.inBounds 2 then .next (s.advancePC.writeBytes s.I.toNat (bcdDigits (s.readV x)))
  else .next (s.takeFault .outOfBoundsAccess (.address (s.effAddr 2)))

/-- `Fx55` (R246). -/
def execLdMemVx (x : Nibble) (s : State) : Outcome :=
  if s.inBounds x.toNat then
    .next ((s.advancePC.writeBytes s.I.toNat (s.registersTo x)).incrementIfQuirk x)
  else .next (s.takeFault .outOfBoundsAccess (.address (s.effAddr x.toNat)))

/-- `Fx65` (R247). -/
def execLdVxMem (x : Nibble) (s : State) : Outcome :=
  if s.inBounds x.toNat then
    .next ((s.advancePC.loadRegisters (x.toNat + 1) fun k => s.readByte (s.effAddr k)).incrementIfQuirk x)
  else .next (s.takeFault .outOfBoundsAccess (.address (s.effAddr x.toNat)))

/-- `Fx75` (R250); with `x > 7` it is illegal (R112 (f)). -/
def execLdRVx (x : Nibble) (s : State) : Outcome :=
  underSuperchip s (.ldRVx x)
    (if x.toNat ≤ 7 then s.advancePC.saveFlags (x.toNat + 1)
     else s.takeFault .illegalInstruction (.word (encode (.ldRVx x))))

/-- `Fx85` (R252); with `x > 7` it is illegal (R112 (f)). -/
def execLdVxR (x : Nibble) (s : State) : Outcome :=
  underSuperchip s (.ldVxR x)
    (if x.toNat ≤ 7 then s.advancePC.loadRegisters (x.toNat + 1) s.readFlag
     else s.takeFault .illegalInstruction (.word (encode (.ldVxR x))))

end Sys2Proof.Machine
end

