-- ==== Sys2Proof/Machine/Cycle.lean ====
section
/-! DEFINITION. The instruction cycle (40_cycle.md R130): holds, fetch, decode, dispatch. -/

namespace Sys2Proof.Machine

/-- The states in which a cycle executes nothing (R132, 60_exceptions.md R383), with `none` for a
state in which it executes an instruction. -/
inductive Hold where
  | halted
  | keyWait
  | display
  deriving DecidableEq, Repr

/-- The hold that applies, checked in the order (a), (b), (c) of R132. -/
def State.hold (s : State) : Option Hold :=
  if s.halted then some .halted
  else if s.waitKey ≠ .notWaiting then some .keyWait
  else if s.vblankHold then some .display
  else none

/-- The checks on `PC` before a fetch, in the order of R134 and R355: alignment, then bounds. -/
def State.fetchFault (s : State) : Option FaultInfo :=
  if s.PC.toNat % 2 ≠ 0 then some .pcMisaligned
  else if s.PC.toNat + 1 ≥ Config.memSize then some .pcBounds
  else none

/-- Fetch, decode and execute, from the state `startCycle` leaves (R130, R134 to R137). The meaning
does the advance of `PC` (R135) itself, so a fault of any kind starts from the unadvanced state, as
R140 (a) asks. -/
def fetchAndExecute (s : State) : Outcome :=
  match s.fetchFault with
  | some info => .next (s.takeFault .outOfBoundsAccess info)
  | none =>
    match decode s.variant (s.fetchWord s.PC.toNat) with
    | .illegal w => .next (s.takeFault .illegalInstruction (.word w))
    | .instr i => exec i s

/-- `execute_one_cycle()` (R130). The signals it returns are the field `signal` of the next state. -/
def executeOneCycle (s : State) : Outcome :=
  match s.hold with
  | some .halted => .next { s.startCycle with signal := { Signal.quiet with halted := true } }
  | some .keyWait => .next s.startCycle
  | some .display => .next s.startCycle
  | none => fetchAndExecute s.startCycle

/-- The word `w` stored where the next fetch reads it, and no hold in the way of that fetch. -/
def State.placeWord (s : State) (w : Word16) : State :=
  let stored := (s.writeByte s.PC.toNat (highByte w)).writeByte (s.PC.toNat + 1) (lowByte w)
  { stored with
    waitKey := .notWaiting
    vblankHold := false
    halted := false
    faultState := none
    faultInfo := none }

/-- The variant the next fetch needs for an instruction of the opcode table: SUPERCHIP for an
instruction of the extension, the one in force for every other (R111). -/
def State.variantFor (s : State) : Option Instr → Variant
  | some i => if i.superOnly then .superchip else s.variant
  | none => s.variant

end Sys2Proof.Machine
end

