-- ==== Sys2Proof/Machine/HostCommands.lean ====
section
/-! DEFINITION. The host's commands and queries (00_scope.md R20): each an atomic transition of the
engine between cycles (60_exceptions.md R380), with what it returns. -/

namespace Sys2Proof.Machine

/-- What a command returns to the host. -/
inductive Response where
  /-- The command took effect and returns nothing. -/
  | done
  /-- The command is refused; no state changes. -/
  | refused
  /-- `VariantLocked`, the result of `select_variant` during a run (R53, R350). -/
  | variantLocked
  /-- The signals of a cycle or a frame (R131, R145). -/
  | signals (sig : Signal)
  deriving DecidableEq, Repr

namespace State

/-- `tick_frame()` (60_exceptions.md R370). -/
def tickFrame (s : State) : State :=
  if s.halted then s
  else
    { s with
      DT := if s.DT.toNat > 0 then s.DT - 1#8 else s.DT
      ST := if s.ST.toNat > 0 then s.ST - 1#8 else s.ST
      vblankHold := false }

/-- `keys[k] <- p` (R322). -/
def writeKey (s : State) (k : Nibble) (p : Bool) : State := { s with keys := s.keys.set k.toNat p }

/-- The previous state of a key (R40, R322). -/
def readKey (s : State) (k : Nibble) : Bool := s.keys[k.toNat]

/-- `set_key(code, pressed)` (45_input_timers.md R322): a release of a key that was down resolves a
pending key wait. -/
def setKey (s : State) (code : Nat) (pressed : Bool) : State × Response :=
  if code > 15 then (s, .refused)
  else
    let k := BitVec.ofNat 4 code
    let after := s.writeKey k pressed
    match s.waitKey with
    | .waitingForPress r =>
      if s.readKey k && !pressed then
        ({ after.writeV r (trunc8 code) with waitKey := .notWaiting }, .done)
      else (after, .done)
    | .notWaiting => (after, .done)

/-- `set_quirk(name, value)` (10_state.md R51). -/
def setQuirk (s : State) (name : String) (value : Bool) : State × Response :=
  match QuirkName.ofString name with
  | some q => ({ s with quirks := s.quirks.write q value }, .done)
  | none => (s, .refused)

/-- `select_variant(v)` (10_state.md R53). -/
def selectVariant (s : State) (v : Variant) : State × Response :=
  if s.runStarted then (s, .variantLocked)
  else ({ s with variant := v, quirks := Quirks.defaults v }, .done)

/-- `load_flags(bytes)` (10_state.md R57). -/
def loadFlags (s : State) (bytes : Vector Byte 8) : State × Response :=
  ({ s with flags := bytes }, .done)

/-- `load_rom(bytes)` (70_reset_and_hazards.md R395). -/
def loadRom (s : State) (bytes : List Byte) : State × Response :=
  if bytes.length > Config.romMax then (s, .refused)
  else ({ s with rom := bytes }.resetEngine, .done)

/-- The buzzer output (R372). -/
def buzzer (s : State) : Bool := decide (s.ST.toNat > 0)

end State

/-- `n` cycles of a frame, with the signals accumulated so far (R145): redraw is the or, the fault is
the first. -/
def frameCycles : Nat → Signal → State → Host.Outcome (State × Signal) Fault Refusal
  | 0, acc, s => .next (s, acc)
  | n + 1, acc, s =>
    match executeOneCycle s with
    | .next t =>
      frameCycles n
        { acc with
          redraw := acc.redraw || t.signal.redraw
          fault := if acc.fault = none then t.signal.fault else acc.fault }
        t
    | .fault f => .fault f
    | .refused r => .refused r

/-- `advance_one_frame(cycles_per_frame)` (R145): the cycles, then one tick, then the signals. -/
def advanceOneFrame (n : BitVec 32) (s : State) : Host.Outcome (State × Signal) Fault Refusal :=
  match frameCycles n.toNat Signal.quiet { s with runStarted := true } with
  | .next (t, acc) =>
    let ticked := t.tickFrame
    let sig := { acc with halted := ticked.halted }
    .next ({ ticked with signal := sig }, sig)
  | .fault f => .fault f
  | .refused r => .refused r

/-- The commands of R20's table; the queries are `State.snapshot`. -/
inductive Command where
  | executeOneCycle
  | advanceOneFrame (cyclesPerFrame : BitVec 32)
  | tickFrame
  | setKey (code : Nat) (pressed : Bool)
  | setQuirk (name : String) (value : Bool)
  | selectVariant (v : Variant)
  | loadRom (bytes : List Byte)
  | reset
  | loadFlags (bytes : Vector Byte 8)
  deriving DecidableEq, Repr

/-- One command as one transition (R380). -/
def perform (c : Command) (s : State) : Host.Outcome (State × Response) Fault Refusal :=
  match c with
  | .executeOneCycle =>
    match executeOneCycle s with
    | .next t => .next (t, .signals t.signal)
    | .fault f => .fault f
    | .refused r => .refused r
  | .advanceOneFrame n =>
    match advanceOneFrame n s with
    | .next (t, sig) => .next (t, .signals sig)
    | .fault f => .fault f
    | .refused r => .refused r
  | .tickFrame => .next (s.tickFrame, .done)
  | .setKey code pressed => .next (s.setKey code pressed)
  | .setQuirk name value => .next (s.setQuirk name value)
  | .selectVariant v => .next (s.selectVariant v)
  | .loadRom bytes => .next (s.loadRom bytes)
  | .reset => .next (s.resetEngine, .done)
  | .loadFlags bytes => .next (s.loadFlags bytes)

/-- A history: the commands in the order the host gives them (R380), and the state after the last. -/
def performAll : List Command → State → Host.Outcome State Fault Refusal
  | [], s => .next s
  | c :: cs, s =>
    match perform c s with
    | .next (t, _) => performAll cs t
    | .fault f => .fault f
    | .refused r => .refused r

/-- What the host reads (10_state.md R70): a copy of state, from which nothing flows back. -/
structure Snapshot where
  V : List Byte
  /-- `stack[0..SP-1]`, the live entries. -/
  stack : List Word16
  SP : Nat
  PC : Word16
  I : Word16
  DT : Byte
  ST : Byte
  /-- The active framebuffer, row by row. -/
  screen : List (List Bool)
  hires : Bool
  keys : List Bool
  waitKey : WaitKey
  quirks : Quirks
  variant : Variant
  buzzer : Bool
  flags : List Byte
  halted : Bool
  faultState : Option FaultKind
  deriving DecidableEq, Repr

/-- The active framebuffer as rows of pixels. -/
def State.screenRows (s : State) : List (List Bool) :=
  if s.hires then s.fbHi.toList.map fun row => row.toList
  else s.fbLo.toList.map fun row => row.toList

/-- The query (R70). -/
def State.snapshot (s : State) : Snapshot :=
  { V := s.V.toList
    stack := s.stack.toList.take s.SP.val
    SP := s.SP.val
    PC := s.PC
    I := s.I
    DT := s.DT
    ST := s.ST
    screen := s.screenRows
    hires := s.hires
    keys := s.keys.toList
    waitKey := s.waitKey
    quirks := s.quirks
    variant := s.variant
    buzzer := s.buzzer
    flags := s.flags.toList
    halted := s.halted
    faultState := s.faultState }

end Sys2Proof.Machine
end

