-- ==== Sys2Proof/Machine/Step.lean ====
section
/-! DEFINITION. One step of the machine is one cycle (40_cycle.md R130); and how an instruction is
placed where the next step fetches it. -/

namespace Sys2Proof.Machine

/-- One step: `execute_one_cycle()` (R130). The host's other commands are transitions between steps
(`perform`). -/
def step (s : State) : Host.Outcome State Fault Refusal := executeOneCycle s

/-- The state with the instruction of a row of the opcode table stored at `PC`, so that the next step
fetches and runs it: its two bytes in memory, no hold, and SUPERCHIP selected where the instruction
belongs to the extension. It stands for the host's `select_variant` and `load_rom` (assumption
log 7). -/
def State.withFetchWord (s : State) (nbits w : Nat) : State :=
  { s.placeWord (tableWord nbits w) with variant := s.variantFor (decodeTableWord nbits w) }

end Sys2Proof.Machine
end

