-- ==== Sys2Proof/Safety.lean ====
section
/-! DEFINITION. The terms the claims use: the invariant of an engine and its reachable states, what
an instruction leaves unchanged, which instruction may fault and write what, and what a sprite puts
on a pixel. -/

namespace Sys2Proof.Machine

/-! ### The invariant -/

/-- What holds of every engine between two commands. -/
structure State.Inv (s : State) : Prop where
  /-- Memory has its canonical form, with every listed address below `MEM_SIZE`. -/
  memCanonical : s.mem.wf s.resetByte = true
  /-- The fonts fit below 0x200 and do not overlap (00_scope.md R6). -/
  fontsFit : s.fonts.wf = true
  /-- The ROM image has at most `ROM_MAX` bytes (10_state.md R37). -/
  romFits : s.rom.length ≤ Config.romMax
  /-- The inactive framebuffer is all zero (R39). -/
  inactiveBlank : if s.hires then s.fbLo = Framebuffer.blank else s.fbHi = Framebuffer.blank
  /-- While a key is waited for, the engine is neither halted nor in a display hold
  (45_input_timers.md R331). -/
  waitAlone : s.waitKey ≠ .notWaiting → s.halted = false ∧ s.vblankHold = false
  /-- While the display hold lasts, the engine is not halted (40_cycle.md R132). -/
  holdNotHalted : s.vblankHold = true → s.halted = false
  /-- A recorded fault means a halted engine (10_state.md R43). -/
  faultHalts : s.faultState ≠ none → s.halted = true
  /-- `VariantLocked` is never recorded (60_exceptions.md R350). -/
  lockedNotRecorded : s.faultState ≠ some .variantLocked
  /-- CHIP8 has no high-res mode (44_display.md R302). -/
  chip8LowRes : s.variant = .chip8 → s.hires = false
  /-- Before the first cycle nothing holds, and the mode is low-res (10_state.md R44, R60). -/
  freshIdle : s.runStarted = false →
    s.hires = false ∧ s.halted = false ∧ s.waitKey = .notWaiting ∧ s.vblankHold = false

/-- The states an engine can be in: constructed with fonts that fit, then one command after another
(60_exceptions.md R380, 70_reset_and_hazards.md R390). -/
inductive Reachable : State → Prop where
  | constructed (fonts : Fonts) (h : fonts.wf = true) : Reachable (State.construct fonts)
  | command (s t : State) (c : Command) (r : Response) (hs : Reachable s)
      (h : perform c s = .next (t, r)) : Reachable t

/-! ### Frames -/

/-- From `s` to `t` only `PC` and the general registers named changed: every other register, every
flag slot, every byte of memory, every pixel and every other field is as it was. -/
def KeepsAllBut (dests : List Nibble) (s t : State) : Prop :=
  t = { s with V := t.V, PC := t.PC }
    ∧ (∀ r, r ∉ dests → t.readV r = s.readV r)
    ∧ (∀ a, t.readByte a = s.readByte a)

/-- A list of instructions, each executed in the state the one before it left. -/
def execAll : List Instr → State → Outcome
  | [], s => .next s
  | i :: is, s =>
    match exec i s with
    | .next t => execAll is t
    | .fault f => .fault f
    | .refused r => .refused r

/-- The registers V0..Vx. -/
def registersUpTo (x : Nibble) : List Nibble := (List.range (x.toNat + 1)).map (BitVec.ofNat 4)

/-- The general registers an instruction may write: its destination, VF where its rule writes a flag,
V0..Vx for the block loads (R31 and the instruction's rule). -/
def destRegisters : Instr → List Nibble
  | .ldVxKk x _ | .addVxKk x _ | .ldVxVy x _ | .rndVxKk x _ | .ldVxDT x => [x]
  | .orVxVy x _ | .andVxVy x _ | .xorVxVy x _ | .addVxVy x _ | .subVxVy x _ | .shrVxVy x _
  | .subnVxVy x _ | .shlVxVy x _ => [x, 0xF#4]
  | .drwVxVyN _ _ _ | .drwVxVy0 _ _ => [0xF#4]
  | .ldVxMem x | .ldVxR x => registersUpTo x
  | .scd _ | .cls | .ret | .scr | .scl | .exit | .low | .high | .jp _ | .call _ | .seVxKk _ _
  | .sneVxKk _ _ | .seVxVy _ _ | .sneVxVy _ _ | .ldINnn _ | .jpV0Nnn _ | .skpVx _ | .sknpVx _
  | .ldVxK _ | .ldDTVx _ | .ldSTVx _ | .addIVx _ | .ldFVx _ | .ldHFVx _ | .ldBVx _ | .ldMemVx _
  | .ldRVx _ => []

/-- The instructions that set `signal.redraw` (44_display.md R273). -/
def redraws : Instr → Bool
  | .cls | .drwVxVyN _ _ _ | .drwVxVy0 _ _ | .scd _ | .scr | .scl | .low | .high => true
  | .ret | .exit | .jp _ | .call _ | .seVxKk _ _ | .sneVxKk _ _ | .seVxVy _ _ | .ldVxKk _ _
  | .addVxKk _ _ | .ldVxVy _ _ | .orVxVy _ _ | .andVxVy _ _ | .xorVxVy _ _ | .addVxVy _ _
  | .subVxVy _ _ | .shrVxVy _ _ | .subnVxVy _ _ | .shlVxVy _ _ | .sneVxVy _ _ | .ldINnn _
  | .jpV0Nnn _ | .rndVxKk _ _ | .skpVx _ | .sknpVx _ | .ldVxDT _ | .ldVxK _ | .ldDTVx _
  | .ldSTVx _ | .addIVx _ | .ldFVx _ | .ldHFVx _ | .ldBVx _ | .ldMemVx _ | .ldVxMem _ | .ldRVx _
  | .ldVxR _ => false

/-! ### Faults -/

/-- The instruction rows of R351's table: the fault an instruction of the variant raises in a state,
with its `info`; `none` where it raises none. -/
def faultOf (i : Instr) (s : State) : Option (FaultKind × FaultInfo) :=
  match i with
  | .call _ => if s.SP.val = 16 then some (.stackOverflow, .call) else none
  | .ret => if s.SP.val = 0 then some (.stackUnderflow, .ret) else none
  | .drwVxVyN _ _ n =>
    if 0 < n.toNat ∧ s.I.toNat + n.toNat - 1 ≥ Config.memSize then
      some (.outOfBoundsAccess, .address (s.I.toNat + n.toNat - 1))
    else none
  | .drwVxVy0 _ _ =>
    if s.I.toNat + 31 ≥ Config.memSize then some (.outOfBoundsAccess, .address (s.I.toNat + 31))
    else none
  | .ldBVx _ =>
    if s.I.toNat + 2 ≥ Config.memSize then some (.outOfBoundsAccess, .address (s.I.toNat + 2))
    else none
  | .ldMemVx x | .ldVxMem x =>
    if s.I.toNat + x.toNat ≥ Config.memSize then
      some (.outOfBoundsAccess, .address (s.I.toNat + x.toNat))
    else none
  | .skpVx x => if (s.readV x).toNat > 0xF then some (.unmodelled, .skpKey) else none
  | .sknpVx x => if (s.readV x).toNat > 0xF then some (.unmodelled, .sknpKey) else none
  | .ldFVx x => if (s.readV x).toNat > 0xF then some (.unmodelled, .smallDigit) else none
  | .ldHFVx x => if (s.readV x).toNat > 9 then some (.unmodelled, .bigDigit) else none
  | .scd _ | .cls | .scr | .scl | .exit | .low | .high | .jp _ | .seVxKk _ _ | .sneVxKk _ _
  | .seVxVy _ _ | .ldVxKk _ _ | .addVxKk _ _ | .ldVxVy _ _ | .orVxVy _ _ | .andVxVy _ _
  | .xorVxVy _ _ | .addVxVy _ _ | .subVxVy _ _ | .shrVxVy _ _ | .subnVxVy _ _ | .shlVxVy _ _
  | .sneVxVy _ _ | .ldINnn _ | .jpV0Nnn _ | .rndVxKk _ _ | .ldVxDT _ | .ldVxK _ | .ldDTVx _
  | .ldSTVx _ | .addIVx _ | .ldRVx _ | .ldVxR _ => none

/-- A halted state entered by a fault (40_cycle.md R140): nothing of `s` changed but the run-control
fields and the signals. -/
def haltedBy (s : State) (kind : FaultKind) (info : FaultInfo) : State :=
  { s with
    runStarted := true
    halted := true
    faultState := some kind
    faultInfo := some info
    signal := { redraw := false, halted := true, fault := some kind } }

/-! ### Sprites -/

/-- Whether a sprite drawn with its origin at `(ox, oy)` has a 1 for the pixel `(px, py)` of a screen
of `w` by `h` (44_display.md R281, R282): the sprite's column is the distance from the origin, under
`clipping` to the right and downward only, without it around the edges. `bit r c` is the sprite's
pixel in row `r` and column `c`. -/
def spriteOn (clipping : Bool) (w h ox oy rows columns : Nat) (bit : Nat → Nat → Bool)
    (px py : Nat) : Bool :=
  if clipping then
    decide (ox ≤ px) && decide (oy ≤ py) && decide (px - ox < columns) && decide (py - oy < rows)
      && bit (py - oy) (px - ox)
  else
    decide ((px + w - ox) % w < columns) && decide ((py + h - oy) % h < rows)
      && bit ((py + h - oy) % h) ((px + w - ox) % w)

/-- The pixels of an 8-pixel-wide sprite at `I`: bit 7 of the byte of its row is the leftmost (R281). -/
def spriteBit8 (s : State) (r c : Nat) : Bool := (s.readByte (s.I.toNat + r)).getLsbD (7 - c)

/-- The pixels of a 16-pixel-wide sprite at `I`: the left 8 from the first byte of the row, the right
8 from the second (R281). -/
def spriteBit16 (s : State) (r c : Nat) : Bool :=
  if c < 8 then (s.readByte (s.I.toNat + 2 * r)).getLsbD (7 - c)
  else (s.readByte (s.I.toNat + 2 * r + 1)).getLsbD (15 - c)

/-- The pixels of a draw of R285 or R286 on the active buffer, the collision flag, the redraw signal
and the display hold; everything else is unchanged. `on px py` says which pixels the sprite has a 1
for. -/
def Drawn (on : Nat → Nat → Bool) (s t : State) : Prop :=
  (∀ px py, px < s.width → py < s.height → t.pixel px py = xor (s.pixel px py) (on px py))
    ∧ (if s.hires then t.fbLo = s.fbLo else t.fbHi = s.fbHi)
    ∧ ((∃ px py, px < s.width ∧ py < s.height ∧ s.pixel px py = true ∧ on px py = true) →
        t.readV 0xF#4 = 1#8)
    ∧ ((∀ px py, px < s.width → py < s.height → on px py = true → s.pixel px py = false) →
        t.readV 0xF#4 = 0#8)
    ∧ t.signal = { s.signal with redraw := true }
    ∧ t.vblankHold = (s.quirks.displayWait || s.vblankHold)
    ∧ t.PC = s.PC + 2#16
    ∧ (∀ r, r ≠ 0xF#4 → t.readV r = s.readV r)
    ∧ (∀ a, t.readByte a = s.readByte a)
    ∧ t = { s with
        V := t.V, PC := t.PC, fbLo := t.fbLo, fbHi := t.fbHi, signal := t.signal,
        vblankHold := t.vblankHold }

end Sys2Proof.Machine
end

