-- ==== Sys2Proof/Certificates/Slice0/Obligations.lean ====
section
/-! DEFINITION. The statements for the provers. Each docstring names the rules of spec/ it formalises;
where a rule bears a mark of the spec ("decision", "general knowledge") or a clause rests on the
model's own choice, the docstring names it. -/

open Sys2Proof Sys2Proof.Machine

/-! ### Encoding (30_encoding.md) -/

/-- Encoding then decoding gives the instruction back, for every instruction of a variant and every
value of its operands (R103, R104). -/
def Obligations.EncodeThenDecode : Prop :=
  ∀ (v : Variant) (i : Instr), i.wellFormed v = true → decode v (encode i) = .instr i

/-- Decoding then encoding gives the word back, and only instructions of the variant are decoded: no
word has two readings and no bit of it is ignored (R103, R111, R113). -/
def Obligations.DecodeThenEncode : Prop :=
  ∀ (v : Variant) (w : Word16) (i : Instr),
    decode v w = .instr i → i.wellFormed v = true ∧ encode i = w

/-- The decoder follows the opcode map: what it decodes matches its row of R104, a word of no row is
illegal (R112), and `Fx75`, `Fx85` with `x > 7` are illegal (R112 (f), decision D37). -/
def Obligations.DecodeFollowsOpcodeMap : Prop :=
  (∀ (v : Variant) (w : Word16) (i : Instr), decode v w = .instr i →
      ∃ r ∈ opcodeMap, r.mnemonic = i.mnemonic ∧ r.existsIn v = true ∧ r.matchesWord w = true)
    ∧ (∀ (v : Variant) (w : Word16),
        (∀ r ∈ opcodeMap, r.existsIn v = true → r.matchesWord w = false) →
          decode v w = .illegal w)
    ∧ (∀ (v : Variant) (x : Nibble), 7 < x.toNat →
        decode v (wordXKk 0xF#4 x 0x75#8) = .illegal (wordXKk 0xF#4 x 0x75#8)
          ∧ decode v (wordXKk 0xF#4 x 0x85#8) = .illegal (wordXKk 0xF#4 x 0x85#8))

/-- No word matches two rows of the opcode map but the words `Dxy0`, which under SUPERCHIP are the
16x16 draw and under CHIP8 the draw of no rows (R111, R113); and the map has 44 rows, 34 of them
CHIP8's (R105). -/
def Obligations.RowsOverlapOnlyAtDxy0 : Prop :=
  (∀ r ∈ opcodeMap, ∀ r' ∈ opcodeMap, ∀ w : Word16,
      r.matchesWord w = true → r'.matchesWord w = true →
        r = r' ∨ (r.pattern = 0xD000#16 ∧ r'.pattern = 0xD000#16))
    ∧ (∀ x y : Nibble, decode .superchip (wordXYN 0xD#4 x y 0x0#4) = .instr (.drwVxVy0 x y)
        ∧ decode .chip8 (wordXYN 0xD#4 x y 0x0#4) = .instr (.drwVxVyN x y 0x0#4))
    ∧ opcodeMap.length = 44
    ∧ (opcodeMap.filter fun r => r.existsIn .chip8).length = 34

/-- Words written out from the spec's examples decode to the instruction they stand for: `6A2C`
(R160), `8124` (R166), `B2F0` (R207), `2210` (R202), `F255` (R246), `D120` under both variants (R286,
R287), `00C3` (R290), `E19E` (R325), `F375` (R250); and `0123` (R112 (a)), `00FD` under CHIP8 (R111),
`F875` (R112 (f)) are illegal. -/
def Obligations.SpelledWordsDecode : Prop :=
  decode .chip8 0x6A2C#16 = .instr (.ldVxKk 0xA#4 0x2C#8)
    ∧ decode .chip8 0x8124#16 = .instr (.addVxVy 0x1#4 0x2#4)
    ∧ decode .chip8 0xB2F0#16 = .instr (.jpV0Nnn 0x2F0#12)
    ∧ decode .chip8 0x2210#16 = .instr (.call 0x210#12)
    ∧ decode .chip8 0xF255#16 = .instr (.ldMemVx 0x2#4)
    ∧ decode .superchip 0xD120#16 = .instr (.drwVxVy0 0x1#4 0x2#4)
    ∧ decode .chip8 0xD120#16 = .instr (.drwVxVyN 0x1#4 0x2#4 0x0#4)
    ∧ decode .superchip 0x00C3#16 = .instr (.scd 0x3#4)
    ∧ decode .chip8 0xE19E#16 = .instr (.skpVx 0x1#4)
    ∧ decode .superchip 0xF375#16 = .instr (.ldRVx 0x3#4)
    ∧ decode .chip8 0x0123#16 = .illegal 0x0123#16
    ∧ decode .chip8 0x00FD#16 = .illegal 0x00FD#16
    ∧ decode .superchip 0xF875#16 = .illegal 0xF875#16

/-! ### The cycle (40_cycle.md) -/

/-- A step runs the decoded instruction (R130, R134, R136): when no hold applies and `PC` is even and
in bounds, and the two bytes at `PC`, the high one first (20_memory.md R83), decode to `i`, the step
is `exec i` of the state with `run_started` set and the signals quiet. -/
def Obligations.StepRunsDecodedInstruction : Prop :=
  ∀ (s : State) (i : Instr),
    s.halted = false → s.waitKey = .notWaiting → s.vblankHold = false →
    s.PC.toNat % 2 = 0 → s.PC.toNat + 1 < Config.memSize →
    decode s.variant (wordOfBytes (s.readByte s.PC.toNat) (s.readByte (s.PC.toNat + 1)))
      = .instr i →
    step s = exec i
      { s with runStarted := true, signal := { redraw := false, halted := false, fault := none } }

/-- A cycle that cannot fetch or decode faults, with `PC` where it was and nothing else changed: an
odd `PC` (R134, decision D2), `PC + 1` past memory (R134), an illegal word (R136); checked in this
order (60_exceptions.md R355). -/
def Obligations.FetchAndDecodeFaults : Prop :=
  ∀ s : State, s.halted = false → s.waitKey = .notWaiting → s.vblankHold = false →
    (s.PC.toNat % 2 = 1 → step s = .next (haltedBy s .outOfBoundsAccess .pcMisaligned))
    ∧ (s.PC.toNat % 2 = 0 → s.PC.toNat + 1 ≥ Config.memSize →
        step s = .next (haltedBy s .outOfBoundsAccess .pcBounds))
    ∧ (∀ w : Word16, s.PC.toNat % 2 = 0 → s.PC.toNat + 1 < Config.memSize →
        decode s.variant (wordOfBytes (s.readByte s.PC.toNat) (s.readByte (s.PC.toNat + 1)))
          = .illegal w →
        step s = .next (haltedBy s .illegalInstruction (.word w)))

/-- A held cycle executes nothing and changes no state but `run_started`; its signals say whether the
engine is halted (R132 (a), (b), (c); the display hold is decision D15). -/
def Obligations.HeldCycleChangesNothing : Prop :=
  ∀ s : State,
    (s.halted = true →
      step s = .next { s with
        runStarted := true, signal := { redraw := false, halted := true, fault := none } })
    ∧ (s.halted = false → s.waitKey ≠ .notWaiting →
      step s = .next { s with
        runStarted := true, signal := { redraw := false, halted := false, fault := none } })
    ∧ (s.halted = false → s.waitKey = .notWaiting → s.vblankHold = true →
      step s = .next { s with
        runStarted := true, signal := { redraw := false, halted := false, fault := none } })

/-- No number of cycles ends a hold: a halted engine stays halted until reset (R141,
60_exceptions.md R353), a key wait lasts until the host reports a release (70_reset_and_hazards.md
R403), a display hold until the host's tick (R402). -/
def Obligations.HoldsLastForever : Prop :=
  ∀ (n : Nat) (s : State),
    (s.halted = true →
      Host.Core.run Sys2Proof.core (n + 1) s = .next { s with
        runStarted := true, signal := { redraw := false, halted := true, fault := none } })
    ∧ (s.halted = false → s.waitKey ≠ .notWaiting ∨ s.vblankHold = true →
      Host.Core.run Sys2Proof.core (n + 1) s = .next { s with
        runStarted := true, signal := { redraw := false, halted := false, fault := none } })

/-- Every cycle, and every instruction in every state, answers a next state: what the spec calls a
fault is a next state that is halted (R140, 60_exceptions.md R352; assumption log 1), and no
instruction is refused. -/
def Obligations.EveryCycleAnswersNext : Prop :=
  (∀ s : State, ∃ t, step s = .next t) ∧ (∀ (i : Instr) (s : State), ∃ t, exec i s = .next t)

/-- Fault commit (R140): a cycle that reports a fault discarded every write; only `run_started`,
`halted`, `fault_state` (with the diagnostic `info`) and the signals differ from the start of the
cycle. `PC` is at the faulting instruction. -/
def Obligations.FaultCommitsNothing : Prop :=
  ∀ (s t : State) (k : FaultKind), step s = .next t → t.signal.fault = some k →
    ∃ info, t = haltedBy s k info

/-- An instruction faults exactly in the cases of R351's table, and then its next state is the fault's
entry; in every other case it completes, records no fault, and halts only if it is `EXIT`. -/
def Obligations.InstructionsFaultAsTabled : Prop :=
  ∀ (i : Instr) (s : State), i.wellFormed s.variant = true →
    (∀ k info, faultOf i s = some (k, info) → exec i s = .next (haltedBy s k info))
    ∧ (faultOf i s = none → ∃ t, exec i s = .next t
        ∧ t.faultState = s.faultState ∧ t.faultInfo = s.faultInfo
        ∧ t.signal.fault = s.signal.fault ∧ t.runStarted = s.runStarted
        ∧ t.halted = (s.halted || i == .exit))

/-! ### Loads, arithmetic, logic, shifts, random (41_alu.md) -/

/-- `6xkk`, `7xkk`, `8xy0` (R160, R161, R162): the destination's new value; no flag, no other
register. -/
def Obligations.LoadsAndAddImmediate : Prop :=
  ∀ (s : State) (x y : Nibble) (kk : Byte),
    (∃ t, exec (.ldVxKk x kk) s = .next t ∧ t.readV x = kk
      ∧ t.PC = s.PC + 2#16 ∧ KeepsAllBut [x] s t)
    ∧ (∃ t, exec (.addVxKk x kk) s = .next t
      ∧ (t.readV x).toNat = ((s.readV x).toNat + kk.toNat) % 256
      ∧ t.PC = s.PC + 2#16 ∧ KeepsAllBut [x] s t)
    ∧ (∃ t, exec (.ldVxVy x y) s = .next t ∧ t.readV x = s.readV y
      ∧ t.PC = s.PC + 2#16 ∧ KeepsAllBut [x] s t)

/-- `8xy4` (R166): the sum modulo 256, and in VF the carry, written last (R176, decision D22). -/
def Obligations.AddSetsCarry : Prop :=
  ∀ (s : State) (x y : Nibble), ∃ t, exec (.addVxVy x y) s = .next t
    ∧ (x ≠ 0xF#4 → (t.readV x).toNat = ((s.readV x).toNat + (s.readV y).toNat) % 256)
    ∧ (t.readV 0xF#4).toNat = (if (s.readV x).toNat + (s.readV y).toNat > 255 then 1 else 0)
    ∧ t.PC = s.PC + 2#16 ∧ KeepsAllBut [x, 0xF#4] s t

/-- `8xy5` and `8xy7` (R167, R169): the difference modulo 256, and in VF 1 for no borrow, written last
(R176, decision D22). -/
def Obligations.SubtractSetsNotBorrow : Prop :=
  ∀ (s : State) (x y : Nibble),
    (∃ t, exec (.subVxVy x y) s = .next t
      ∧ (x ≠ 0xF#4 → (t.readV x).toNat = ((s.readV x).toNat + 256 - (s.readV y).toNat) % 256)
      ∧ (t.readV 0xF#4).toNat = (if (s.readV x).toNat ≥ (s.readV y).toNat then 1 else 0)
      ∧ t.PC = s.PC + 2#16 ∧ KeepsAllBut [x, 0xF#4] s t)
    ∧ (∃ t, exec (.subnVxVy x y) s = .next t
      ∧ (x ≠ 0xF#4 → (t.readV x).toNat = ((s.readV y).toNat + 256 - (s.readV x).toNat) % 256)
      ∧ (t.readV 0xF#4).toNat = (if (s.readV y).toNat ≥ (s.readV x).toNat then 1 else 0)
      ∧ t.PC = s.PC + 2#16 ∧ KeepsAllBut [x, 0xF#4] s t)

/-- `8xy1`, `8xy2`, `8xy3` (R163, R164, R165): the result, and VF set to 0 exactly when the quirk
`vf_reset` is 1, also when the destination is VF. -/
def Obligations.LogicFollowsVfReset : Prop :=
  ∀ (s : State) (x y : Nibble) (i : Instr) (f : Byte → Byte → Byte),
    (i = .orVxVy x y ∧ f = (fun a b => a ||| b)
      ∨ i = .andVxVy x y ∧ f = (fun a b => a &&& b)
      ∨ i = .xorVxVy x y ∧ f = (fun a b => a ^^^ b)) →
    ∃ t, exec i s = .next t
      ∧ (s.quirks.vfReset = true →
          t.readV 0xF#4 = 0#8 ∧ (x ≠ 0xF#4 → t.readV x = f (s.readV x) (s.readV y))
            ∧ KeepsAllBut [x, 0xF#4] s t)
      ∧ (s.quirks.vfReset = false →
          t.readV x = f (s.readV x) (s.readV y) ∧ KeepsAllBut [x] s t)
      ∧ t.PC = s.PC + 2#16

/-- `8xy6` and `8xyE` (R168, R170): Vx shifted in place under the quirk `shifting`, Vy shifted into Vx
without it, and in VF the bit moved out, written last (decisions D21, D22). -/
def Obligations.ShiftsFollowQuirk : Prop :=
  ∀ (s : State) (x y : Nibble) (src : Byte),
    src = (if s.quirks.shifting then s.readV x else s.readV y) →
    (∃ t, exec (.shrVxVy x y) s = .next t
      ∧ (x ≠ 0xF#4 → (t.readV x).toNat = src.toNat / 2)
      ∧ (t.readV 0xF#4).toNat = src.toNat % 2
      ∧ t.PC = s.PC + 2#16 ∧ KeepsAllBut [x, 0xF#4] s t)
    ∧ (∃ t, exec (.shlVxVy x y) s = .next t
      ∧ (x ≠ 0xF#4 → (t.readV x).toNat = src.toNat * 2 % 256)
      ∧ (t.readV 0xF#4).toNat = src.toNat / 128
      ∧ t.PC = s.PC + 2#16 ∧ KeepsAllBut [x, 0xF#4] s t)

/-- `Cxkk` (R171): a random byte, the free value `Config.rand` at the number of bytes drawn so far
(assumption log 4: the counter is the model's own), under the mask `kk`; no flag. It holds for every
value the free byte may have. -/
def Obligations.RandomByteIsMasked : Prop :=
  ∀ (s : State) (x : Nibble) (kk : Byte), ∃ t, exec (.rndVxKk x kk) s = .next t
    ∧ t.readV x = Config.rand s.draws &&& kk
    ∧ (kk = 0#8 → t.readV x = 0#8)
    ∧ t.draws = s.draws + 1
    ∧ t.PC = s.PC + 2#16
    ∧ (∀ r, r ≠ x → t.readV r = s.readV r)
    ∧ (∀ a, t.readByte a = s.readByte a)
    ∧ t = { s with V := t.V, PC := t.PC, draws := t.draws }

/-! ### Control transfer (42_control.md) -/

/-- `1nnn` and `Bnnn` (R201, R207): the target, unchecked (R212, decision D46); `Bnnn` adds V0, or the
register named by the top nibble of `nnn` under the quirk `jumping`, and never wraps. -/
def Obligations.JumpsSetPC : Prop :=
  ∀ (s : State) (nnn : Addr12),
    (∃ t, exec (.jp nnn) s = .next t ∧ t.PC.toNat = nnn.toNat ∧ t = { s with PC := t.PC })
    ∧ (∃ t, exec (.jpV0Nnn nnn) s = .next t
      ∧ t.PC.toNat = nnn.toNat
          + (s.readV (if s.quirks.jumping then BitVec.ofNat 4 (nnn.toNat / 256) else 0#4)).toNat
      ∧ t = { s with PC := t.PC })

/-- `2nnn` (R202): with fewer than 16 live entries the address after the call is pushed and `PC` is
the target; with 16 it faults with `StackOverflow`. -/
def Obligations.CallPushesReturnAddress : Prop :=
  ∀ (s : State) (nnn : Addr12),
    (s.SP.val < 16 → ∃ t, exec (.call nnn) s = .next t
      ∧ t.SP.val = s.SP.val + 1
      ∧ t.stack[s.SP.val]? = some (s.PC + 2#16)
      ∧ (∀ j, j ≠ s.SP.val → t.stack[j]? = s.stack[j]?)
      ∧ t.PC.toNat = nnn.toNat
      ∧ (∀ a, t.readByte a = s.readByte a)
      ∧ t = { s with SP := t.SP, stack := t.stack, PC := t.PC })
    ∧ (s.SP.val = 16 → exec (.call nnn) s = .next (haltedBy s .stackOverflow .call))

/-- `00EE` (R200): with a live entry the top is popped into `PC`, and not cleared; with none it faults
with `StackUnderflow`. -/
def Obligations.ReturnPopsReturnAddress : Prop :=
  ∀ s : State,
    (0 < s.SP.val → ∃ t, exec .ret s = .next t
      ∧ t.SP.val = s.SP.val - 1
      ∧ s.stack[s.SP.val - 1]? = some t.PC
      ∧ (∀ a, t.readByte a = s.readByte a)
      ∧ t = { s with SP := t.SP, PC := t.PC })
    ∧ (s.SP.val = 0 → exec .ret s = .next (haltedBy s .stackUnderflow .ret))

/-- A call and the return that follows it (R200, R202): the program goes on after the call with the
stack as deep as before, every live entry unchanged. -/
def Obligations.ReturnUndoesCall : Prop :=
  ∀ (s : State) (nnn : Addr12), s.SP.val < 16 →
    ∃ t u, exec (.call nnn) s = .next t ∧ exec .ret t = .next u
      ∧ u = { s with PC := s.PC + 2#16, stack := u.stack }
      ∧ (∀ j, j < s.SP.val → u.stack[j]? = s.stack[j]?)

/-- Calls without a return fill the stack (95_test_vectors.md L1.4): after as many calls as bring it
to 16 entries, the next call, to any target, faults with `StackOverflow`, with the registers and
memory of the start (R202, R140). -/
def Obligations.SeventeenthCallOverflows : Prop :=
  ∀ (s : State) (targets : List Addr12) (last : Addr12), s.SP.val + targets.length = 16 →
    ∃ t, execAll (targets.map Instr.call) s = .next t
      ∧ t.SP.val = 16
      ∧ t = { s with SP := t.SP, stack := t.stack, PC := t.PC }
      ∧ exec (.call last) t = .next (haltedBy t .stackOverflow .call)

/-- `3xkk`, `4xkk`, `5xy0`, `9xy0` (R203 to R206): `PC` is past the next instruction when the condition
holds (R211, the skip distance of which is general knowledge G12), after this one when it does not;
nothing else changes. -/
def Obligations.SkipsFollowCondition : Prop :=
  ∀ (s : State) (x y : Nibble) (kk : Byte),
    exec (.seVxKk x kk) s
        = .next { s with PC := if s.readV x = kk then s.PC + 4#16 else s.PC + 2#16 }
      ∧ exec (.sneVxKk x kk) s
        = .next { s with PC := if s.readV x ≠ kk then s.PC + 4#16 else s.PC + 2#16 }
      ∧ exec (.seVxVy x y) s
        = .next { s with PC := if s.readV x = s.readV y then s.PC + 4#16 else s.PC + 2#16 }
      ∧ exec (.sneVxVy x y) s
        = .next { s with PC := if s.readV x ≠ s.readV y then s.PC + 4#16 else s.PC + 2#16 }

/-- `00FD` (R210): the engine is halted with no fault and `PC` after the instruction; the signal says
so. -/
def Obligations.ExitHaltsWithoutFault : Prop :=
  ∀ s : State, s.variant = .superchip →
    exec .exit s = .next { s with
      PC := s.PC + 2#16, halted := true, signal := { s.signal with halted := true } }

/-! ### Index register, memory, persistent flags (43_memory_ops.md) -/

/-- `Annn` and `Fx1E` (R240, R241): I, modulo 65536; VF is not written (decision D25). -/
def Obligations.IndexRegisterOps : Prop :=
  ∀ (s : State) (x : Nibble) (nnn : Addr12),
    (∃ t, exec (.ldINnn nnn) s = .next t ∧ t.I.toNat = nnn.toNat ∧ t.PC = s.PC + 2#16
      ∧ t = { s with I := t.I, PC := t.PC })
    ∧ (∃ t, exec (.addIVx x) s = .next t
      ∧ t.I.toNat = (s.I.toNat + (s.readV x).toNat) % 65536 ∧ t.PC = s.PC + 2#16
      ∧ t = { s with I := t.I, PC := t.PC })

/-- `Fx29` and `Fx30` (R242, R243): the glyph's address, whatever the font parameters; for a digit the
font lacks, the fault `Unmodelled` (decision D24). -/
def Obligations.FontAddresses : Prop :=
  ∀ (s : State) (x : Nibble), s.fonts.wf = true →
    ((s.readV x).toNat ≤ 0xF → ∃ t, exec (.ldFVx x) s = .next t
      ∧ t.I.toNat = s.fonts.smallBase + 5 * (s.readV x).toNat ∧ t.PC = s.PC + 2#16
      ∧ t = { s with I := t.I, PC := t.PC })
    ∧ ((s.readV x).toNat > 0xF → exec (.ldFVx x) s = .next (haltedBy s .unmodelled .smallDigit))
    ∧ (s.variant = .superchip → (s.readV x).toNat ≤ 9 → ∃ t, exec (.ldHFVx x) s = .next t
      ∧ t.I.toNat = s.fonts.bigBase + 10 * (s.readV x).toNat ∧ t.PC = s.PC + 2#16
      ∧ t = { s with I := t.I, PC := t.PC })
    ∧ (s.variant = .superchip → (s.readV x).toNat > 9 →
      exec (.ldHFVx x) s = .next (haltedBy s .unmodelled .bigDigit))

/-- `Fx33` (R245): the hundreds, tens and ones of Vx at I, I + 1, I + 2; every other byte and every
register unchanged; with one of the three addresses past memory, the fault, and no byte written. -/
def Obligations.BcdStoresDigits : Prop :=
  ∀ (s : State) (x : Nibble), s.mem.wf s.resetByte = true →
    (s.I.toNat + 2 < Config.memSize → ∃ t, exec (.ldBVx x) s = .next t
      ∧ (t.readByte s.I.toNat).toNat = (s.readV x).toNat / 100
      ∧ (t.readByte (s.I.toNat + 1)).toNat = (s.readV x).toNat / 10 % 10
      ∧ (t.readByte (s.I.toNat + 2)).toNat = (s.readV x).toNat % 10
      ∧ (∀ a, a < s.I.toNat ∨ s.I.toNat + 2 < a → t.readByte a = s.readByte a)
      ∧ t.PC = s.PC + 2#16 ∧ t = { s with mem := t.mem, PC := t.PC })
    ∧ (s.I.toNat + 2 ≥ Config.memSize →
      exec (.ldBVx x) s = .next (haltedBy s .outOfBoundsAccess (.address (s.I.toNat + 2))))

/-- `Fx55` (R246): V0..Vx at I..I + x, every other byte and every general register unchanged, and I
advanced past them under the quirk `memory_increment`; with an address past memory, the fault, and no
byte written. -/
def Obligations.StoreRegisters : Prop :=
  ∀ (s : State) (x : Nibble), s.mem.wf s.resetByte = true →
    (s.I.toNat + x.toNat < Config.memSize → ∃ t, exec (.ldMemVx x) s = .next t
      ∧ (∀ r : Nibble, r.toNat ≤ x.toNat → t.readByte (s.I.toNat + r.toNat) = s.readV r)
      ∧ (∀ a, a < s.I.toNat ∨ s.I.toNat + x.toNat < a → t.readByte a = s.readByte a)
      ∧ t.I.toNat = (if s.quirks.memoryIncrement then s.I.toNat + x.toNat + 1 else s.I.toNat)
      ∧ t.PC = s.PC + 2#16 ∧ t = { s with mem := t.mem, I := t.I, PC := t.PC })
    ∧ (s.I.toNat + x.toNat ≥ Config.memSize →
      exec (.ldMemVx x) s
        = .next (haltedBy s .outOfBoundsAccess (.address (s.I.toNat + x.toNat))))

/-- `Fx65` (R247): V0..Vx from I..I + x, every other register and all memory unchanged, and I advanced
under the quirk `memory_increment`; with an address past memory, the fault, and no register
written. -/
def Obligations.LoadRegisters : Prop :=
  ∀ (s : State) (x : Nibble),
    (s.I.toNat + x.toNat < Config.memSize → ∃ t, exec (.ldVxMem x) s = .next t
      ∧ (∀ r : Nibble, r.toNat ≤ x.toNat → t.readV r = s.readByte (s.I.toNat + r.toNat))
      ∧ (∀ r : Nibble, x.toNat < r.toNat → t.readV r = s.readV r)
      ∧ (∀ a, t.readByte a = s.readByte a)
      ∧ t.I.toNat = (if s.quirks.memoryIncrement then s.I.toNat + x.toNat + 1 else s.I.toNat)
      ∧ t.PC = s.PC + 2#16 ∧ t = { s with V := t.V, I := t.I, PC := t.PC })
    ∧ (s.I.toNat + x.toNat ≥ Config.memSize →
      exec (.ldVxMem x) s
        = .next (haltedBy s .outOfBoundsAccess (.address (s.I.toNat + x.toNat))))

/-- What `Fx55` stored, `Fx65` loads back: with `memory_increment` 0, a store, any loss of the general
registers, and a load from the same I restore V0..Vx (R246, R247). -/
def Obligations.LoadRestoresStoredRegisters : Prop :=
  ∀ (s : State) (x : Nibble) (lost : Vector Byte 16), s.mem.wf s.resetByte = true →
    s.I.toNat + x.toNat < Config.memSize → s.quirks.memoryIncrement = false →
    ∃ t u, exec (.ldMemVx x) s = .next t ∧ exec (.ldVxMem x) { t with V := lost } = .next u
      ∧ (∀ r : Nibble, r.toNat ≤ x.toNat → u.readV r = s.readV r)

/-- A program executes what it stored (20_memory.md R92, decision D41): after `Fx55` wrote V0 and V1
over the word the next cycle fetches, that cycle runs the instruction they encode. -/
def Obligations.StoredWordIsExecuted : Prop :=
  ∀ (s : State) (x : Nibble) (i : Instr), s.mem.wf s.resetByte = true →
    1 ≤ x.toNat → s.I = s.PC + 2#16 → s.I.toNat + x.toNat < Config.memSize →
    s.I.toNat % 2 = 0 → s.halted = false → s.waitKey = .notWaiting → s.vblankHold = false →
    decode s.variant (wordOfBytes (s.readV 0x0#4) (s.readV 0x1#4)) = .instr i →
    ∃ t, exec (.ldMemVx x) s = .next t ∧ step t = exec i t.startCycle

/-- `Fx75` and `Fx85` for `x` in 0..7 (R250, R252): flags[0..x] from V0..Vx, and back; the other slots
and the other registers unchanged. With `x > 7` they are illegal (30_encoding.md R112 (f), decision
D37). -/
def Obligations.FlagsSaveAndLoad : Prop :=
  ∀ (s : State) (x : Nibble), s.variant = .superchip →
    (x.toNat ≤ 7 →
      (∃ t, exec (.ldRVx x) s = .next t
        ∧ (∀ r : Nibble, r.toNat ≤ x.toNat → t.flags[r.toNat]? = some (s.readV r))
        ∧ (∀ j, x.toNat < j → t.flags[j]? = s.flags[j]?)
        ∧ t.PC = s.PC + 2#16 ∧ t = { s with flags := t.flags, PC := t.PC })
      ∧ (∃ t, exec (.ldVxR x) s = .next t
        ∧ (∀ r : Nibble, r.toNat ≤ x.toNat → s.flags[r.toNat]? = some (t.readV r))
        ∧ t.PC = s.PC + 2#16 ∧ KeepsAllBut (registersUpTo x) s t))
    ∧ (x.toNat > 7 →
      exec (.ldRVx x) s
          = .next (haltedBy s .illegalInstruction (.word (encode (.ldRVx x))))
        ∧ exec (.ldVxR x) s
          = .next (haltedBy s .illegalInstruction (.word (encode (.ldVxR x)))))

/-- The canonical form is one: two memories in it that read alike at every address are equal (the
model's own representation of `mem`, assumption log 3). -/
def Obligations.CanonicalMemoryIsUnique : Prop :=
  ∀ (base : Nat → Byte) (m m' : Memory), m.wf base = true → m'.wf base = true →
    (∀ a, a < Config.memSize → m.read base a = m'.read base a) → m = m'

/-! ### Display (44_display.md) -/

/-- `00E0` (R272): every pixel of the active buffer 0, the other buffer and VF and everything else
unchanged, and the redraw signal (R273, decision D34). -/
def Obligations.ClearScreen : Prop :=
  ∀ s : State, ∃ t, exec .cls s = .next t
    ∧ (∀ px py, t.pixel px py = false)
    ∧ (if s.hires then t.fbLo = s.fbLo else t.fbHi = s.fbHi)
    ∧ t.signal = { s.signal with redraw := true } ∧ t.PC = s.PC + 2#16
    ∧ t = { s with PC := t.PC, fbLo := t.fbLo, fbHi := t.fbHi, signal := t.signal }

/-- `00Cn`, `00FB`, `00FC` (R290, R291, R292; distances in pixels of the active buffer, decision D33):
the active buffer moved, the vacated pixels 0, the other buffer and everything else unchanged, and
the redraw signal. -/
def Obligations.ScrollsMoveActiveBuffer : Prop :=
  ∀ (s : State) (n : Nibble) (i : Instr) (moved : Nat → Nat → Bool), s.variant = .superchip →
    (i = .scd n ∧ moved = (fun px py => if py ≥ n.toNat then s.pixel px (py - n.toNat) else false)
      ∨ i = .scr ∧ moved = (fun px py => if px ≥ 4 then s.pixel (px - 4) py else false)
      ∨ i = .scl ∧ moved = (fun px py => if px + 4 < s.width then s.pixel (px + 4) py else false)) →
    ∃ t, exec i s = .next t
      ∧ (∀ px py, px < s.width → py < s.height → t.pixel px py = moved px py)
      ∧ (if s.hires then t.fbLo = s.fbLo else t.fbHi = s.fbHi)
      ∧ t.signal = { s.signal with redraw := true } ∧ t.PC = s.PC + 2#16
      ∧ t = { s with PC := t.PC, fbLo := t.fbLo, fbHi := t.fbHi, signal := t.signal }

/-- `00FE` and `00FF` (R300, R301, R302): the resolution, both buffers cleared, also when the mode was
already the new one (decision D32), and the redraw signal. -/
def Obligations.ModeSwitchClearsBoth : Prop :=
  ∀ (s : State) (i : Instr) (b : Bool), s.variant = .superchip →
    (i = .low ∧ b = false ∨ i = .high ∧ b = true) →
    ∃ t, exec i s = .next t
      ∧ t.hires = b
      ∧ (∀ px py, t.fbLo.pixel px py = false) ∧ (∀ px py, t.fbHi.pixel px py = false)
      ∧ t.width = (if b then 128 else 64) ∧ t.height = (if b then 64 else 32)
      ∧ t.signal = { s.signal with redraw := true } ∧ t.PC = s.PC + 2#16
      ∧ t = { s with
          PC := t.PC, hires := t.hires, fbLo := t.fbLo, fbHi := t.fbHi, signal := t.signal }

/-- `Dxyn` (R280 to R285, and R287 for `n = 0`): the sprite of `n` bytes at I is exclusive-ored into
the active buffer from the origin `(V[x] mod W, V[y] mod H)`, clipped or wrapped by the quirk
(decision D16); VF says whether a lit pixel was hit (decision D17); a byte past memory is a fault
before any pixel changes (decision D20); the hold follows the quirk (decision D15). -/
def Obligations.DrawsEightWideSprite : Prop :=
  ∀ (s : State) (x y n : Nibble),
    (n.toNat = 0 ∨ s.I.toNat + n.toNat - 1 < Config.memSize →
      ∃ t, exec (.drwVxVyN x y n) s = .next t
        ∧ Drawn (spriteOn s.quirks.clipping s.width s.height ((s.readV x).toNat % s.width)
            ((s.readV y).toNat % s.height) n.toNat 8 (spriteBit8 s)) s t)
    ∧ (n.toNat ≠ 0 → s.I.toNat + n.toNat - 1 ≥ Config.memSize →
      exec (.drwVxVyN x y n) s
        = .next (haltedBy s .outOfBoundsAccess (.address (s.I.toNat + n.toNat - 1))))

/-- `Dxy0` under SUPERCHIP (R286): the same for the 16x16 sprite of 32 bytes at I, in both resolutions
(decision D19). -/
def Obligations.DrawsSixteenWideSprite : Prop :=
  ∀ (s : State) (x y : Nibble), s.variant = .superchip →
    (s.I.toNat + 31 < Config.memSize →
      ∃ t, exec (.drwVxVy0 x y) s = .next t
        ∧ Drawn (spriteOn s.quirks.clipping s.width s.height ((s.readV x).toNat % s.width)
            ((s.readV y).toNat % s.height) 16 16 (spriteBit16 s)) s t)
    ∧ (s.I.toNat + 31 ≥ Config.memSize →
      exec (.drwVxVy0 x y) s
        = .next (haltedBy s .outOfBoundsAccess (.address (s.I.toNat + 31))))

/-- "Drawing the same sprite twice at the same place restores the screen and gives VF = 1 the second
time" (R285, 95_test_vectors.md L1.1): from any screen the second draw restores both buffers; from a
blank one the first gives VF = 0 and the second VF = 1 exactly when the first lit a pixel. -/
def Obligations.DrawTwiceRestoresScreen : Prop :=
  ∀ (s : State) (x y n : Nibble), x ≠ 0xF#4 → y ≠ 0xF#4 →
    n.toNat = 0 ∨ s.I.toNat + n.toNat - 1 < Config.memSize →
    ∃ t u, exec (.drwVxVyN x y n) s = .next t ∧ exec (.drwVxVyN x y n) t = .next u
      ∧ u.fbLo = s.fbLo ∧ u.fbHi = s.fbHi
      ∧ ((∀ px py, s.pixel px py = false) →
          t.readV 0xF#4 = 0#8
            ∧ ((∃ px py, t.pixel px py = true) ↔ u.readV 0xF#4 = 1#8))

/-- The redraw signal (R273, decision D34): an instruction of the variant that does not fault sets it
exactly when it is one of the eight display instructions, whether or not a pixel changed. -/
def Obligations.RedrawMarksDisplayInstructions : Prop :=
  ∀ (i : Instr) (s t : State), i.wellFormed s.variant = true → faultOf i s = none →
    exec i s = .next t → t.signal.redraw = (s.signal.redraw || redraws i)

/-! ### Keys and timers (45_input_timers.md) -/

/-- `Ex9E` and `ExA1` (R325, R326): the skip by the state of the key named by Vx; a value above 0xF is
the fault `Unmodelled` (decision D23). -/
def Obligations.KeySkipsReadKeypad : Prop :=
  ∀ (s : State) (x k : Nibble),
    ((s.readV x).toNat = k.toNat →
      exec (.skpVx x) s
          = .next { s with PC := if s.keys[k.toNat]? = some true then s.PC + 4#16 else s.PC + 2#16 }
        ∧ exec (.sknpVx x) s
          = .next { s with
              PC := if s.keys[k.toNat]? = some false then s.PC + 4#16 else s.PC + 2#16 })
    ∧ ((s.readV x).toNat > 0xF →
      exec (.skpVx x) s = .next (haltedBy s .unmodelled .skpKey)
        ∧ exec (.sknpVx x) s = .next (haltedBy s .unmodelled .sknpKey))

/-- `Fx07`, `Fx15`, `Fx18` (R335, R336, R337): a timer read or written, and nothing else but `PC`. -/
def Obligations.TimerInstructions : Prop :=
  ∀ (s : State) (x : Nibble),
    (∃ t, exec (.ldVxDT x) s = .next t ∧ t.readV x = s.DT ∧ t.PC = s.PC + 2#16
      ∧ KeepsAllBut [x] s t)
    ∧ exec (.ldDTVx x) s = .next { s with PC := s.PC + 2#16, DT := s.readV x }
    ∧ exec (.ldSTVx x) s = .next { s with PC := s.PC + 2#16, ST := s.readV x }

/-- `Fx0A` and the release that ends its wait (R330, R322, decision D27): the instruction only sets the
wait; the press of a key resolves nothing; its release writes the key's code to the target register
and ends the wait, with `PC` still after the instruction. -/
def Obligations.KeyReleaseResolvesWait : Prop :=
  ∀ (s : State) (x k : Nibble),
    ∃ t, exec (.ldVxK x) s = .next t
      ∧ t = { s with PC := s.PC + 2#16, waitKey := .waitingForPress x }
      ∧ ∃ u, perform (.setKey k.toNat true) t = .next (u, .done)
        ∧ u = { t with keys := t.keys.set k.toNat true }
        ∧ ∃ z, perform (.setKey k.toNat false) u = .next (z, .done)
          ∧ z.readV x = BitVec.setWidth 8 k
          ∧ (∀ r, r ≠ x → z.readV r = s.readV r)
          ∧ z = { s with
              V := z.V, PC := s.PC + 2#16, waitKey := .notWaiting,
              keys := s.keys.set k.toNat false }

/-- `set_key` where it resolves nothing (R322, decision D30): a code of 16 or more is refused; without
a wait, or without a release of a key that was down, only the key's state changes. -/
def Obligations.SetKeyElsewhereOnlyWritesKey : Prop :=
  ∀ (s : State) (code : Nat) (pressed : Bool),
    (code ≥ 16 → perform (.setKey code pressed) s = .next (s, .refused))
    ∧ (∀ h : code < 16, s.waitKey = .notWaiting ∨ s.keys[code] = false ∨ pressed = true →
      perform (.setKey code pressed) s
        = .next ({ s with keys := s.keys.set code pressed }, .done))

/-- `tick_frame`, `n` times over (60_exceptions.md R370): both timers count down by `n`, floored at 0,
the display hold ends, and nothing else changes; a halted engine does not change at all. -/
def Obligations.TicksCountTimersDown : Prop :=
  ∀ (n : Nat) (s : State),
    (s.halted = true →
      performAll (List.replicate n .tickFrame) s = .next s)
    ∧ (s.halted = false →
      ∃ t, performAll (List.replicate (n + 1) .tickFrame) s = .next t
        ∧ t.DT.toNat = s.DT.toNat - (n + 1) ∧ t.ST.toNat = s.ST.toNat - (n + 1)
        ∧ t = { s with DT := t.DT, ST := t.ST, vblankHold := false })

/-! ### Whole-machine rules -/

/-- No instruction writes the quirks or the variant (10_state.md R55), the keypad (R40), the ROM image
(R37) or the font parameters. The last clause is about the field `fonts`, the model's own place for the
parameters 00_scope.md R6 leaves OPEN (assumption log 5). -/
def Obligations.NoInstructionWritesSettings : Prop :=
  ∀ (i : Instr) (s t : State), exec i s = .next t →
    t.quirks = s.quirks ∧ t.variant = s.variant ∧ t.keys = s.keys ∧ t.rom = s.rom
      ∧ t.fonts = s.fonts

/-- Each special register is written only by the instructions whose rules name it: memory by `Fx33`
and `Fx55`; I as 43_memory_ops.md R253 lists; the stack by call and return (10_state.md R34); DT by
`Fx15` and ST by `Fx18` (R35); the flags by `Fx75` (R45); the key wait by `Fx0A` (R41); the display
hold by the draws (R42); the resolution by `00FE` and `00FF` (44_display.md R300); the pixels by the
display instructions (44_display.md R270); the draw counter, the model's own (assumption log 4), by
`Cxkk`. -/
def Obligations.OnlyNamedInstructionsWrite : Prop :=
  ∀ (i : Instr) (s t : State), exec i s = .next t →
    ((∃ a, t.readByte a ≠ s.readByte a) → ∃ x, i = .ldBVx x ∨ i = .ldMemVx x)
    ∧ (t.I ≠ s.I → (∃ nnn, i = .ldINnn nnn)
        ∨ (∃ x, i = .addIVx x ∨ i = .ldFVx x ∨ i = .ldHFVx x
          ∨ (s.quirks.memoryIncrement = true ∧ (i = .ldMemVx x ∨ i = .ldVxMem x))))
    ∧ (t.SP ≠ s.SP ∨ t.stack ≠ s.stack → i = .ret ∨ ∃ nnn, i = .call nnn)
    ∧ (t.DT ≠ s.DT → ∃ x, i = .ldDTVx x)
    ∧ (t.ST ≠ s.ST → ∃ x, i = .ldSTVx x)
    ∧ (t.flags ≠ s.flags → ∃ x, i = .ldRVx x)
    ∧ (t.waitKey ≠ s.waitKey → ∃ x, i = .ldVxK x)
    ∧ (t.vblankHold ≠ s.vblankHold → ∃ x y, (∃ n, i = .drwVxVyN x y n) ∨ i = .drwVxVy0 x y)
    ∧ (t.hires ≠ s.hires → i = .low ∨ i = .high)
    ∧ (t.fbLo ≠ s.fbLo ∨ t.fbHi ≠ s.fbHi → redraws i = true)
    ∧ (t.draws ≠ s.draws → ∃ x kk, i = .rndVxKk x kk)

/-- An instruction changes no general register but its destinations (10_state.md R31, 40_cycle.md
R138): every register outside `destRegisters` is as it was, whether the instruction completes or
faults. -/
def Obligations.RegistersOutsideDestinationsKept : Prop :=
  ∀ (i : Instr) (s t : State) (r : Nibble), exec i s = .next t → r ∉ destRegisters i →
    t.readV r = s.readV r

/-! ### Host commands (00_scope.md R20) -/

/-- `set_quirk` (10_state.md R51): a known name, `logic` standing for `vf_reset`, writes its field and
nothing else, at any time; any other name is refused and no state changes. -/
def Obligations.SetQuirkWritesOneField : Prop :=
  ∀ (s : State) (name : String) (value : Bool),
    (name ∈ ["vf_reset", "logic", "memory_increment", "display_wait", "clipping", "shifting",
        "jumping"] →
      ∃ t, perform (.setQuirk name value) s = .next (t, .done)
        ∧ t = { s with quirks := t.quirks }
        ∧ t.quirks.vfReset = (if name = "vf_reset" ∨ name = "logic" then value else s.quirks.vfReset)
        ∧ t.quirks.memoryIncrement
            = (if name = "memory_increment" then value else s.quirks.memoryIncrement)
        ∧ t.quirks.displayWait = (if name = "display_wait" then value else s.quirks.displayWait)
        ∧ t.quirks.clipping = (if name = "clipping" then value else s.quirks.clipping)
        ∧ t.quirks.shifting = (if name = "shifting" then value else s.quirks.shifting)
        ∧ t.quirks.jumping = (if name = "jumping" then value else s.quirks.jumping))
    ∧ (name ∉ ["vf_reset", "logic", "memory_increment", "display_wait", "clipping", "shifting",
        "jumping"] →
      perform (.setQuirk name value) s = .next (s, .refused))

/-- `select_variant` and `load_flags` (10_state.md R53, R54, R57; decisions D13, D44, D53): before the
run the variant and its quirk defaults, during it `VariantLocked` and no change; the flags read back
as loaded. -/
def Obligations.SelectVariantAndLoadFlags : Prop :=
  ∀ (s : State) (v : Variant) (bytes : Vector Byte 8),
    (s.runStarted = false → perform (.selectVariant v) s = .next ({ s with
        variant := v
        quirks :=
          { vfReset := v == .chip8, memoryIncrement := v == .chip8, displayWait := v == .chip8,
            clipping := true, shifting := v == .superchip, jumping := v == .superchip } }, .done))
    ∧ (s.runStarted = true → perform (.selectVariant v) s = .next (s, .variantLocked))
    ∧ (∃ t, perform (.loadFlags bytes) s = .next (t, .done) ∧ t = { s with flags := bytes }
        ∧ t.snapshot.flags = bytes.toList)

/-- `reset()` (70_reset_and_hazards.md R392, R393): every register, the stack, the screen and the run
control at their reset values, whatever they were; every byte of memory at its reset contents: the
ROM image from 0x200, the fonts at their bases, 0 elsewhere (decision D39); `rom`, `flags`, `quirks`
and `variant` unchanged; and a second reset changes nothing. (`faultInfo`, `signal` and `draws` are
the model's own, assumption log 2, 4.) -/
def Obligations.ResetReinitialises : Prop :=
  ∀ s : State, ∃ t, perform .reset s = .next (t, .done)
    ∧ (∀ r, t.readV r = 0#8) ∧ t.I = 0#16 ∧ t.PC = 0x200#16 ∧ t.SP.val = 0
    ∧ (∀ j, j < 16 → t.stack[j]? = some 0#16) ∧ t.DT = 0#8 ∧ t.ST = 0#8
    ∧ (s.fonts.wf = true → s.rom.length ≤ Config.romMax →
        (∀ j (_ : j < s.rom.length), t.readByte (0x200 + j) = s.rom[j])
        ∧ (∀ j (_ : j < 80), t.readByte (s.fonts.smallBase + j) = s.fonts.small[j])
        ∧ (∀ j (_ : j < 100), t.readByte (s.fonts.bigBase + j) = s.fonts.big[j])
        ∧ (∀ a, (a < s.fonts.smallBase ∨ s.fonts.smallBase + 80 ≤ a) →
            (a < s.fonts.bigBase ∨ s.fonts.bigBase + 100 ≤ a) →
            (a < 0x200 ∨ 0x200 + s.rom.length ≤ a) → t.readByte a = 0#8))
    ∧ (∀ px py, t.fbLo.pixel px py = false) ∧ (∀ px py, t.fbHi.pixel px py = false)
    ∧ t.hires = false ∧ (∀ k, k < 16 → t.keys[k]? = some false)
    ∧ t.waitKey = .notWaiting ∧ t.vblankHold = false ∧ t.halted = false ∧ t.faultState = none
    ∧ t.runStarted = false
    ∧ t.rom = s.rom ∧ t.flags = s.flags ∧ t.quirks = s.quirks ∧ t.variant = s.variant
    ∧ perform .reset t = .next (t, .done)

/-- `load_rom` (70_reset_and_hazards.md R395, decision D38): an image of at most 3584 bytes replaces
the old one and the engine is reset; a longer one is refused and no state changes. -/
def Obligations.LoadRomReplacesImageAndResets : Prop :=
  ∀ (s : State) (bytes : List Byte),
    (bytes.length ≤ 3584 → ∃ t, perform (.loadRom bytes) s = .next (t, .done)
      ∧ t.rom = bytes ∧ perform .reset { s with rom := bytes } = .next (t, .done)
      ∧ (∀ j (_ : j < bytes.length), t.readByte (0x200 + j) = bytes[j]))
    ∧ (bytes.length > 3584 → perform (.loadRom bytes) s = .next (s, .refused))

/-- `advance_one_frame(n)` (40_cycle.md R145, decision D29): `run_started`, then `n` cycles, then one
tick. Its state is that of those commands one after another, but for the signals; its own signals are
redraw if one of the `n` cycles signalled it, the fault one of them raised, and `halted` as it is at
the end. -/
def Obligations.FrameIsCyclesThenTick : Prop :=
  ∀ (n : BitVec 32) (s : State), ∃ t u sig,
    perform (.advanceOneFrame n) s = .next (t, .signals sig)
      ∧ performAll (List.replicate n.toNat .executeOneCycle ++ [.tickFrame])
          { s with runStarted := true } = .next u
      ∧ t = { u with signal := sig } ∧ sig.halted = u.halted
      ∧ (sig.redraw = true ↔ ∃ j v, j < n.toNat
          ∧ performAll (List.replicate (j + 1) .executeOneCycle) { s with runStarted := true }
              = .next v
          ∧ v.signal.redraw = true)
      ∧ (∀ k, sig.fault = some k ↔ ∃ j v, j < n.toNat
          ∧ performAll (List.replicate (j + 1) .executeOneCycle) { s with runStarted := true }
              = .next v
          ∧ v.signal.fault = some k)

/-- The buzzer and the snapshot (60_exceptions.md R372, 10_state.md R70): the buzzer is on exactly
while ST is above 0, and the snapshot shows the live stack entries and the active buffer. -/
def Obligations.SnapshotShowsState : Prop :=
  ∀ s : State,
    (s.snapshot.buzzer = true ↔ 0 < s.ST.toNat)
    ∧ s.snapshot.stack.length = s.SP.val
    ∧ (∀ j, j < s.SP.val → s.snapshot.stack[j]? = s.stack[j]?)
    ∧ (∀ px py, px < s.width → py < s.height →
        (s.snapshot.screen[py]?.bind fun row => row[px]?) = some (s.pixel px py))
    ∧ s.snapshot.V = s.V.toList ∧ s.snapshot.SP = s.SP.val ∧ s.snapshot.PC = s.PC
    ∧ s.snapshot.I = s.I ∧ s.snapshot.DT = s.DT ∧ s.snapshot.ST = s.ST ∧ s.snapshot.hires = s.hires
    ∧ s.snapshot.keys = s.keys.toList ∧ s.snapshot.waitKey = s.waitKey
    ∧ s.snapshot.quirks = s.quirks ∧ s.snapshot.variant = s.variant
    ∧ s.snapshot.flags = s.flags.toList ∧ s.snapshot.halted = s.halted
    ∧ s.snapshot.faultState = s.faultState

/-! ### Invariants -/

/-- The invariant holds of the engine as constructed, with the default fonts and with any that fit
(R60, R390). -/
def Obligations.ConstructedEngineMeetsInv : Prop :=
  State.reset.Inv ∧ ∀ fonts : Fonts, fonts.wf = true → (State.construct fonts).Inv

/-- Every step keeps the invariant, from every state that meets it: memory canonical and inside the
address space, the inactive framebuffer blank (10_state.md R39), a key wait alone (45_input_timers.md
R331), a recorded fault only in a halted engine (R43), no high-res mode under CHIP8. -/
def Obligations.StepKeepsInv : Prop :=
  ∀ s t : State, s.Inv → step s = .next t → t.Inv

/-- Every command of the host keeps the invariant, from every state that meets it. -/
def Obligations.CommandsKeepInv : Prop :=
  ∀ (c : Command) (s t : State) (r : Response), s.Inv → perform c s = .next (t, r) → t.Inv

/-- Every state an engine can be in, after any history of commands, meets the invariant (60_exceptions.md
R380). -/
def Obligations.ReachableStatesMeetInv : Prop := ∀ s : State, Reachable s → s.Inv
end

