-- ==== Sys2Proof/Laws/Decode.lean ====
section
/-! SUPPORT. The fields of a word laid out from its fields (R101), for the three layouts an encoding
has; that every word is such a layout; and the bytes of a word (R83). -/

namespace Sys2Proof

variable (op x y n : Nibble) (kk : Byte) (nnn : Addr12)

theorem wordXYN_toNat :
    (wordXYN op x y n).toNat = op.toNat * 4096 + x.toNat * 256 + y.toNat * 16 + n.toNat := by
  have h : wordXYN op x y n = (op ++ x ++ y ++ n : BitVec (4 + 4 + 4 + 4)) := rfl
  have := op.isLt; have := x.isLt; have := y.isLt; have := n.isLt
  rw [h, BitVec.toNat_append, BitVec.toNat_append, BitVec.toNat_append,
    ← Nat.shiftLeft_add_eq_or_of_lt n.isLt, ← Nat.shiftLeft_add_eq_or_of_lt y.isLt,
    ← Nat.shiftLeft_add_eq_or_of_lt x.isLt, Nat.shiftLeft_eq, Nat.shiftLeft_eq, Nat.shiftLeft_eq]
  omega

theorem wordXKk_toNat :
    (wordXKk op x kk).toNat = op.toNat * 4096 + x.toNat * 256 + kk.toNat := by
  have h : wordXKk op x kk = (op ++ x ++ kk : BitVec (4 + 4 + 8)) := rfl
  rw [h, BitVec.toNat_append, BitVec.toNat_append, ← Nat.shiftLeft_add_eq_or_of_lt kk.isLt,
    ← Nat.shiftLeft_add_eq_or_of_lt x.isLt, Nat.shiftLeft_eq, Nat.shiftLeft_eq]
  omega

theorem wordNnn_toNat : (wordNnn op nnn).toNat = op.toNat * 4096 + nnn.toNat := by
  have h : wordNnn op nnn = (op ++ nnn : BitVec (4 + 12)) := rfl
  rw [h, BitVec.toNat_append, ← Nat.shiftLeft_add_eq_or_of_lt nnn.isLt, Nat.shiftLeft_eq]

/-- A field of a word as a number: the word divided by the weight of the field's lowest bit. -/
theorem extractLsb'_toNat_div {m : Nat} (w : Word16) (start len : Nat) (h : 2 ^ len = m) :
    (w.extractLsb' start len).toNat = w.toNat / 2 ^ start % m := by
  rw [BitVec.extractLsb'_toNat, Nat.shiftRight_eq_div_pow, h]

theorem fieldOp_toNat (w : Word16) : (fieldOp w).toNat = w.toNat / 4096 % 16 :=
  extractLsb'_toNat_div w 12 4 rfl

theorem fieldX_toNat (w : Word16) : (fieldX w).toNat = w.toNat / 256 % 16 :=
  extractLsb'_toNat_div w 8 4 rfl

theorem fieldY_toNat (w : Word16) : (fieldY w).toNat = w.toNat / 16 % 16 :=
  extractLsb'_toNat_div w 4 4 rfl

theorem fieldN_toNat (w : Word16) : (fieldN w).toNat = w.toNat % 16 :=
  (extractLsb'_toNat_div (m := 16) w 0 4 rfl).trans (by rw [Nat.pow_zero, Nat.div_one])

theorem fieldKk_toNat (w : Word16) : (fieldKk w).toNat = w.toNat % 256 :=
  (extractLsb'_toNat_div (m := 256) w 0 8 rfl).trans (by rw [Nat.pow_zero, Nat.div_one])

theorem fieldNnn_toNat (w : Word16) : (fieldNnn w).toNat = w.toNat % 4096 :=
  (extractLsb'_toNat_div (m := 4096) w 0 12 rfl).trans (by rw [Nat.pow_zero, Nat.div_one])

/-! ### Four nibbles -/

@[simp] theorem fieldOp_wordXYN : fieldOp (wordXYN op x y n) = op := by
  apply BitVec.eq_of_toNat_eq
  rw [fieldOp_toNat, wordXYN_toNat]
  omega

@[simp] theorem fieldX_wordXYN : fieldX (wordXYN op x y n) = x := by
  apply BitVec.eq_of_toNat_eq
  rw [fieldX_toNat, wordXYN_toNat]
  omega

@[simp] theorem fieldY_wordXYN : fieldY (wordXYN op x y n) = y := by
  apply BitVec.eq_of_toNat_eq
  rw [fieldY_toNat, wordXYN_toNat]
  omega

@[simp] theorem fieldN_wordXYN : fieldN (wordXYN op x y n) = n := by
  apply BitVec.eq_of_toNat_eq
  rw [fieldN_toNat, wordXYN_toNat]
  omega

/-! ### `op`, `x` and `kk` -/

@[simp] theorem fieldOp_wordXKk : fieldOp (wordXKk op x kk) = op := by
  apply BitVec.eq_of_toNat_eq
  rw [fieldOp_toNat, wordXKk_toNat]
  omega

@[simp] theorem fieldX_wordXKk : fieldX (wordXKk op x kk) = x := by
  apply BitVec.eq_of_toNat_eq
  rw [fieldX_toNat, wordXKk_toNat]
  omega

@[simp] theorem fieldKk_wordXKk : fieldKk (wordXKk op x kk) = kk := by
  apply BitVec.eq_of_toNat_eq
  rw [fieldKk_toNat, wordXKk_toNat]
  omega

/-! ### `op` and `nnn` -/

@[simp] theorem fieldOp_wordNnn : fieldOp (wordNnn op nnn) = op := by
  apply BitVec.eq_of_toNat_eq
  rw [fieldOp_toNat, wordNnn_toNat]
  omega

@[simp] theorem fieldNnn_wordNnn : fieldNnn (wordNnn op nnn) = nnn := by
  apply BitVec.eq_of_toNat_eq
  rw [fieldNnn_toNat, wordNnn_toNat]
  omega

/-! ### Every word is its fields -/

theorem wordXYN_fields (w : Word16) : wordXYN (fieldOp w) (fieldX w) (fieldY w) (fieldN w) = w := by
  apply BitVec.eq_of_toNat_eq
  rw [wordXYN_toNat, fieldOp_toNat, fieldX_toNat, fieldY_toNat, fieldN_toNat]
  omega

theorem wordXKk_fields (w : Word16) : wordXKk (fieldOp w) (fieldX w) (fieldKk w) = w := by
  apply BitVec.eq_of_toNat_eq
  rw [wordXKk_toNat, fieldOp_toNat, fieldX_toNat, fieldKk_toNat]
  omega

theorem wordNnn_fields (w : Word16) : wordNnn (fieldOp w) (fieldNnn w) = w := by
  apply BitVec.eq_of_toNat_eq
  rw [wordNnn_toNat, fieldOp_toNat, fieldNnn_toNat]
  omega

/-! ### The bytes of a word (R83) -/

theorem wordOfBytes_toNat (hi lo : Byte) : (wordOfBytes hi lo).toNat = hi.toNat * 256 + lo.toNat := by
  have h : wordOfBytes hi lo = (hi ++ lo : BitVec (8 + 8)) := rfl
  rw [h, BitVec.toNat_append, ← Nat.shiftLeft_add_eq_or_of_lt lo.isLt, Nat.shiftLeft_eq]

theorem highByte_toNat (w : Word16) : (highByte w).toNat = w.toNat / 256 % 256 :=
  extractLsb'_toNat_div w 8 8 rfl

theorem lowByte_toNat (w : Word16) : (lowByte w).toNat = w.toNat % 256 :=
  (extractLsb'_toNat_div (m := 256) w 0 8 rfl).trans (by rw [Nat.pow_zero, Nat.div_one])

@[simp] theorem wordOfBytes_high_low (w : Word16) : wordOfBytes (highByte w) (lowByte w) = w := by
  apply BitVec.eq_of_toNat_eq
  rw [wordOfBytes_toNat, highByte_toNat, lowByte_toNat]
  omega

end Sys2Proof
end

