-- ==== Sys2Proof/Laws/State.lean ====
section
/-! SUPPORT. For each update of the state, what each field and each reading operation gives after it:
unchanged where the update does not write it, the new value where that is one term. All are simp
lemmas, so that no later proof unfolds an update. -/

namespace Sys2Proof.Machine.State

/-! ### writeV -/

@[simp] theorem writeV_I (s : State) (r : Nibble) (b : Byte) : (s.writeV r b).I = s.I := rfl
@[simp] theorem writeV_PC (s : State) (r : Nibble) (b : Byte) : (s.writeV r b).PC = s.PC := rfl
@[simp] theorem writeV_SP (s : State) (r : Nibble) (b : Byte) : (s.writeV r b).SP = s.SP := rfl
@[simp] theorem writeV_stack (s : State) (r : Nibble) (b : Byte) : (s.writeV r b).stack = s.stack := rfl
@[simp] theorem writeV_DT (s : State) (r : Nibble) (b : Byte) : (s.writeV r b).DT = s.DT := rfl
@[simp] theorem writeV_ST (s : State) (r : Nibble) (b : Byte) : (s.writeV r b).ST = s.ST := rfl
@[simp] theorem writeV_mem (s : State) (r : Nibble) (b : Byte) : (s.writeV r b).mem = s.mem := rfl
@[simp] theorem writeV_rom (s : State) (r : Nibble) (b : Byte) : (s.writeV r b).rom = s.rom := rfl
@[simp] theorem writeV_fbLo (s : State) (r : Nibble) (b : Byte) : (s.writeV r b).fbLo = s.fbLo := rfl
@[simp] theorem writeV_fbHi (s : State) (r : Nibble) (b : Byte) : (s.writeV r b).fbHi = s.fbHi := rfl
@[simp] theorem writeV_hires (s : State) (r : Nibble) (b : Byte) : (s.writeV r b).hires = s.hires := rfl
@[simp] theorem writeV_keys (s : State) (r : Nibble) (b : Byte) : (s.writeV r b).keys = s.keys := rfl
@[simp] theorem writeV_waitKey (s : State) (r : Nibble) (b : Byte) : (s.writeV r b).waitKey = s.waitKey := rfl
@[simp] theorem writeV_vblankHold (s : State) (r : Nibble) (b : Byte) : (s.writeV r b).vblankHold = s.vblankHold := rfl
@[simp] theorem writeV_halted (s : State) (r : Nibble) (b : Byte) : (s.writeV r b).halted = s.halted := rfl
@[simp] theorem writeV_faultState (s : State) (r : Nibble) (b : Byte) : (s.writeV r b).faultState = s.faultState := rfl
@[simp] theorem writeV_runStarted (s : State) (r : Nibble) (b : Byte) : (s.writeV r b).runStarted = s.runStarted := rfl
@[simp] theorem writeV_flags (s : State) (r : Nibble) (b : Byte) : (s.writeV r b).flags = s.flags := rfl
@[simp] theorem writeV_quirks (s : State) (r : Nibble) (b : Byte) : (s.writeV r b).quirks = s.quirks := rfl
@[simp] theorem writeV_variant (s : State) (r : Nibble) (b : Byte) : (s.writeV r b).variant = s.variant := rfl
@[simp] theorem writeV_fonts (s : State) (r : Nibble) (b : Byte) : (s.writeV r b).fonts = s.fonts := rfl
@[simp] theorem writeV_faultInfo (s : State) (r : Nibble) (b : Byte) : (s.writeV r b).faultInfo = s.faultInfo := rfl
@[simp] theorem writeV_signal (s : State) (r : Nibble) (b : Byte) : (s.writeV r b).signal = s.signal := rfl
@[simp] theorem writeV_draws (s : State) (r : Nibble) (b : Byte) : (s.writeV r b).draws = s.draws := rfl
@[simp] theorem writeV_resetByte (s : State) (r : Nibble) (b : Byte) : (s.writeV r b).resetByte = s.resetByte := rfl
@[simp] theorem writeV_readByte (s : State) (r : Nibble) (b : Byte) (a : Nat) : (s.writeV r b).readByte a = s.readByte a := rfl
@[simp] theorem writeV_width (s : State) (r : Nibble) (b : Byte) : (s.writeV r b).width = s.width := rfl
@[simp] theorem writeV_height (s : State) (r : Nibble) (b : Byte) : (s.writeV r b).height = s.height := rfl
@[simp] theorem writeV_pixel (s : State) (r : Nibble) (b : Byte) (px py : Nat) : (s.writeV r b).pixel px py = s.pixel px py := rfl
@[simp] theorem writeV_effAddr (s : State) (r : Nibble) (b : Byte) (k : Nat) : (s.writeV r b).effAddr k = s.effAddr k := rfl
@[simp] theorem writeV_inBounds (s : State) (r : Nibble) (b : Byte) (last : Nat) : (s.writeV r b).inBounds last = s.inBounds last := rfl
@[simp] theorem writeV_keyDown (s : State) (r : Nibble) (b : Byte) (key : Byte) : (s.writeV r b).keyDown key = s.keyDown key := rfl
@[simp] theorem writeV_readFlag (s : State) (r : Nibble) (b : Byte) (j : Nat) : (s.writeV r b).readFlag j = s.readFlag j := rfl

/-! ### writeResultAndFlag -/

@[simp] theorem writeResultAndFlag_I (s : State) (r : Nibble) (b c : Byte) : (s.writeResultAndFlag r b c).I = s.I := rfl
@[simp] theorem writeResultAndFlag_PC (s : State) (r : Nibble) (b c : Byte) : (s.writeResultAndFlag r b c).PC = s.PC := rfl
@[simp] theorem writeResultAndFlag_SP (s : State) (r : Nibble) (b c : Byte) : (s.writeResultAndFlag r b c).SP = s.SP := rfl
@[simp] theorem writeResultAndFlag_stack (s : State) (r : Nibble) (b c : Byte) : (s.writeResultAndFlag r b c).stack = s.stack := rfl
@[simp] theorem writeResultAndFlag_DT (s : State) (r : Nibble) (b c : Byte) : (s.writeResultAndFlag r b c).DT = s.DT := rfl
@[simp] theorem writeResultAndFlag_ST (s : State) (r : Nibble) (b c : Byte) : (s.writeResultAndFlag r b c).ST = s.ST := rfl
@[simp] theorem writeResultAndFlag_mem (s : State) (r : Nibble) (b c : Byte) : (s.writeResultAndFlag r b c).mem = s.mem := rfl
@[simp] theorem writeResultAndFlag_rom (s : State) (r : Nibble) (b c : Byte) : (s.writeResultAndFlag r b c).rom = s.rom := rfl
@[simp] theorem writeResultAndFlag_fbLo (s : State) (r : Nibble) (b c : Byte) : (s.writeResultAndFlag r b c).fbLo = s.fbLo := rfl
@[simp] theorem writeResultAndFlag_fbHi (s : State) (r : Nibble) (b c : Byte) : (s.writeResultAndFlag r b c).fbHi = s.fbHi := rfl
@[simp] theorem writeResultAndFlag_hires (s : State) (r : Nibble) (b c : Byte) : (s.writeResultAndFlag r b c).hires = s.hires := rfl
@[simp] theorem writeResultAndFlag_keys (s : State) (r : Nibble) (b c : Byte) : (s.writeResultAndFlag r b c).keys = s.keys := rfl
@[simp] theorem writeResultAndFlag_waitKey (s : State) (r : Nibble) (b c : Byte) : (s.writeResultAndFlag r b c).waitKey = s.waitKey := rfl
@[simp] theorem writeResultAndFlag_vblankHold (s : State) (r : Nibble) (b c : Byte) : (s.writeResultAndFlag r b c).vblankHold = s.vblankHold := rfl
@[simp] theorem writeResultAndFlag_halted (s : State) (r : Nibble) (b c : Byte) : (s.writeResultAndFlag r b c).halted = s.halted := rfl
@[simp] theorem writeResultAndFlag_faultState (s : State) (r : Nibble) (b c : Byte) : (s.writeResultAndFlag r b c).faultState = s.faultState := rfl
@[simp] theorem writeResultAndFlag_runStarted (s : State) (r : Nibble) (b c : Byte) : (s.writeResultAndFlag r b c).runStarted = s.runStarted := rfl
@[simp] theorem writeResultAndFlag_flags (s : State) (r : Nibble) (b c : Byte) : (s.writeResultAndFlag r b c).flags = s.flags := rfl
@[simp] theorem writeResultAndFlag_quirks (s : State) (r : Nibble) (b c : Byte) : (s.writeResultAndFlag r b c).quirks = s.quirks := rfl
@[simp] theorem writeResultAndFlag_variant (s : State) (r : Nibble) (b c : Byte) : (s.writeResultAndFlag r b c).variant = s.variant := rfl
@[simp] theorem writeResultAndFlag_fonts (s : State) (r : Nibble) (b c : Byte) : (s.writeResultAndFlag r b c).fonts = s.fonts := rfl
@[simp] theorem writeResultAndFlag_faultInfo (s : State) (r : Nibble) (b c : Byte) : (s.writeResultAndFlag r b c).faultInfo = s.faultInfo := rfl
@[simp] theorem writeResultAndFlag_signal (s : State) (r : Nibble) (b c : Byte) : (s.writeResultAndFlag r b c).signal = s.signal := rfl
@[simp] theorem writeResultAndFlag_draws (s : State) (r : Nibble) (b c : Byte) : (s.writeResultAndFlag r b c).draws = s.draws := rfl
@[simp] theorem writeResultAndFlag_resetByte (s : State) (r : Nibble) (b c : Byte) : (s.writeResultAndFlag r b c).resetByte = s.resetByte := rfl
@[simp] theorem writeResultAndFlag_readByte (s : State) (r : Nibble) (b c : Byte) (a : Nat) : (s.writeResultAndFlag r b c).readByte a = s.readByte a := rfl
@[simp] theorem writeResultAndFlag_width (s : State) (r : Nibble) (b c : Byte) : (s.writeResultAndFlag r b c).width = s.width := rfl
@[simp] theorem writeResultAndFlag_height (s : State) (r : Nibble) (b c : Byte) : (s.writeResultAndFlag r b c).height = s.height := rfl
@[simp] theorem writeResultAndFlag_pixel (s : State) (r : Nibble) (b c : Byte) (px py : Nat) : (s.writeResultAndFlag r b c).pixel px py = s.pixel px py := rfl
@[simp] theorem writeResultAndFlag_effAddr (s : State) (r : Nibble) (b c : Byte) (k : Nat) : (s.writeResultAndFlag r b c).effAddr k = s.effAddr k := rfl
@[simp] theorem writeResultAndFlag_inBounds (s : State) (r : Nibble) (b c : Byte) (last : Nat) : (s.writeResultAndFlag r b c).inBounds last = s.inBounds last := rfl
@[simp] theorem writeResultAndFlag_keyDown (s : State) (r : Nibble) (b c : Byte) (key : Byte) : (s.writeResultAndFlag r b c).keyDown key = s.keyDown key := rfl
@[simp] theorem writeResultAndFlag_readFlag (s : State) (r : Nibble) (b c : Byte) (j : Nat) : (s.writeResultAndFlag r b c).readFlag j = s.readFlag j := rfl

/-! ### loadRegisters -/

@[simp] theorem loadRegisters_I (s : State) (count : Nat) (f : Nat → Byte) : (s.loadRegisters count f).I = s.I := by dsimp only [loadRegisters]
@[simp] theorem loadRegisters_PC (s : State) (count : Nat) (f : Nat → Byte) : (s.loadRegisters count f).PC = s.PC := by dsimp only [loadRegisters]
@[simp] theorem loadRegisters_SP (s : State) (count : Nat) (f : Nat → Byte) : (s.loadRegisters count f).SP = s.SP := by dsimp only [loadRegisters]
@[simp] theorem loadRegisters_stack (s : State) (count : Nat) (f : Nat → Byte) : (s.loadRegisters count f).stack = s.stack := by dsimp only [loadRegisters]
@[simp] theorem loadRegisters_DT (s : State) (count : Nat) (f : Nat → Byte) : (s.loadRegisters count f).DT = s.DT := by dsimp only [loadRegisters]
@[simp] theorem loadRegisters_ST (s : State) (count : Nat) (f : Nat → Byte) : (s.loadRegisters count f).ST = s.ST := by dsimp only [loadRegisters]
@[simp] theorem loadRegisters_mem (s : State) (count : Nat) (f : Nat → Byte) : (s.loadRegisters count f).mem = s.mem := by dsimp only [loadRegisters]
@[simp] theorem loadRegisters_rom (s : State) (count : Nat) (f : Nat → Byte) : (s.loadRegisters count f).rom = s.rom := by dsimp only [loadRegisters]
@[simp] theorem loadRegisters_fbLo (s : State) (count : Nat) (f : Nat → Byte) : (s.loadRegisters count f).fbLo = s.fbLo := by dsimp only [loadRegisters]
@[simp] theorem loadRegisters_fbHi (s : State) (count : Nat) (f : Nat → Byte) : (s.loadRegisters count f).fbHi = s.fbHi := by dsimp only [loadRegisters]
@[simp] theorem loadRegisters_hires (s : State) (count : Nat) (f : Nat → Byte) : (s.loadRegisters count f).hires = s.hires := by dsimp only [loadRegisters]
@[simp] theorem loadRegisters_keys (s : State) (count : Nat) (f : Nat → Byte) : (s.loadRegisters count f).keys = s.keys := by dsimp only [loadRegisters]
@[simp] theorem loadRegisters_waitKey (s : State) (count : Nat) (f : Nat → Byte) : (s.loadRegisters count f).waitKey = s.waitKey := by dsimp only [loadRegisters]
@[simp] theorem loadRegisters_vblankHold (s : State) (count : Nat) (f : Nat → Byte) : (s.loadRegisters count f).vblankHold = s.vblankHold := by dsimp only [loadRegisters]
@[simp] theorem loadRegisters_halted (s : State) (count : Nat) (f : Nat → Byte) : (s.loadRegisters count f).halted = s.halted := by dsimp only [loadRegisters]
@[simp] theorem loadRegisters_faultState (s : State) (count : Nat) (f : Nat → Byte) : (s.loadRegisters count f).faultState = s.faultState := by dsimp only [loadRegisters]
@[simp] theorem loadRegisters_runStarted (s : State) (count : Nat) (f : Nat → Byte) : (s.loadRegisters count f).runStarted = s.runStarted := by dsimp only [loadRegisters]
@[simp] theorem loadRegisters_flags (s : State) (count : Nat) (f : Nat → Byte) : (s.loadRegisters count f).flags = s.flags := by dsimp only [loadRegisters]
@[simp] theorem loadRegisters_quirks (s : State) (count : Nat) (f : Nat → Byte) : (s.loadRegisters count f).quirks = s.quirks := by dsimp only [loadRegisters]
@[simp] theorem loadRegisters_variant (s : State) (count : Nat) (f : Nat → Byte) : (s.loadRegisters count f).variant = s.variant := by dsimp only [loadRegisters]
@[simp] theorem loadRegisters_fonts (s : State) (count : Nat) (f : Nat → Byte) : (s.loadRegisters count f).fonts = s.fonts := by dsimp only [loadRegisters]
@[simp] theorem loadRegisters_faultInfo (s : State) (count : Nat) (f : Nat → Byte) : (s.loadRegisters count f).faultInfo = s.faultInfo := by dsimp only [loadRegisters]
@[simp] theorem loadRegisters_signal (s : State) (count : Nat) (f : Nat → Byte) : (s.loadRegisters count f).signal = s.signal := by dsimp only [loadRegisters]
@[simp] theorem loadRegisters_draws (s : State) (count : Nat) (f : Nat → Byte) : (s.loadRegisters count f).draws = s.draws := by dsimp only [loadRegisters]
@[simp] theorem loadRegisters_resetByte (s : State) (count : Nat) (f : Nat → Byte) : (s.loadRegisters count f).resetByte = s.resetByte := by funext a; simp only [resetByte, loadRegisters_fonts, loadRegisters_rom]
@[simp] theorem loadRegisters_readByte (s : State) (count : Nat) (f : Nat → Byte) (a : Nat) : (s.loadRegisters count f).readByte a = s.readByte a := by simp only [readByte, loadRegisters_mem, loadRegisters_resetByte]
@[simp] theorem loadRegisters_width (s : State) (count : Nat) (f : Nat → Byte) : (s.loadRegisters count f).width = s.width := by simp only [width, loadRegisters_hires]
@[simp] theorem loadRegisters_height (s : State) (count : Nat) (f : Nat → Byte) : (s.loadRegisters count f).height = s.height := by simp only [height, loadRegisters_hires]
@[simp] theorem loadRegisters_pixel (s : State) (count : Nat) (f : Nat → Byte) (px py : Nat) : (s.loadRegisters count f).pixel px py = s.pixel px py := by simp only [pixel, loadRegisters_hires, loadRegisters_fbLo, loadRegisters_fbHi]
@[simp] theorem loadRegisters_effAddr (s : State) (count : Nat) (f : Nat → Byte) (k : Nat) : (s.loadRegisters count f).effAddr k = s.effAddr k := by simp only [effAddr, loadRegisters_I]
@[simp] theorem loadRegisters_inBounds (s : State) (count : Nat) (f : Nat → Byte) (last : Nat) : (s.loadRegisters count f).inBounds last = s.inBounds last := by simp only [inBounds, loadRegisters_effAddr]
@[simp] theorem loadRegisters_keyDown (s : State) (count : Nat) (f : Nat → Byte) (key : Byte) : (s.loadRegisters count f).keyDown key = s.keyDown key := by simp only [keyDown, loadRegisters_keys]
@[simp] theorem loadRegisters_readFlag (s : State) (count : Nat) (f : Nat → Byte) (j : Nat) : (s.loadRegisters count f).readFlag j = s.readFlag j := by simp only [readFlag, loadRegisters_flags]

/-! ### saveFlags -/

@[simp] theorem saveFlags_V (s : State) (count : Nat) : (s.saveFlags count).V = s.V := rfl
@[simp] theorem saveFlags_I (s : State) (count : Nat) : (s.saveFlags count).I = s.I := rfl
@[simp] theorem saveFlags_PC (s : State) (count : Nat) : (s.saveFlags count).PC = s.PC := rfl
@[simp] theorem saveFlags_SP (s : State) (count : Nat) : (s.saveFlags count).SP = s.SP := rfl
@[simp] theorem saveFlags_stack (s : State) (count : Nat) : (s.saveFlags count).stack = s.stack := rfl
@[simp] theorem saveFlags_DT (s : State) (count : Nat) : (s.saveFlags count).DT = s.DT := rfl
@[simp] theorem saveFlags_ST (s : State) (count : Nat) : (s.saveFlags count).ST = s.ST := rfl
@[simp] theorem saveFlags_mem (s : State) (count : Nat) : (s.saveFlags count).mem = s.mem := rfl
@[simp] theorem saveFlags_rom (s : State) (count : Nat) : (s.saveFlags count).rom = s.rom := rfl
@[simp] theorem saveFlags_fbLo (s : State) (count : Nat) : (s.saveFlags count).fbLo = s.fbLo := rfl
@[simp] theorem saveFlags_fbHi (s : State) (count : Nat) : (s.saveFlags count).fbHi = s.fbHi := rfl
@[simp] theorem saveFlags_hires (s : State) (count : Nat) : (s.saveFlags count).hires = s.hires := rfl
@[simp] theorem saveFlags_keys (s : State) (count : Nat) : (s.saveFlags count).keys = s.keys := rfl
@[simp] theorem saveFlags_waitKey (s : State) (count : Nat) : (s.saveFlags count).waitKey = s.waitKey := rfl
@[simp] theorem saveFlags_vblankHold (s : State) (count : Nat) : (s.saveFlags count).vblankHold = s.vblankHold := rfl
@[simp] theorem saveFlags_halted (s : State) (count : Nat) : (s.saveFlags count).halted = s.halted := rfl
@[simp] theorem saveFlags_faultState (s : State) (count : Nat) : (s.saveFlags count).faultState = s.faultState := rfl
@[simp] theorem saveFlags_runStarted (s : State) (count : Nat) : (s.saveFlags count).runStarted = s.runStarted := rfl
@[simp] theorem saveFlags_quirks (s : State) (count : Nat) : (s.saveFlags count).quirks = s.quirks := rfl
@[simp] theorem saveFlags_variant (s : State) (count : Nat) : (s.saveFlags count).variant = s.variant := rfl
@[simp] theorem saveFlags_fonts (s : State) (count : Nat) : (s.saveFlags count).fonts = s.fonts := rfl
@[simp] theorem saveFlags_faultInfo (s : State) (count : Nat) : (s.saveFlags count).faultInfo = s.faultInfo := rfl
@[simp] theorem saveFlags_signal (s : State) (count : Nat) : (s.saveFlags count).signal = s.signal := rfl
@[simp] theorem saveFlags_draws (s : State) (count : Nat) : (s.saveFlags count).draws = s.draws := rfl
@[simp] theorem saveFlags_readV (s : State) (count : Nat) (x : Nibble) : (s.saveFlags count).readV x = s.readV x := rfl
@[simp] theorem saveFlags_resetByte (s : State) (count : Nat) : (s.saveFlags count).resetByte = s.resetByte := rfl
@[simp] theorem saveFlags_readByte (s : State) (count : Nat) (a : Nat) : (s.saveFlags count).readByte a = s.readByte a := rfl
@[simp] theorem saveFlags_width (s : State) (count : Nat) : (s.saveFlags count).width = s.width := rfl
@[simp] theorem saveFlags_height (s : State) (count : Nat) : (s.saveFlags count).height = s.height := rfl
@[simp] theorem saveFlags_pixel (s : State) (count : Nat) (px py : Nat) : (s.saveFlags count).pixel px py = s.pixel px py := rfl
@[simp] theorem saveFlags_effAddr (s : State) (count : Nat) (k : Nat) : (s.saveFlags count).effAddr k = s.effAddr k := rfl
@[simp] theorem saveFlags_inBounds (s : State) (count : Nat) (last : Nat) : (s.saveFlags count).inBounds last = s.inBounds last := rfl
@[simp] theorem saveFlags_keyDown (s : State) (count : Nat) (key : Byte) : (s.saveFlags count).keyDown key = s.keyDown key := rfl

/-! ### advancePC -/

@[simp] theorem advancePC_V (s : State) : s.advancePC.V = s.V := rfl
@[simp] theorem advancePC_I (s : State) : s.advancePC.I = s.I := rfl
@[simp] theorem advancePC_PC (s : State) : s.advancePC.PC = s.PC + 2#16 := rfl
@[simp] theorem advancePC_SP (s : State) : s.advancePC.SP = s.SP := rfl
@[simp] theorem advancePC_stack (s : State) : s.advancePC.stack = s.stack := rfl
@[simp] theorem advancePC_DT (s : State) : s.advancePC.DT = s.DT := rfl
@[simp] theorem advancePC_ST (s : State) : s.advancePC.ST = s.ST := rfl
@[simp] theorem advancePC_mem (s : State) : s.advancePC.mem = s.mem := rfl
@[simp] theorem advancePC_rom (s : State) : s.advancePC.rom = s.rom := rfl
@[simp] theorem advancePC_fbLo (s : State) : s.advancePC.fbLo = s.fbLo := rfl
@[simp] theorem advancePC_fbHi (s : State) : s.advancePC.fbHi = s.fbHi := rfl
@[simp] theorem advancePC_hires (s : State) : s.advancePC.hires = s.hires := rfl
@[simp] theorem advancePC_keys (s : State) : s.advancePC.keys = s.keys := rfl
@[simp] theorem advancePC_waitKey (s : State) : s.advancePC.waitKey = s.waitKey := rfl
@[simp] theorem advancePC_vblankHold (s : State) : s.advancePC.vblankHold = s.vblankHold := rfl
@[simp] theorem advancePC_halted (s : State) : s.advancePC.halted = s.halted := rfl
@[simp] theorem advancePC_faultState (s : State) : s.advancePC.faultState = s.faultState := rfl
@[simp] theorem advancePC_runStarted (s : State) : s.advancePC.runStarted = s.runStarted := rfl
@[simp] theorem advancePC_flags (s : State) : s.advancePC.flags = s.flags := rfl
@[simp] theorem advancePC_quirks (s : State) : s.advancePC.quirks = s.quirks := rfl
@[simp] theorem advancePC_variant (s : State) : s.advancePC.variant = s.variant := rfl
@[simp] theorem advancePC_fonts (s : State) : s.advancePC.fonts = s.fonts := rfl
@[simp] theorem advancePC_faultInfo (s : State) : s.advancePC.faultInfo = s.faultInfo := rfl
@[simp] theorem advancePC_signal (s : State) : s.advancePC.signal = s.signal := rfl
@[simp] theorem advancePC_draws (s : State) : s.advancePC.draws = s.draws := rfl
@[simp] theorem advancePC_readV (s : State) (x : Nibble) : s.advancePC.readV x = s.readV x := rfl
@[simp] theorem advancePC_resetByte (s : State) : s.advancePC.resetByte = s.resetByte := rfl
@[simp] theorem advancePC_readByte (s : State) (a : Nat) : s.advancePC.readByte a = s.readByte a := rfl
@[simp] theorem advancePC_width (s : State) : s.advancePC.width = s.width := rfl
@[simp] theorem advancePC_height (s : State) : s.advancePC.height = s.height := rfl
@[simp] theorem advancePC_pixel (s : State) (px py : Nat) : s.advancePC.pixel px py = s.pixel px py := rfl
@[simp] theorem advancePC_effAddr (s : State) (k : Nat) : s.advancePC.effAddr k = s.effAddr k := rfl
@[simp] theorem advancePC_inBounds (s : State) (last : Nat) : s.advancePC.inBounds last = s.inBounds last := rfl
@[simp] theorem advancePC_keyDown (s : State) (key : Byte) : s.advancePC.keyDown key = s.keyDown key := rfl
@[simp] theorem advancePC_readFlag (s : State) (j : Nat) : s.advancePC.readFlag j = s.readFlag j := rfl

/-! ### skipIf -/

@[simp] theorem skipIf_V (s : State) (c : Bool) : (s.skipIf c).V = s.V := rfl
@[simp] theorem skipIf_I (s : State) (c : Bool) : (s.skipIf c).I = s.I := rfl
@[simp] theorem skipIf_PC (s : State) (c : Bool) : (s.skipIf c).PC = if c then s.PC + 2#16 else s.PC := rfl
@[simp] theorem skipIf_SP (s : State) (c : Bool) : (s.skipIf c).SP = s.SP := rfl
@[simp] theorem skipIf_stack (s : State) (c : Bool) : (s.skipIf c).stack = s.stack := rfl
@[simp] theorem skipIf_DT (s : State) (c : Bool) : (s.skipIf c).DT = s.DT := rfl
@[simp] theorem skipIf_ST (s : State) (c : Bool) : (s.skipIf c).ST = s.ST := rfl
@[simp] theorem skipIf_mem (s : State) (c : Bool) : (s.skipIf c).mem = s.mem := rfl
@[simp] theorem skipIf_rom (s : State) (c : Bool) : (s.skipIf c).rom = s.rom := rfl
@[simp] theorem skipIf_fbLo (s : State) (c : Bool) : (s.skipIf c).fbLo = s.fbLo := rfl
@[simp] theorem skipIf_fbHi (s : State) (c : Bool) : (s.skipIf c).fbHi = s.fbHi := rfl
@[simp] theorem skipIf_hires (s : State) (c : Bool) : (s.skipIf c).hires = s.hires := rfl
@[simp] theorem skipIf_keys (s : State) (c : Bool) : (s.skipIf c).keys = s.keys := rfl
@[simp] theorem skipIf_waitKey (s : State) (c : Bool) : (s.skipIf c).waitKey = s.waitKey := rfl
@[simp] theorem skipIf_vblankHold (s : State) (c : Bool) : (s.skipIf c).vblankHold = s.vblankHold := rfl
@[simp] theorem skipIf_halted (s : State) (c : Bool) : (s.skipIf c).halted = s.halted := rfl
@[simp] theorem skipIf_faultState (s : State) (c : Bool) : (s.skipIf c).faultState = s.faultState := rfl
@[simp] theorem skipIf_runStarted (s : State) (c : Bool) : (s.skipIf c).runStarted = s.runStarted := rfl
@[simp] theorem skipIf_flags (s : State) (c : Bool) : (s.skipIf c).flags = s.flags := rfl
@[simp] theorem skipIf_quirks (s : State) (c : Bool) : (s.skipIf c).quirks = s.quirks := rfl
@[simp] theorem skipIf_variant (s : State) (c : Bool) : (s.skipIf c).variant = s.variant := rfl
@[simp] theorem skipIf_fonts (s : State) (c : Bool) : (s.skipIf c).fonts = s.fonts := rfl
@[simp] theorem skipIf_faultInfo (s : State) (c : Bool) : (s.skipIf c).faultInfo = s.faultInfo := rfl
@[simp] theorem skipIf_signal (s : State) (c : Bool) : (s.skipIf c).signal = s.signal := rfl
@[simp] theorem skipIf_draws (s : State) (c : Bool) : (s.skipIf c).draws = s.draws := rfl
@[simp] theorem skipIf_readV (s : State) (c : Bool) (x : Nibble) : (s.skipIf c).readV x = s.readV x := rfl
@[simp] theorem skipIf_resetByte (s : State) (c : Bool) : (s.skipIf c).resetByte = s.resetByte := rfl
@[simp] theorem skipIf_readByte (s : State) (c : Bool) (a : Nat) : (s.skipIf c).readByte a = s.readByte a := rfl
@[simp] theorem skipIf_width (s : State) (c : Bool) : (s.skipIf c).width = s.width := rfl
@[simp] theorem skipIf_height (s : State) (c : Bool) : (s.skipIf c).height = s.height := rfl
@[simp] theorem skipIf_pixel (s : State) (c : Bool) (px py : Nat) : (s.skipIf c).pixel px py = s.pixel px py := rfl
@[simp] theorem skipIf_effAddr (s : State) (c : Bool) (k : Nat) : (s.skipIf c).effAddr k = s.effAddr k := rfl
@[simp] theorem skipIf_inBounds (s : State) (c : Bool) (last : Nat) : (s.skipIf c).inBounds last = s.inBounds last := rfl
@[simp] theorem skipIf_keyDown (s : State) (c : Bool) (key : Byte) : (s.skipIf c).keyDown key = s.keyDown key := rfl
@[simp] theorem skipIf_readFlag (s : State) (c : Bool) (j : Nat) : (s.skipIf c).readFlag j = s.readFlag j := rfl

/-! ### jump -/

@[simp] theorem jump_V (s : State) (target : Word16) : (s.jump target).V = s.V := rfl
@[simp] theorem jump_I (s : State) (target : Word16) : (s.jump target).I = s.I := rfl
@[simp] theorem jump_PC (s : State) (target : Word16) : (s.jump target).PC = target := rfl
@[simp] theorem jump_SP (s : State) (target : Word16) : (s.jump target).SP = s.SP := rfl
@[simp] theorem jump_stack (s : State) (target : Word16) : (s.jump target).stack = s.stack := rfl
@[simp] theorem jump_DT (s : State) (target : Word16) : (s.jump target).DT = s.DT := rfl
@[simp] theorem jump_ST (s : State) (target : Word16) : (s.jump target).ST = s.ST := rfl
@[simp] theorem jump_mem (s : State) (target : Word16) : (s.jump target).mem = s.mem := rfl
@[simp] theorem jump_rom (s : State) (target : Word16) : (s.jump target).rom = s.rom := rfl
@[simp] theorem jump_fbLo (s : State) (target : Word16) : (s.jump target).fbLo = s.fbLo := rfl
@[simp] theorem jump_fbHi (s : State) (target : Word16) : (s.jump target).fbHi = s.fbHi := rfl
@[simp] theorem jump_hires (s : State) (target : Word16) : (s.jump target).hires = s.hires := rfl
@[simp] theorem jump_keys (s : State) (target : Word16) : (s.jump target).keys = s.keys := rfl
@[simp] theorem jump_waitKey (s : State) (target : Word16) : (s.jump target).waitKey = s.waitKey := rfl
@[simp] theorem jump_vblankHold (s : State) (target : Word16) : (s.jump target).vblankHold = s.vblankHold := rfl
@[simp] theorem jump_halted (s : State) (target : Word16) : (s.jump target).halted = s.halted := rfl
@[simp] theorem jump_faultState (s : State) (target : Word16) : (s.jump target).faultState = s.faultState := rfl
@[simp] theorem jump_runStarted (s : State) (target : Word16) : (s.jump target).runStarted = s.runStarted := rfl
@[simp] theorem jump_flags (s : State) (target : Word16) : (s.jump target).flags = s.flags := rfl
@[simp] theorem jump_quirks (s : State) (target : Word16) : (s.jump target).quirks = s.quirks := rfl
@[simp] theorem jump_variant (s : State) (target : Word16) : (s.jump target).variant = s.variant := rfl
@[simp] theorem jump_fonts (s : State) (target : Word16) : (s.jump target).fonts = s.fonts := rfl
@[simp] theorem jump_faultInfo (s : State) (target : Word16) : (s.jump target).faultInfo = s.faultInfo := rfl
@[simp] theorem jump_signal (s : State) (target : Word16) : (s.jump target).signal = s.signal := rfl
@[simp] theorem jump_draws (s : State) (target : Word16) : (s.jump target).draws = s.draws := rfl
@[simp] theorem jump_readV (s : State) (target : Word16) (x : Nibble) : (s.jump target).readV x = s.readV x := rfl
@[simp] theorem jump_resetByte (s : State) (target : Word16) : (s.jump target).resetByte = s.resetByte := rfl
@[simp] theorem jump_readByte (s : State) (target : Word16) (a : Nat) : (s.jump target).readByte a = s.readByte a := rfl
@[simp] theorem jump_width (s : State) (target : Word16) : (s.jump target).width = s.width := rfl
@[simp] theorem jump_height (s : State) (target : Word16) : (s.jump target).height = s.height := rfl
@[simp] theorem jump_pixel (s : State) (target : Word16) (px py : Nat) : (s.jump target).pixel px py = s.pixel px py := rfl
@[simp] theorem jump_effAddr (s : State) (target : Word16) (k : Nat) : (s.jump target).effAddr k = s.effAddr k := rfl
@[simp] theorem jump_inBounds (s : State) (target : Word16) (last : Nat) : (s.jump target).inBounds last = s.inBounds last := rfl
@[simp] theorem jump_keyDown (s : State) (target : Word16) (key : Byte) : (s.jump target).keyDown key = s.keyDown key := rfl
@[simp] theorem jump_readFlag (s : State) (target : Word16) (j : Nat) : (s.jump target).readFlag j = s.readFlag j := rfl

/-! ### pushAndJump -/

@[simp] theorem pushAndJump_V (s : State) (h : s.SP.val < Config.stackDepth) (ret target : Word16) : (s.pushAndJump h ret target).V = s.V := rfl
@[simp] theorem pushAndJump_I (s : State) (h : s.SP.val < Config.stackDepth) (ret target : Word16) : (s.pushAndJump h ret target).I = s.I := rfl
@[simp] theorem pushAndJump_PC (s : State) (h : s.SP.val < Config.stackDepth) (ret target : Word16) : (s.pushAndJump h ret target).PC = target := rfl
@[simp] theorem pushAndJump_stack (s : State) (h : s.SP.val < Config.stackDepth) (ret target : Word16) : (s.pushAndJump h ret target).stack = s.stack.set s.SP.val ret := rfl
@[simp] theorem pushAndJump_DT (s : State) (h : s.SP.val < Config.stackDepth) (ret target : Word16) : (s.pushAndJump h ret target).DT = s.DT := rfl
@[simp] theorem pushAndJump_ST (s : State) (h : s.SP.val < Config.stackDepth) (ret target : Word16) : (s.pushAndJump h ret target).ST = s.ST := rfl
@[simp] theorem pushAndJump_mem (s : State) (h : s.SP.val < Config.stackDepth) (ret target : Word16) : (s.pushAndJump h ret target).mem = s.mem := rfl
@[simp] theorem pushAndJump_rom (s : State) (h : s.SP.val < Config.stackDepth) (ret target : Word16) : (s.pushAndJump h ret target).rom = s.rom := rfl
@[simp] theorem pushAndJump_fbLo (s : State) (h : s.SP.val < Config.stackDepth) (ret target : Word16) : (s.pushAndJump h ret target).fbLo = s.fbLo := rfl
@[simp] theorem pushAndJump_fbHi (s : State) (h : s.SP.val < Config.stackDepth) (ret target : Word16) : (s.pushAndJump h ret target).fbHi = s.fbHi := rfl
@[simp] theorem pushAndJump_hires (s : State) (h : s.SP.val < Config.stackDepth) (ret target : Word16) : (s.pushAndJump h ret target).hires = s.hires := rfl
@[simp] theorem pushAndJump_keys (s : State) (h : s.SP.val < Config.stackDepth) (ret target : Word16) : (s.pushAndJump h ret target).keys = s.keys := rfl
@[simp] theorem pushAndJump_waitKey (s : State) (h : s.SP.val < Config.stackDepth) (ret target : Word16) : (s.pushAndJump h ret target).waitKey = s.waitKey := rfl
@[simp] theorem pushAndJump_vblankHold (s : State) (h : s.SP.val < Config.stackDepth) (ret target : Word16) : (s.pushAndJump h ret target).vblankHold = s.vblankHold := rfl
@[simp] theorem pushAndJump_halted (s : State) (h : s.SP.val < Config.stackDepth) (ret target : Word16) : (s.pushAndJump h ret target).halted = s.halted := rfl
@[simp] theorem pushAndJump_faultState (s : State) (h : s.SP.val < Config.stackDepth) (ret target : Word16) : (s.pushAndJump h ret target).faultState = s.faultState := rfl
@[simp] theorem pushAndJump_runStarted (s : State) (h : s.SP.val < Config.stackDepth) (ret target : Word16) : (s.pushAndJump h ret target).runStarted = s.runStarted := rfl
@[simp] theorem pushAndJump_flags (s : State) (h : s.SP.val < Config.stackDepth) (ret target : Word16) : (s.pushAndJump h ret target).flags = s.flags := rfl
@[simp] theorem pushAndJump_quirks (s : State) (h : s.SP.val < Config.stackDepth) (ret target : Word16) : (s.pushAndJump h ret target).quirks = s.quirks := rfl
@[simp] theorem pushAndJump_variant (s : State) (h : s.SP.val < Config.stackDepth) (ret target : Word16) : (s.pushAndJump h ret target).variant = s.variant := rfl
@[simp] theorem pushAndJump_fonts (s : State) (h : s.SP.val < Config.stackDepth) (ret target : Word16) : (s.pushAndJump h ret target).fonts = s.fonts := rfl
@[simp] theorem pushAndJump_faultInfo (s : State) (h : s.SP.val < Config.stackDepth) (ret target : Word16) : (s.pushAndJump h ret target).faultInfo = s.faultInfo := rfl
@[simp] theorem pushAndJump_signal (s : State) (h : s.SP.val < Config.stackDepth) (ret target : Word16) : (s.pushAndJump h ret target).signal = s.signal := rfl
@[simp] theorem pushAndJump_draws (s : State) (h : s.SP.val < Config.stackDepth) (ret target : Word16) : (s.pushAndJump h ret target).draws = s.draws := rfl
@[simp] theorem pushAndJump_readV (s : State) (h : s.SP.val < Config.stackDepth) (ret target : Word16) (x : Nibble) : (s.pushAndJump h ret target).readV x = s.readV x := rfl
@[simp] theorem pushAndJump_resetByte (s : State) (h : s.SP.val < Config.stackDepth) (ret target : Word16) : (s.pushAndJump h ret target).resetByte = s.resetByte := rfl
@[simp] theorem pushAndJump_readByte (s : State) (h : s.SP.val < Config.stackDepth) (ret target : Word16) (a : Nat) : (s.pushAndJump h ret target).readByte a = s.readByte a := rfl
@[simp] theorem pushAndJump_width (s : State) (h : s.SP.val < Config.stackDepth) (ret target : Word16) : (s.pushAndJump h ret target).width = s.width := rfl
@[simp] theorem pushAndJump_height (s : State) (h : s.SP.val < Config.stackDepth) (ret target : Word16) : (s.pushAndJump h ret target).height = s.height := rfl
@[simp] theorem pushAndJump_pixel (s : State) (h : s.SP.val < Config.stackDepth) (ret target : Word16) (px py : Nat) : (s.pushAndJump h ret target).pixel px py = s.pixel px py := rfl
@[simp] theorem pushAndJump_effAddr (s : State) (h : s.SP.val < Config.stackDepth) (ret target : Word16) (k : Nat) : (s.pushAndJump h ret target).effAddr k = s.effAddr k := rfl
@[simp] theorem pushAndJump_inBounds (s : State) (h : s.SP.val < Config.stackDepth) (ret target : Word16) (last : Nat) : (s.pushAndJump h ret target).inBounds last = s.inBounds last := rfl
@[simp] theorem pushAndJump_keyDown (s : State) (h : s.SP.val < Config.stackDepth) (ret target : Word16) (key : Byte) : (s.pushAndJump h ret target).keyDown key = s.keyDown key := rfl
@[simp] theorem pushAndJump_readFlag (s : State) (h : s.SP.val < Config.stackDepth) (ret target : Word16) (j : Nat) : (s.pushAndJump h ret target).readFlag j = s.readFlag j := rfl

/-! ### popAndJump -/

@[simp] theorem popAndJump_V (s : State) (h : 0 < s.SP.val) : (s.popAndJump h).V = s.V := rfl
@[simp] theorem popAndJump_I (s : State) (h : 0 < s.SP.val) : (s.popAndJump h).I = s.I := rfl
@[simp] theorem popAndJump_stack (s : State) (h : 0 < s.SP.val) : (s.popAndJump h).stack = s.stack := rfl
@[simp] theorem popAndJump_DT (s : State) (h : 0 < s.SP.val) : (s.popAndJump h).DT = s.DT := rfl
@[simp] theorem popAndJump_ST (s : State) (h : 0 < s.SP.val) : (s.popAndJump h).ST = s.ST := rfl
@[simp] theorem popAndJump_mem (s : State) (h : 0 < s.SP.val) : (s.popAndJump h).mem = s.mem := rfl
@[simp] theorem popAndJump_rom (s : State) (h : 0 < s.SP.val) : (s.popAndJump h).rom = s.rom := rfl
@[simp] theorem popAndJump_fbLo (s : State) (h : 0 < s.SP.val) : (s.popAndJump h).fbLo = s.fbLo := rfl
@[simp] theorem popAndJump_fbHi (s : State) (h : 0 < s.SP.val) : (s.popAndJump h).fbHi = s.fbHi := rfl
@[simp] theorem popAndJump_hires (s : State) (h : 0 < s.SP.val) : (s.popAndJump h).hires = s.hires := rfl
@[simp] theorem popAndJump_keys (s : State) (h : 0 < s.SP.val) : (s.popAndJump h).keys = s.keys := rfl
@[simp] theorem popAndJump_waitKey (s : State) (h : 0 < s.SP.val) : (s.popAndJump h).waitKey = s.waitKey := rfl
@[simp] theorem popAndJump_vblankHold (s : State) (h : 0 < s.SP.val) : (s.popAndJump h).vblankHold = s.vblankHold := rfl
@[simp] theorem popAndJump_halted (s : State) (h : 0 < s.SP.val) : (s.popAndJump h).halted = s.halted := rfl
@[simp] theorem popAndJump_faultState (s : State) (h : 0 < s.SP.val) : (s.popAndJump h).faultState = s.faultState := rfl
@[simp] theorem popAndJump_runStarted (s : State) (h : 0 < s.SP.val) : (s.popAndJump h).runStarted = s.runStarted := rfl
@[simp] theorem popAndJump_flags (s : State) (h : 0 < s.SP.val) : (s.popAndJump h).flags = s.flags := rfl
@[simp] theorem popAndJump_quirks (s : State) (h : 0 < s.SP.val) : (s.popAndJump h).quirks = s.quirks := rfl
@[simp] theorem popAndJump_variant (s : State) (h : 0 < s.SP.val) : (s.popAndJump h).variant = s.variant := rfl
@[simp] theorem popAndJump_fonts (s : State) (h : 0 < s.SP.val) : (s.popAndJump h).fonts = s.fonts := rfl
@[simp] theorem popAndJump_faultInfo (s : State) (h : 0 < s.SP.val) : (s.popAndJump h).faultInfo = s.faultInfo := rfl
@[simp] theorem popAndJump_signal (s : State) (h : 0 < s.SP.val) : (s.popAndJump h).signal = s.signal := rfl
@[simp] theorem popAndJump_draws (s : State) (h : 0 < s.SP.val) : (s.popAndJump h).draws = s.draws := rfl
@[simp] theorem popAndJump_readV (s : State) (h : 0 < s.SP.val) (x : Nibble) : (s.popAndJump h).readV x = s.readV x := rfl
@[simp] theorem popAndJump_resetByte (s : State) (h : 0 < s.SP.val) : (s.popAndJump h).resetByte = s.resetByte := rfl
@[simp] theorem popAndJump_readByte (s : State) (h : 0 < s.SP.val) (a : Nat) : (s.popAndJump h).readByte a = s.readByte a := rfl
@[simp] theorem popAndJump_width (s : State) (h : 0 < s.SP.val) : (s.popAndJump h).width = s.width := rfl
@[simp] theorem popAndJump_height (s : State) (h : 0 < s.SP.val) : (s.popAndJump h).height = s.height := rfl
@[simp] theorem popAndJump_pixel (s : State) (h : 0 < s.SP.val) (px py : Nat) : (s.popAndJump h).pixel px py = s.pixel px py := rfl
@[simp] theorem popAndJump_effAddr (s : State) (h : 0 < s.SP.val) (k : Nat) : (s.popAndJump h).effAddr k = s.effAddr k := rfl
@[simp] theorem popAndJump_inBounds (s : State) (h : 0 < s.SP.val) (last : Nat) : (s.popAndJump h).inBounds last = s.inBounds last := rfl
@[simp] theorem popAndJump_keyDown (s : State) (h : 0 < s.SP.val) (key : Byte) : (s.popAndJump h).keyDown key = s.keyDown key := rfl
@[simp] theorem popAndJump_readFlag (s : State) (h : 0 < s.SP.val) (j : Nat) : (s.popAndJump h).readFlag j = s.readFlag j := rfl

/-! ### writeByte -/

@[simp] theorem writeByte_V (s : State) (adr : Nat) (b : Byte) : (s.writeByte adr b).V = s.V := rfl
@[simp] theorem writeByte_I (s : State) (adr : Nat) (b : Byte) : (s.writeByte adr b).I = s.I := rfl
@[simp] theorem writeByte_PC (s : State) (adr : Nat) (b : Byte) : (s.writeByte adr b).PC = s.PC := rfl
@[simp] theorem writeByte_SP (s : State) (adr : Nat) (b : Byte) : (s.writeByte adr b).SP = s.SP := rfl
@[simp] theorem writeByte_stack (s : State) (adr : Nat) (b : Byte) : (s.writeByte adr b).stack = s.stack := rfl
@[simp] theorem writeByte_DT (s : State) (adr : Nat) (b : Byte) : (s.writeByte adr b).DT = s.DT := rfl
@[simp] theorem writeByte_ST (s : State) (adr : Nat) (b : Byte) : (s.writeByte adr b).ST = s.ST := rfl
@[simp] theorem writeByte_rom (s : State) (adr : Nat) (b : Byte) : (s.writeByte adr b).rom = s.rom := rfl
@[simp] theorem writeByte_fbLo (s : State) (adr : Nat) (b : Byte) : (s.writeByte adr b).fbLo = s.fbLo := rfl
@[simp] theorem writeByte_fbHi (s : State) (adr : Nat) (b : Byte) : (s.writeByte adr b).fbHi = s.fbHi := rfl
@[simp] theorem writeByte_hires (s : State) (adr : Nat) (b : Byte) : (s.writeByte adr b).hires = s.hires := rfl
@[simp] theorem writeByte_keys (s : State) (adr : Nat) (b : Byte) : (s.writeByte adr b).keys = s.keys := rfl
@[simp] theorem writeByte_waitKey (s : State) (adr : Nat) (b : Byte) : (s.writeByte adr b).waitKey = s.waitKey := rfl
@[simp] theorem writeByte_vblankHold (s : State) (adr : Nat) (b : Byte) : (s.writeByte adr b).vblankHold = s.vblankHold := rfl
@[simp] theorem writeByte_halted (s : State) (adr : Nat) (b : Byte) : (s.writeByte adr b).halted = s.halted := rfl
@[simp] theorem writeByte_faultState (s : State) (adr : Nat) (b : Byte) : (s.writeByte adr b).faultState = s.faultState := rfl
@[simp] theorem writeByte_runStarted (s : State) (adr : Nat) (b : Byte) : (s.writeByte adr b).runStarted = s.runStarted := rfl
@[simp] theorem writeByte_flags (s : State) (adr : Nat) (b : Byte) : (s.writeByte adr b).flags = s.flags := rfl
@[simp] theorem writeByte_quirks (s : State) (adr : Nat) (b : Byte) : (s.writeByte adr b).quirks = s.quirks := rfl
@[simp] theorem writeByte_variant (s : State) (adr : Nat) (b : Byte) : (s.writeByte adr b).variant = s.variant := rfl
@[simp] theorem writeByte_fonts (s : State) (adr : Nat) (b : Byte) : (s.writeByte adr b).fonts = s.fonts := rfl
@[simp] theorem writeByte_faultInfo (s : State) (adr : Nat) (b : Byte) : (s.writeByte adr b).faultInfo = s.faultInfo := rfl
@[simp] theorem writeByte_signal (s : State) (adr : Nat) (b : Byte) : (s.writeByte adr b).signal = s.signal := rfl
@[simp] theorem writeByte_draws (s : State) (adr : Nat) (b : Byte) : (s.writeByte adr b).draws = s.draws := rfl
@[simp] theorem writeByte_readV (s : State) (adr : Nat) (b : Byte) (x : Nibble) : (s.writeByte adr b).readV x = s.readV x := rfl
@[simp] theorem writeByte_resetByte (s : State) (adr : Nat) (b : Byte) : (s.writeByte adr b).resetByte = s.resetByte := rfl
@[simp] theorem writeByte_width (s : State) (adr : Nat) (b : Byte) : (s.writeByte adr b).width = s.width := rfl
@[simp] theorem writeByte_height (s : State) (adr : Nat) (b : Byte) : (s.writeByte adr b).height = s.height := rfl
@[simp] theorem writeByte_pixel (s : State) (adr : Nat) (b : Byte) (px py : Nat) : (s.writeByte adr b).pixel px py = s.pixel px py := rfl
@[simp] theorem writeByte_effAddr (s : State) (adr : Nat) (b : Byte) (k : Nat) : (s.writeByte adr b).effAddr k = s.effAddr k := rfl
@[simp] theorem writeByte_inBounds (s : State) (adr : Nat) (b : Byte) (last : Nat) : (s.writeByte adr b).inBounds last = s.inBounds last := rfl
@[simp] theorem writeByte_keyDown (s : State) (adr : Nat) (b : Byte) (key : Byte) : (s.writeByte adr b).keyDown key = s.keyDown key := rfl
@[simp] theorem writeByte_readFlag (s : State) (adr : Nat) (b : Byte) (j : Nat) : (s.writeByte adr b).readFlag j = s.readFlag j := rfl

/-! ### updateScreen -/

@[simp] theorem updateScreen_V (s : State) (f : ∀ {w h : Nat}, Framebuffer w h → Framebuffer w h) : (s.updateScreen f).V = s.V := rfl
@[simp] theorem updateScreen_I (s : State) (f : ∀ {w h : Nat}, Framebuffer w h → Framebuffer w h) : (s.updateScreen f).I = s.I := rfl
@[simp] theorem updateScreen_PC (s : State) (f : ∀ {w h : Nat}, Framebuffer w h → Framebuffer w h) : (s.updateScreen f).PC = s.PC := rfl
@[simp] theorem updateScreen_SP (s : State) (f : ∀ {w h : Nat}, Framebuffer w h → Framebuffer w h) : (s.updateScreen f).SP = s.SP := rfl
@[simp] theorem updateScreen_stack (s : State) (f : ∀ {w h : Nat}, Framebuffer w h → Framebuffer w h) : (s.updateScreen f).stack = s.stack := rfl
@[simp] theorem updateScreen_DT (s : State) (f : ∀ {w h : Nat}, Framebuffer w h → Framebuffer w h) : (s.updateScreen f).DT = s.DT := rfl
@[simp] theorem updateScreen_ST (s : State) (f : ∀ {w h : Nat}, Framebuffer w h → Framebuffer w h) : (s.updateScreen f).ST = s.ST := rfl
@[simp] theorem updateScreen_mem (s : State) (f : ∀ {w h : Nat}, Framebuffer w h → Framebuffer w h) : (s.updateScreen f).mem = s.mem := rfl
@[simp] theorem updateScreen_rom (s : State) (f : ∀ {w h : Nat}, Framebuffer w h → Framebuffer w h) : (s.updateScreen f).rom = s.rom := rfl
@[simp] theorem updateScreen_hires (s : State) (f : ∀ {w h : Nat}, Framebuffer w h → Framebuffer w h) : (s.updateScreen f).hires = s.hires := rfl
@[simp] theorem updateScreen_keys (s : State) (f : ∀ {w h : Nat}, Framebuffer w h → Framebuffer w h) : (s.updateScreen f).keys = s.keys := rfl
@[simp] theorem updateScreen_waitKey (s : State) (f : ∀ {w h : Nat}, Framebuffer w h → Framebuffer w h) : (s.updateScreen f).waitKey = s.waitKey := rfl
@[simp] theorem updateScreen_vblankHold (s : State) (f : ∀ {w h : Nat}, Framebuffer w h → Framebuffer w h) : (s.updateScreen f).vblankHold = s.vblankHold := rfl
@[simp] theorem updateScreen_halted (s : State) (f : ∀ {w h : Nat}, Framebuffer w h → Framebuffer w h) : (s.updateScreen f).halted = s.halted := rfl
@[simp] theorem updateScreen_faultState (s : State) (f : ∀ {w h : Nat}, Framebuffer w h → Framebuffer w h) : (s.updateScreen f).faultState = s.faultState := rfl
@[simp] theorem updateScreen_runStarted (s : State) (f : ∀ {w h : Nat}, Framebuffer w h → Framebuffer w h) : (s.updateScreen f).runStarted = s.runStarted := rfl
@[simp] theorem updateScreen_flags (s : State) (f : ∀ {w h : Nat}, Framebuffer w h → Framebuffer w h) : (s.updateScreen f).flags = s.flags := rfl
@[simp] theorem updateScreen_quirks (s : State) (f : ∀ {w h : Nat}, Framebuffer w h → Framebuffer w h) : (s.updateScreen f).quirks = s.quirks := rfl
@[simp] theorem updateScreen_variant (s : State) (f : ∀ {w h : Nat}, Framebuffer w h → Framebuffer w h) : (s.updateScreen f).variant = s.variant := rfl
@[simp] theorem updateScreen_fonts (s : State) (f : ∀ {w h : Nat}, Framebuffer w h → Framebuffer w h) : (s.updateScreen f).fonts = s.fonts := rfl
@[simp] theorem updateScreen_faultInfo (s : State) (f : ∀ {w h : Nat}, Framebuffer w h → Framebuffer w h) : (s.updateScreen f).faultInfo = s.faultInfo := rfl
@[simp] theorem updateScreen_signal (s : State) (f : ∀ {w h : Nat}, Framebuffer w h → Framebuffer w h) : (s.updateScreen f).signal = s.signal := rfl
@[simp] theorem updateScreen_draws (s : State) (f : ∀ {w h : Nat}, Framebuffer w h → Framebuffer w h) : (s.updateScreen f).draws = s.draws := rfl
@[simp] theorem updateScreen_readV (s : State) (f : ∀ {w h : Nat}, Framebuffer w h → Framebuffer w h) (x : Nibble) : (s.updateScreen f).readV x = s.readV x := rfl
@[simp] theorem updateScreen_resetByte (s : State) (f : ∀ {w h : Nat}, Framebuffer w h → Framebuffer w h) : (s.updateScreen f).resetByte = s.resetByte := rfl
@[simp] theorem updateScreen_readByte (s : State) (f : ∀ {w h : Nat}, Framebuffer w h → Framebuffer w h) (a : Nat) : (s.updateScreen f).readByte a = s.readByte a := rfl
@[simp] theorem updateScreen_width (s : State) (f : ∀ {w h : Nat}, Framebuffer w h → Framebuffer w h) : (s.updateScreen f).width = s.width := rfl
@[simp] theorem updateScreen_height (s : State) (f : ∀ {w h : Nat}, Framebuffer w h → Framebuffer w h) : (s.updateScreen f).height = s.height := rfl
@[simp] theorem updateScreen_effAddr (s : State) (f : ∀ {w h : Nat}, Framebuffer w h → Framebuffer w h) (k : Nat) : (s.updateScreen f).effAddr k = s.effAddr k := rfl
@[simp] theorem updateScreen_inBounds (s : State) (f : ∀ {w h : Nat}, Framebuffer w h → Framebuffer w h) (last : Nat) : (s.updateScreen f).inBounds last = s.inBounds last := rfl
@[simp] theorem updateScreen_keyDown (s : State) (f : ∀ {w h : Nat}, Framebuffer w h → Framebuffer w h) (key : Byte) : (s.updateScreen f).keyDown key = s.keyDown key := rfl
@[simp] theorem updateScreen_readFlag (s : State) (f : ∀ {w h : Nat}, Framebuffer w h → Framebuffer w h) (j : Nat) : (s.updateScreen f).readFlag j = s.readFlag j := rfl

/-! ### switchResolution -/

@[simp] theorem switchResolution_V (s : State) (b : Bool) : (s.switchResolution b).V = s.V := rfl
@[simp] theorem switchResolution_I (s : State) (b : Bool) : (s.switchResolution b).I = s.I := rfl
@[simp] theorem switchResolution_PC (s : State) (b : Bool) : (s.switchResolution b).PC = s.PC := rfl
@[simp] theorem switchResolution_SP (s : State) (b : Bool) : (s.switchResolution b).SP = s.SP := rfl
@[simp] theorem switchResolution_stack (s : State) (b : Bool) : (s.switchResolution b).stack = s.stack := rfl
@[simp] theorem switchResolution_DT (s : State) (b : Bool) : (s.switchResolution b).DT = s.DT := rfl
@[simp] theorem switchResolution_ST (s : State) (b : Bool) : (s.switchResolution b).ST = s.ST := rfl
@[simp] theorem switchResolution_mem (s : State) (b : Bool) : (s.switchResolution b).mem = s.mem := rfl
@[simp] theorem switchResolution_rom (s : State) (b : Bool) : (s.switchResolution b).rom = s.rom := rfl
@[simp] theorem switchResolution_fbLo (s : State) (b : Bool) : (s.switchResolution b).fbLo = Framebuffer.blank := rfl
@[simp] theorem switchResolution_fbHi (s : State) (b : Bool) : (s.switchResolution b).fbHi = Framebuffer.blank := rfl
@[simp] theorem switchResolution_hires (s : State) (b : Bool) : (s.switchResolution b).hires = b := rfl
@[simp] theorem switchResolution_keys (s : State) (b : Bool) : (s.switchResolution b).keys = s.keys := rfl
@[simp] theorem switchResolution_waitKey (s : State) (b : Bool) : (s.switchResolution b).waitKey = s.waitKey := rfl
@[simp] theorem switchResolution_vblankHold (s : State) (b : Bool) : (s.switchResolution b).vblankHold = s.vblankHold := rfl
@[simp] theorem switchResolution_halted (s : State) (b : Bool) : (s.switchResolution b).halted = s.halted := rfl
@[simp] theorem switchResolution_faultState (s : State) (b : Bool) : (s.switchResolution b).faultState = s.faultState := rfl
@[simp] theorem switchResolution_runStarted (s : State) (b : Bool) : (s.switchResolution b).runStarted = s.runStarted := rfl
@[simp] theorem switchResolution_flags (s : State) (b : Bool) : (s.switchResolution b).flags = s.flags := rfl
@[simp] theorem switchResolution_quirks (s : State) (b : Bool) : (s.switchResolution b).quirks = s.quirks := rfl
@[simp] theorem switchResolution_variant (s : State) (b : Bool) : (s.switchResolution b).variant = s.variant := rfl
@[simp] theorem switchResolution_fonts (s : State) (b : Bool) : (s.switchResolution b).fonts = s.fonts := rfl
@[simp] theorem switchResolution_faultInfo (s : State) (b : Bool) : (s.switchResolution b).faultInfo = s.faultInfo := rfl
@[simp] theorem switchResolution_signal (s : State) (b : Bool) : (s.switchResolution b).signal = s.signal := rfl
@[simp] theorem switchResolution_draws (s : State) (b : Bool) : (s.switchResolution b).draws = s.draws := rfl
@[simp] theorem switchResolution_readV (s : State) (b : Bool) (x : Nibble) : (s.switchResolution b).readV x = s.readV x := rfl
@[simp] theorem switchResolution_resetByte (s : State) (b : Bool) : (s.switchResolution b).resetByte = s.resetByte := rfl
@[simp] theorem switchResolution_readByte (s : State) (b : Bool) (a : Nat) : (s.switchResolution b).readByte a = s.readByte a := rfl
@[simp] theorem switchResolution_effAddr (s : State) (b : Bool) (k : Nat) : (s.switchResolution b).effAddr k = s.effAddr k := rfl
@[simp] theorem switchResolution_inBounds (s : State) (b : Bool) (last : Nat) : (s.switchResolution b).inBounds last = s.inBounds last := rfl
@[simp] theorem switchResolution_keyDown (s : State) (b : Bool) (key : Byte) : (s.switchResolution b).keyDown key = s.keyDown key := rfl
@[simp] theorem switchResolution_readFlag (s : State) (b : Bool) (j : Nat) : (s.switchResolution b).readFlag j = s.readFlag j := rfl

/-! ### signalRedraw -/

@[simp] theorem signalRedraw_V (s : State) : s.signalRedraw.V = s.V := rfl
@[simp] theorem signalRedraw_I (s : State) : s.signalRedraw.I = s.I := rfl
@[simp] theorem signalRedraw_PC (s : State) : s.signalRedraw.PC = s.PC := rfl
@[simp] theorem signalRedraw_SP (s : State) : s.signalRedraw.SP = s.SP := rfl
@[simp] theorem signalRedraw_stack (s : State) : s.signalRedraw.stack = s.stack := rfl
@[simp] theorem signalRedraw_DT (s : State) : s.signalRedraw.DT = s.DT := rfl
@[simp] theorem signalRedraw_ST (s : State) : s.signalRedraw.ST = s.ST := rfl
@[simp] theorem signalRedraw_mem (s : State) : s.signalRedraw.mem = s.mem := rfl
@[simp] theorem signalRedraw_rom (s : State) : s.signalRedraw.rom = s.rom := rfl
@[simp] theorem signalRedraw_fbLo (s : State) : s.signalRedraw.fbLo = s.fbLo := rfl
@[simp] theorem signalRedraw_fbHi (s : State) : s.signalRedraw.fbHi = s.fbHi := rfl
@[simp] theorem signalRedraw_hires (s : State) : s.signalRedraw.hires = s.hires := rfl
@[simp] theorem signalRedraw_keys (s : State) : s.signalRedraw.keys = s.keys := rfl
@[simp] theorem signalRedraw_waitKey (s : State) : s.signalRedraw.waitKey = s.waitKey := rfl
@[simp] theorem signalRedraw_vblankHold (s : State) : s.signalRedraw.vblankHold = s.vblankHold := rfl
@[simp] theorem signalRedraw_halted (s : State) : s.signalRedraw.halted = s.halted := rfl
@[simp] theorem signalRedraw_faultState (s : State) : s.signalRedraw.faultState = s.faultState := rfl
@[simp] theorem signalRedraw_runStarted (s : State) : s.signalRedraw.runStarted = s.runStarted := rfl
@[simp] theorem signalRedraw_flags (s : State) : s.signalRedraw.flags = s.flags := rfl
@[simp] theorem signalRedraw_quirks (s : State) : s.signalRedraw.quirks = s.quirks := rfl
@[simp] theorem signalRedraw_variant (s : State) : s.signalRedraw.variant = s.variant := rfl
@[simp] theorem signalRedraw_fonts (s : State) : s.signalRedraw.fonts = s.fonts := rfl
@[simp] theorem signalRedraw_faultInfo (s : State) : s.signalRedraw.faultInfo = s.faultInfo := rfl
@[simp] theorem signalRedraw_signal (s : State) : s.signalRedraw.signal = { s.signal with redraw := true } := rfl
@[simp] theorem signalRedraw_draws (s : State) : s.signalRedraw.draws = s.draws := rfl
@[simp] theorem signalRedraw_readV (s : State) (x : Nibble) : s.signalRedraw.readV x = s.readV x := rfl
@[simp] theorem signalRedraw_resetByte (s : State) : s.signalRedraw.resetByte = s.resetByte := rfl
@[simp] theorem signalRedraw_readByte (s : State) (a : Nat) : s.signalRedraw.readByte a = s.readByte a := rfl
@[simp] theorem signalRedraw_width (s : State) : s.signalRedraw.width = s.width := rfl
@[simp] theorem signalRedraw_height (s : State) : s.signalRedraw.height = s.height := rfl
@[simp] theorem signalRedraw_pixel (s : State) (px py : Nat) : s.signalRedraw.pixel px py = s.pixel px py := rfl
@[simp] theorem signalRedraw_effAddr (s : State) (k : Nat) : s.signalRedraw.effAddr k = s.effAddr k := rfl
@[simp] theorem signalRedraw_inBounds (s : State) (last : Nat) : s.signalRedraw.inBounds last = s.inBounds last := rfl
@[simp] theorem signalRedraw_keyDown (s : State) (key : Byte) : s.signalRedraw.keyDown key = s.keyDown key := rfl
@[simp] theorem signalRedraw_readFlag (s : State) (j : Nat) : s.signalRedraw.readFlag j = s.readFlag j := rfl

/-! ### takeFault -/

@[simp] theorem takeFault_V (s : State) (kind : FaultKind) (info : FaultInfo) : (s.takeFault kind info).V = s.V := rfl
@[simp] theorem takeFault_I (s : State) (kind : FaultKind) (info : FaultInfo) : (s.takeFault kind info).I = s.I := rfl
@[simp] theorem takeFault_PC (s : State) (kind : FaultKind) (info : FaultInfo) : (s.takeFault kind info).PC = s.PC := rfl
@[simp] theorem takeFault_SP (s : State) (kind : FaultKind) (info : FaultInfo) : (s.takeFault kind info).SP = s.SP := rfl
@[simp] theorem takeFault_stack (s : State) (kind : FaultKind) (info : FaultInfo) : (s.takeFault kind info).stack = s.stack := rfl
@[simp] theorem takeFault_DT (s : State) (kind : FaultKind) (info : FaultInfo) : (s.takeFault kind info).DT = s.DT := rfl
@[simp] theorem takeFault_ST (s : State) (kind : FaultKind) (info : FaultInfo) : (s.takeFault kind info).ST = s.ST := rfl
@[simp] theorem takeFault_mem (s : State) (kind : FaultKind) (info : FaultInfo) : (s.takeFault kind info).mem = s.mem := rfl
@[simp] theorem takeFault_rom (s : State) (kind : FaultKind) (info : FaultInfo) : (s.takeFault kind info).rom = s.rom := rfl
@[simp] theorem takeFault_fbLo (s : State) (kind : FaultKind) (info : FaultInfo) : (s.takeFault kind info).fbLo = s.fbLo := rfl
@[simp] theorem takeFault_fbHi (s : State) (kind : FaultKind) (info : FaultInfo) : (s.takeFault kind info).fbHi = s.fbHi := rfl
@[simp] theorem takeFault_hires (s : State) (kind : FaultKind) (info : FaultInfo) : (s.takeFault kind info).hires = s.hires := rfl
@[simp] theorem takeFault_keys (s : State) (kind : FaultKind) (info : FaultInfo) : (s.takeFault kind info).keys = s.keys := rfl
@[simp] theorem takeFault_waitKey (s : State) (kind : FaultKind) (info : FaultInfo) : (s.takeFault kind info).waitKey = s.waitKey := rfl
@[simp] theorem takeFault_vblankHold (s : State) (kind : FaultKind) (info : FaultInfo) : (s.takeFault kind info).vblankHold = s.vblankHold := rfl
@[simp] theorem takeFault_halted (s : State) (kind : FaultKind) (info : FaultInfo) : (s.takeFault kind info).halted = true := rfl
@[simp] theorem takeFault_faultState (s : State) (kind : FaultKind) (info : FaultInfo) : (s.takeFault kind info).faultState = some kind := rfl
@[simp] theorem takeFault_runStarted (s : State) (kind : FaultKind) (info : FaultInfo) : (s.takeFault kind info).runStarted = true := rfl
@[simp] theorem takeFault_flags (s : State) (kind : FaultKind) (info : FaultInfo) : (s.takeFault kind info).flags = s.flags := rfl
@[simp] theorem takeFault_quirks (s : State) (kind : FaultKind) (info : FaultInfo) : (s.takeFault kind info).quirks = s.quirks := rfl
@[simp] theorem takeFault_variant (s : State) (kind : FaultKind) (info : FaultInfo) : (s.takeFault kind info).variant = s.variant := rfl
@[simp] theorem takeFault_fonts (s : State) (kind : FaultKind) (info : FaultInfo) : (s.takeFault kind info).fonts = s.fonts := rfl
@[simp] theorem takeFault_faultInfo (s : State) (kind : FaultKind) (info : FaultInfo) : (s.takeFault kind info).faultInfo = some info := rfl
@[simp] theorem takeFault_signal (s : State) (kind : FaultKind) (info : FaultInfo) : (s.takeFault kind info).signal = { redraw := false, halted := true, fault := some kind } := rfl
@[simp] theorem takeFault_draws (s : State) (kind : FaultKind) (info : FaultInfo) : (s.takeFault kind info).draws = s.draws := rfl
@[simp] theorem takeFault_readV (s : State) (kind : FaultKind) (info : FaultInfo) (x : Nibble) : (s.takeFault kind info).readV x = s.readV x := rfl
@[simp] theorem takeFault_resetByte (s : State) (kind : FaultKind) (info : FaultInfo) : (s.takeFault kind info).resetByte = s.resetByte := rfl
@[simp] theorem takeFault_readByte (s : State) (kind : FaultKind) (info : FaultInfo) (a : Nat) : (s.takeFault kind info).readByte a = s.readByte a := rfl
@[simp] theorem takeFault_width (s : State) (kind : FaultKind) (info : FaultInfo) : (s.takeFault kind info).width = s.width := rfl
@[simp] theorem takeFault_height (s : State) (kind : FaultKind) (info : FaultInfo) : (s.takeFault kind info).height = s.height := rfl
@[simp] theorem takeFault_pixel (s : State) (kind : FaultKind) (info : FaultInfo) (px py : Nat) : (s.takeFault kind info).pixel px py = s.pixel px py := rfl
@[simp] theorem takeFault_effAddr (s : State) (kind : FaultKind) (info : FaultInfo) (k : Nat) : (s.takeFault kind info).effAddr k = s.effAddr k := rfl
@[simp] theorem takeFault_inBounds (s : State) (kind : FaultKind) (info : FaultInfo) (last : Nat) : (s.takeFault kind info).inBounds last = s.inBounds last := rfl
@[simp] theorem takeFault_keyDown (s : State) (kind : FaultKind) (info : FaultInfo) (key : Byte) : (s.takeFault kind info).keyDown key = s.keyDown key := rfl
@[simp] theorem takeFault_readFlag (s : State) (kind : FaultKind) (info : FaultInfo) (j : Nat) : (s.takeFault kind info).readFlag j = s.readFlag j := rfl

/-! ### startCycle -/

@[simp] theorem startCycle_V (s : State) : s.startCycle.V = s.V := rfl
@[simp] theorem startCycle_I (s : State) : s.startCycle.I = s.I := rfl
@[simp] theorem startCycle_PC (s : State) : s.startCycle.PC = s.PC := rfl
@[simp] theorem startCycle_SP (s : State) : s.startCycle.SP = s.SP := rfl
@[simp] theorem startCycle_stack (s : State) : s.startCycle.stack = s.stack := rfl
@[simp] theorem startCycle_DT (s : State) : s.startCycle.DT = s.DT := rfl
@[simp] theorem startCycle_ST (s : State) : s.startCycle.ST = s.ST := rfl
@[simp] theorem startCycle_mem (s : State) : s.startCycle.mem = s.mem := rfl
@[simp] theorem startCycle_rom (s : State) : s.startCycle.rom = s.rom := rfl
@[simp] theorem startCycle_fbLo (s : State) : s.startCycle.fbLo = s.fbLo := rfl
@[simp] theorem startCycle_fbHi (s : State) : s.startCycle.fbHi = s.fbHi := rfl
@[simp] theorem startCycle_hires (s : State) : s.startCycle.hires = s.hires := rfl
@[simp] theorem startCycle_keys (s : State) : s.startCycle.keys = s.keys := rfl
@[simp] theorem startCycle_waitKey (s : State) : s.startCycle.waitKey = s.waitKey := rfl
@[simp] theorem startCycle_vblankHold (s : State) : s.startCycle.vblankHold = s.vblankHold := rfl
@[simp] theorem startCycle_halted (s : State) : s.startCycle.halted = s.halted := rfl
@[simp] theorem startCycle_faultState (s : State) : s.startCycle.faultState = s.faultState := rfl
@[simp] theorem startCycle_runStarted (s : State) : s.startCycle.runStarted = true := rfl
@[simp] theorem startCycle_flags (s : State) : s.startCycle.flags = s.flags := rfl
@[simp] theorem startCycle_quirks (s : State) : s.startCycle.quirks = s.quirks := rfl
@[simp] theorem startCycle_variant (s : State) : s.startCycle.variant = s.variant := rfl
@[simp] theorem startCycle_fonts (s : State) : s.startCycle.fonts = s.fonts := rfl
@[simp] theorem startCycle_faultInfo (s : State) : s.startCycle.faultInfo = s.faultInfo := rfl
@[simp] theorem startCycle_signal (s : State) : s.startCycle.signal = Signal.quiet := rfl
@[simp] theorem startCycle_draws (s : State) : s.startCycle.draws = s.draws := rfl
@[simp] theorem startCycle_readV (s : State) (x : Nibble) : s.startCycle.readV x = s.readV x := rfl
@[simp] theorem startCycle_resetByte (s : State) : s.startCycle.resetByte = s.resetByte := rfl
@[simp] theorem startCycle_readByte (s : State) (a : Nat) : s.startCycle.readByte a = s.readByte a := rfl
@[simp] theorem startCycle_width (s : State) : s.startCycle.width = s.width := rfl
@[simp] theorem startCycle_height (s : State) : s.startCycle.height = s.height := rfl
@[simp] theorem startCycle_pixel (s : State) (px py : Nat) : s.startCycle.pixel px py = s.pixel px py := rfl
@[simp] theorem startCycle_effAddr (s : State) (k : Nat) : s.startCycle.effAddr k = s.effAddr k := rfl
@[simp] theorem startCycle_inBounds (s : State) (last : Nat) : s.startCycle.inBounds last = s.inBounds last := rfl
@[simp] theorem startCycle_keyDown (s : State) (key : Byte) : s.startCycle.keyDown key = s.keyDown key := rfl
@[simp] theorem startCycle_readFlag (s : State) (j : Nat) : s.startCycle.readFlag j = s.readFlag j := rfl

/-! ### resetFlagIfQuirk -/

@[simp] theorem resetFlagIfQuirk_I (s : State) : s.resetFlagIfQuirk.I = s.I := rfl
@[simp] theorem resetFlagIfQuirk_PC (s : State) : s.resetFlagIfQuirk.PC = s.PC := rfl
@[simp] theorem resetFlagIfQuirk_SP (s : State) : s.resetFlagIfQuirk.SP = s.SP := rfl
@[simp] theorem resetFlagIfQuirk_stack (s : State) : s.resetFlagIfQuirk.stack = s.stack := rfl
@[simp] theorem resetFlagIfQuirk_DT (s : State) : s.resetFlagIfQuirk.DT = s.DT := rfl
@[simp] theorem resetFlagIfQuirk_ST (s : State) : s.resetFlagIfQuirk.ST = s.ST := rfl
@[simp] theorem resetFlagIfQuirk_mem (s : State) : s.resetFlagIfQuirk.mem = s.mem := rfl
@[simp] theorem resetFlagIfQuirk_rom (s : State) : s.resetFlagIfQuirk.rom = s.rom := rfl
@[simp] theorem resetFlagIfQuirk_fbLo (s : State) : s.resetFlagIfQuirk.fbLo = s.fbLo := rfl
@[simp] theorem resetFlagIfQuirk_fbHi (s : State) : s.resetFlagIfQuirk.fbHi = s.fbHi := rfl
@[simp] theorem resetFlagIfQuirk_hires (s : State) : s.resetFlagIfQuirk.hires = s.hires := rfl
@[simp] theorem resetFlagIfQuirk_keys (s : State) : s.resetFlagIfQuirk.keys = s.keys := rfl
@[simp] theorem resetFlagIfQuirk_waitKey (s : State) : s.resetFlagIfQuirk.waitKey = s.waitKey := rfl
@[simp] theorem resetFlagIfQuirk_vblankHold (s : State) : s.resetFlagIfQuirk.vblankHold = s.vblankHold := rfl
@[simp] theorem resetFlagIfQuirk_halted (s : State) : s.resetFlagIfQuirk.halted = s.halted := rfl
@[simp] theorem resetFlagIfQuirk_faultState (s : State) : s.resetFlagIfQuirk.faultState = s.faultState := rfl
@[simp] theorem resetFlagIfQuirk_runStarted (s : State) : s.resetFlagIfQuirk.runStarted = s.runStarted := rfl
@[simp] theorem resetFlagIfQuirk_flags (s : State) : s.resetFlagIfQuirk.flags = s.flags := rfl
@[simp] theorem resetFlagIfQuirk_quirks (s : State) : s.resetFlagIfQuirk.quirks = s.quirks := rfl
@[simp] theorem resetFlagIfQuirk_variant (s : State) : s.resetFlagIfQuirk.variant = s.variant := rfl
@[simp] theorem resetFlagIfQuirk_fonts (s : State) : s.resetFlagIfQuirk.fonts = s.fonts := rfl
@[simp] theorem resetFlagIfQuirk_faultInfo (s : State) : s.resetFlagIfQuirk.faultInfo = s.faultInfo := rfl
@[simp] theorem resetFlagIfQuirk_signal (s : State) : s.resetFlagIfQuirk.signal = s.signal := rfl
@[simp] theorem resetFlagIfQuirk_draws (s : State) : s.resetFlagIfQuirk.draws = s.draws := rfl
@[simp] theorem resetFlagIfQuirk_resetByte (s : State) : s.resetFlagIfQuirk.resetByte = s.resetByte := rfl
@[simp] theorem resetFlagIfQuirk_readByte (s : State) (a : Nat) : s.resetFlagIfQuirk.readByte a = s.readByte a := rfl
@[simp] theorem resetFlagIfQuirk_width (s : State) : s.resetFlagIfQuirk.width = s.width := rfl
@[simp] theorem resetFlagIfQuirk_height (s : State) : s.resetFlagIfQuirk.height = s.height := rfl
@[simp] theorem resetFlagIfQuirk_pixel (s : State) (px py : Nat) : s.resetFlagIfQuirk.pixel px py = s.pixel px py := rfl
@[simp] theorem resetFlagIfQuirk_effAddr (s : State) (k : Nat) : s.resetFlagIfQuirk.effAddr k = s.effAddr k := rfl
@[simp] theorem resetFlagIfQuirk_inBounds (s : State) (last : Nat) : s.resetFlagIfQuirk.inBounds last = s.inBounds last := rfl
@[simp] theorem resetFlagIfQuirk_keyDown (s : State) (key : Byte) : s.resetFlagIfQuirk.keyDown key = s.keyDown key := rfl
@[simp] theorem resetFlagIfQuirk_readFlag (s : State) (j : Nat) : s.resetFlagIfQuirk.readFlag j = s.readFlag j := rfl

/-! ### incrementIfQuirk -/

@[simp] theorem incrementIfQuirk_V (s : State) (r : Nibble) : (s.incrementIfQuirk r).V = s.V := rfl
@[simp] theorem incrementIfQuirk_PC (s : State) (r : Nibble) : (s.incrementIfQuirk r).PC = s.PC := rfl
@[simp] theorem incrementIfQuirk_SP (s : State) (r : Nibble) : (s.incrementIfQuirk r).SP = s.SP := rfl
@[simp] theorem incrementIfQuirk_stack (s : State) (r : Nibble) : (s.incrementIfQuirk r).stack = s.stack := rfl
@[simp] theorem incrementIfQuirk_DT (s : State) (r : Nibble) : (s.incrementIfQuirk r).DT = s.DT := rfl
@[simp] theorem incrementIfQuirk_ST (s : State) (r : Nibble) : (s.incrementIfQuirk r).ST = s.ST := rfl
@[simp] theorem incrementIfQuirk_mem (s : State) (r : Nibble) : (s.incrementIfQuirk r).mem = s.mem := rfl
@[simp] theorem incrementIfQuirk_rom (s : State) (r : Nibble) : (s.incrementIfQuirk r).rom = s.rom := rfl
@[simp] theorem incrementIfQuirk_fbLo (s : State) (r : Nibble) : (s.incrementIfQuirk r).fbLo = s.fbLo := rfl
@[simp] theorem incrementIfQuirk_fbHi (s : State) (r : Nibble) : (s.incrementIfQuirk r).fbHi = s.fbHi := rfl
@[simp] theorem incrementIfQuirk_hires (s : State) (r : Nibble) : (s.incrementIfQuirk r).hires = s.hires := rfl
@[simp] theorem incrementIfQuirk_keys (s : State) (r : Nibble) : (s.incrementIfQuirk r).keys = s.keys := rfl
@[simp] theorem incrementIfQuirk_waitKey (s : State) (r : Nibble) : (s.incrementIfQuirk r).waitKey = s.waitKey := rfl
@[simp] theorem incrementIfQuirk_vblankHold (s : State) (r : Nibble) : (s.incrementIfQuirk r).vblankHold = s.vblankHold := rfl
@[simp] theorem incrementIfQuirk_halted (s : State) (r : Nibble) : (s.incrementIfQuirk r).halted = s.halted := rfl
@[simp] theorem incrementIfQuirk_faultState (s : State) (r : Nibble) : (s.incrementIfQuirk r).faultState = s.faultState := rfl
@[simp] theorem incrementIfQuirk_runStarted (s : State) (r : Nibble) : (s.incrementIfQuirk r).runStarted = s.runStarted := rfl
@[simp] theorem incrementIfQuirk_flags (s : State) (r : Nibble) : (s.incrementIfQuirk r).flags = s.flags := rfl
@[simp] theorem incrementIfQuirk_quirks (s : State) (r : Nibble) : (s.incrementIfQuirk r).quirks = s.quirks := rfl
@[simp] theorem incrementIfQuirk_variant (s : State) (r : Nibble) : (s.incrementIfQuirk r).variant = s.variant := rfl
@[simp] theorem incrementIfQuirk_fonts (s : State) (r : Nibble) : (s.incrementIfQuirk r).fonts = s.fonts := rfl
@[simp] theorem incrementIfQuirk_faultInfo (s : State) (r : Nibble) : (s.incrementIfQuirk r).faultInfo = s.faultInfo := rfl
@[simp] theorem incrementIfQuirk_signal (s : State) (r : Nibble) : (s.incrementIfQuirk r).signal = s.signal := rfl
@[simp] theorem incrementIfQuirk_draws (s : State) (r : Nibble) : (s.incrementIfQuirk r).draws = s.draws := rfl
@[simp] theorem incrementIfQuirk_readV (s : State) (r : Nibble) (x : Nibble) : (s.incrementIfQuirk r).readV x = s.readV x := rfl
@[simp] theorem incrementIfQuirk_resetByte (s : State) (r : Nibble) : (s.incrementIfQuirk r).resetByte = s.resetByte := rfl
@[simp] theorem incrementIfQuirk_readByte (s : State) (r : Nibble) (a : Nat) : (s.incrementIfQuirk r).readByte a = s.readByte a := rfl
@[simp] theorem incrementIfQuirk_width (s : State) (r : Nibble) : (s.incrementIfQuirk r).width = s.width := rfl
@[simp] theorem incrementIfQuirk_height (s : State) (r : Nibble) : (s.incrementIfQuirk r).height = s.height := rfl
@[simp] theorem incrementIfQuirk_pixel (s : State) (r : Nibble) (px py : Nat) : (s.incrementIfQuirk r).pixel px py = s.pixel px py := rfl
@[simp] theorem incrementIfQuirk_keyDown (s : State) (r : Nibble) (key : Byte) : (s.incrementIfQuirk r).keyDown key = s.keyDown key := rfl
@[simp] theorem incrementIfQuirk_readFlag (s : State) (r : Nibble) (j : Nat) : (s.incrementIfQuirk r).readFlag j = s.readFlag j := rfl

/-! ### holdIfQuirk -/

@[simp] theorem holdIfQuirk_V (s : State) : s.holdIfQuirk.V = s.V := rfl
@[simp] theorem holdIfQuirk_I (s : State) : s.holdIfQuirk.I = s.I := rfl
@[simp] theorem holdIfQuirk_PC (s : State) : s.holdIfQuirk.PC = s.PC := rfl
@[simp] theorem holdIfQuirk_SP (s : State) : s.holdIfQuirk.SP = s.SP := rfl
@[simp] theorem holdIfQuirk_stack (s : State) : s.holdIfQuirk.stack = s.stack := rfl
@[simp] theorem holdIfQuirk_DT (s : State) : s.holdIfQuirk.DT = s.DT := rfl
@[simp] theorem holdIfQuirk_ST (s : State) : s.holdIfQuirk.ST = s.ST := rfl
@[simp] theorem holdIfQuirk_mem (s : State) : s.holdIfQuirk.mem = s.mem := rfl
@[simp] theorem holdIfQuirk_rom (s : State) : s.holdIfQuirk.rom = s.rom := rfl
@[simp] theorem holdIfQuirk_fbLo (s : State) : s.holdIfQuirk.fbLo = s.fbLo := rfl
@[simp] theorem holdIfQuirk_fbHi (s : State) : s.holdIfQuirk.fbHi = s.fbHi := rfl
@[simp] theorem holdIfQuirk_hires (s : State) : s.holdIfQuirk.hires = s.hires := rfl
@[simp] theorem holdIfQuirk_keys (s : State) : s.holdIfQuirk.keys = s.keys := rfl
@[simp] theorem holdIfQuirk_waitKey (s : State) : s.holdIfQuirk.waitKey = s.waitKey := rfl
@[simp] theorem holdIfQuirk_halted (s : State) : s.holdIfQuirk.halted = s.halted := rfl
@[simp] theorem holdIfQuirk_faultState (s : State) : s.holdIfQuirk.faultState = s.faultState := rfl
@[simp] theorem holdIfQuirk_runStarted (s : State) : s.holdIfQuirk.runStarted = s.runStarted := rfl
@[simp] theorem holdIfQuirk_flags (s : State) : s.holdIfQuirk.flags = s.flags := rfl
@[simp] theorem holdIfQuirk_quirks (s : State) : s.holdIfQuirk.quirks = s.quirks := rfl
@[simp] theorem holdIfQuirk_variant (s : State) : s.holdIfQuirk.variant = s.variant := rfl
@[simp] theorem holdIfQuirk_fonts (s : State) : s.holdIfQuirk.fonts = s.fonts := rfl
@[simp] theorem holdIfQuirk_faultInfo (s : State) : s.holdIfQuirk.faultInfo = s.faultInfo := rfl
@[simp] theorem holdIfQuirk_signal (s : State) : s.holdIfQuirk.signal = s.signal := rfl
@[simp] theorem holdIfQuirk_draws (s : State) : s.holdIfQuirk.draws = s.draws := rfl
@[simp] theorem holdIfQuirk_readV (s : State) (x : Nibble) : s.holdIfQuirk.readV x = s.readV x := rfl
@[simp] theorem holdIfQuirk_resetByte (s : State) : s.holdIfQuirk.resetByte = s.resetByte := rfl
@[simp] theorem holdIfQuirk_readByte (s : State) (a : Nat) : s.holdIfQuirk.readByte a = s.readByte a := rfl
@[simp] theorem holdIfQuirk_width (s : State) : s.holdIfQuirk.width = s.width := rfl
@[simp] theorem holdIfQuirk_height (s : State) : s.holdIfQuirk.height = s.height := rfl
@[simp] theorem holdIfQuirk_pixel (s : State) (px py : Nat) : s.holdIfQuirk.pixel px py = s.pixel px py := rfl
@[simp] theorem holdIfQuirk_effAddr (s : State) (k : Nat) : s.holdIfQuirk.effAddr k = s.effAddr k := rfl
@[simp] theorem holdIfQuirk_inBounds (s : State) (last : Nat) : s.holdIfQuirk.inBounds last = s.inBounds last := rfl
@[simp] theorem holdIfQuirk_keyDown (s : State) (key : Byte) : s.holdIfQuirk.keyDown key = s.keyDown key := rfl
@[simp] theorem holdIfQuirk_readFlag (s : State) (j : Nat) : s.holdIfQuirk.readFlag j = s.readFlag j := rfl

/-! ### drawSprite -/

@[simp] theorem drawSprite_I (s : State) {n : Nat} (r q : Nibble) (rows : List (BitVec n)) : (s.drawSprite r q rows).I = s.I := rfl
@[simp] theorem drawSprite_PC (s : State) {n : Nat} (r q : Nibble) (rows : List (BitVec n)) : (s.drawSprite r q rows).PC = s.PC := rfl
@[simp] theorem drawSprite_SP (s : State) {n : Nat} (r q : Nibble) (rows : List (BitVec n)) : (s.drawSprite r q rows).SP = s.SP := rfl
@[simp] theorem drawSprite_stack (s : State) {n : Nat} (r q : Nibble) (rows : List (BitVec n)) : (s.drawSprite r q rows).stack = s.stack := rfl
@[simp] theorem drawSprite_DT (s : State) {n : Nat} (r q : Nibble) (rows : List (BitVec n)) : (s.drawSprite r q rows).DT = s.DT := rfl
@[simp] theorem drawSprite_ST (s : State) {n : Nat} (r q : Nibble) (rows : List (BitVec n)) : (s.drawSprite r q rows).ST = s.ST := rfl
@[simp] theorem drawSprite_mem (s : State) {n : Nat} (r q : Nibble) (rows : List (BitVec n)) : (s.drawSprite r q rows).mem = s.mem := rfl
@[simp] theorem drawSprite_rom (s : State) {n : Nat} (r q : Nibble) (rows : List (BitVec n)) : (s.drawSprite r q rows).rom = s.rom := rfl
@[simp] theorem drawSprite_hires (s : State) {n : Nat} (r q : Nibble) (rows : List (BitVec n)) : (s.drawSprite r q rows).hires = s.hires := rfl
@[simp] theorem drawSprite_keys (s : State) {n : Nat} (r q : Nibble) (rows : List (BitVec n)) : (s.drawSprite r q rows).keys = s.keys := rfl
@[simp] theorem drawSprite_waitKey (s : State) {n : Nat} (r q : Nibble) (rows : List (BitVec n)) : (s.drawSprite r q rows).waitKey = s.waitKey := rfl
@[simp] theorem drawSprite_vblankHold (s : State) {n : Nat} (r q : Nibble) (rows : List (BitVec n)) : (s.drawSprite r q rows).vblankHold = s.vblankHold := rfl
@[simp] theorem drawSprite_halted (s : State) {n : Nat} (r q : Nibble) (rows : List (BitVec n)) : (s.drawSprite r q rows).halted = s.halted := rfl
@[simp] theorem drawSprite_faultState (s : State) {n : Nat} (r q : Nibble) (rows : List (BitVec n)) : (s.drawSprite r q rows).faultState = s.faultState := rfl
@[simp] theorem drawSprite_runStarted (s : State) {n : Nat} (r q : Nibble) (rows : List (BitVec n)) : (s.drawSprite r q rows).runStarted = s.runStarted := rfl
@[simp] theorem drawSprite_flags (s : State) {n : Nat} (r q : Nibble) (rows : List (BitVec n)) : (s.drawSprite r q rows).flags = s.flags := rfl
@[simp] theorem drawSprite_quirks (s : State) {n : Nat} (r q : Nibble) (rows : List (BitVec n)) : (s.drawSprite r q rows).quirks = s.quirks := rfl
@[simp] theorem drawSprite_variant (s : State) {n : Nat} (r q : Nibble) (rows : List (BitVec n)) : (s.drawSprite r q rows).variant = s.variant := rfl
@[simp] theorem drawSprite_fonts (s : State) {n : Nat} (r q : Nibble) (rows : List (BitVec n)) : (s.drawSprite r q rows).fonts = s.fonts := rfl
@[simp] theorem drawSprite_faultInfo (s : State) {n : Nat} (r q : Nibble) (rows : List (BitVec n)) : (s.drawSprite r q rows).faultInfo = s.faultInfo := rfl
@[simp] theorem drawSprite_signal (s : State) {n : Nat} (r q : Nibble) (rows : List (BitVec n)) : (s.drawSprite r q rows).signal = s.signal := rfl
@[simp] theorem drawSprite_draws (s : State) {n : Nat} (r q : Nibble) (rows : List (BitVec n)) : (s.drawSprite r q rows).draws = s.draws := rfl
@[simp] theorem drawSprite_resetByte (s : State) {n : Nat} (r q : Nibble) (rows : List (BitVec n)) : (s.drawSprite r q rows).resetByte = s.resetByte := rfl
@[simp] theorem drawSprite_readByte (s : State) {n : Nat} (r q : Nibble) (rows : List (BitVec n)) (a : Nat) : (s.drawSprite r q rows).readByte a = s.readByte a := rfl
@[simp] theorem drawSprite_width (s : State) {n : Nat} (r q : Nibble) (rows : List (BitVec n)) : (s.drawSprite r q rows).width = s.width := rfl
@[simp] theorem drawSprite_height (s : State) {n : Nat} (r q : Nibble) (rows : List (BitVec n)) : (s.drawSprite r q rows).height = s.height := rfl
@[simp] theorem drawSprite_effAddr (s : State) {n : Nat} (r q : Nibble) (rows : List (BitVec n)) (k : Nat) : (s.drawSprite r q rows).effAddr k = s.effAddr k := rfl
@[simp] theorem drawSprite_inBounds (s : State) {n : Nat} (r q : Nibble) (rows : List (BitVec n)) (last : Nat) : (s.drawSprite r q rows).inBounds last = s.inBounds last := rfl
@[simp] theorem drawSprite_keyDown (s : State) {n : Nat} (r q : Nibble) (rows : List (BitVec n)) (key : Byte) : (s.drawSprite r q rows).keyDown key = s.keyDown key := rfl
@[simp] theorem drawSprite_readFlag (s : State) {n : Nat} (r q : Nibble) (rows : List (BitVec n)) (j : Nat) : (s.drawSprite r q rows).readFlag j = s.readFlag j := rfl

/-! ### completeDraw -/

@[simp] theorem completeDraw_I (s : State) {n : Nat} (r q : Nibble) (rows : List (BitVec n)) : (s.completeDraw r q rows).I = s.I := rfl
@[simp] theorem completeDraw_PC (s : State) {n : Nat} (r q : Nibble) (rows : List (BitVec n)) : (s.completeDraw r q rows).PC = s.PC + 2#16 := rfl
@[simp] theorem completeDraw_SP (s : State) {n : Nat} (r q : Nibble) (rows : List (BitVec n)) : (s.completeDraw r q rows).SP = s.SP := rfl
@[simp] theorem completeDraw_stack (s : State) {n : Nat} (r q : Nibble) (rows : List (BitVec n)) : (s.completeDraw r q rows).stack = s.stack := rfl
@[simp] theorem completeDraw_DT (s : State) {n : Nat} (r q : Nibble) (rows : List (BitVec n)) : (s.completeDraw r q rows).DT = s.DT := rfl
@[simp] theorem completeDraw_ST (s : State) {n : Nat} (r q : Nibble) (rows : List (BitVec n)) : (s.completeDraw r q rows).ST = s.ST := rfl
@[simp] theorem completeDraw_mem (s : State) {n : Nat} (r q : Nibble) (rows : List (BitVec n)) : (s.completeDraw r q rows).mem = s.mem := rfl
@[simp] theorem completeDraw_rom (s : State) {n : Nat} (r q : Nibble) (rows : List (BitVec n)) : (s.completeDraw r q rows).rom = s.rom := rfl
@[simp] theorem completeDraw_hires (s : State) {n : Nat} (r q : Nibble) (rows : List (BitVec n)) : (s.completeDraw r q rows).hires = s.hires := rfl
@[simp] theorem completeDraw_keys (s : State) {n : Nat} (r q : Nibble) (rows : List (BitVec n)) : (s.completeDraw r q rows).keys = s.keys := rfl
@[simp] theorem completeDraw_waitKey (s : State) {n : Nat} (r q : Nibble) (rows : List (BitVec n)) : (s.completeDraw r q rows).waitKey = s.waitKey := rfl
@[simp] theorem completeDraw_halted (s : State) {n : Nat} (r q : Nibble) (rows : List (BitVec n)) : (s.completeDraw r q rows).halted = s.halted := rfl
@[simp] theorem completeDraw_faultState (s : State) {n : Nat} (r q : Nibble) (rows : List (BitVec n)) : (s.completeDraw r q rows).faultState = s.faultState := rfl
@[simp] theorem completeDraw_runStarted (s : State) {n : Nat} (r q : Nibble) (rows : List (BitVec n)) : (s.completeDraw r q rows).runStarted = s.runStarted := rfl
@[simp] theorem completeDraw_flags (s : State) {n : Nat} (r q : Nibble) (rows : List (BitVec n)) : (s.completeDraw r q rows).flags = s.flags := rfl
@[simp] theorem completeDraw_quirks (s : State) {n : Nat} (r q : Nibble) (rows : List (BitVec n)) : (s.completeDraw r q rows).quirks = s.quirks := rfl
@[simp] theorem completeDraw_variant (s : State) {n : Nat} (r q : Nibble) (rows : List (BitVec n)) : (s.completeDraw r q rows).variant = s.variant := rfl
@[simp] theorem completeDraw_fonts (s : State) {n : Nat} (r q : Nibble) (rows : List (BitVec n)) : (s.completeDraw r q rows).fonts = s.fonts := rfl
@[simp] theorem completeDraw_faultInfo (s : State) {n : Nat} (r q : Nibble) (rows : List (BitVec n)) : (s.completeDraw r q rows).faultInfo = s.faultInfo := rfl
@[simp] theorem completeDraw_signal (s : State) {n : Nat} (r q : Nibble) (rows : List (BitVec n)) : (s.completeDraw r q rows).signal = { s.signal with redraw := true } := rfl
@[simp] theorem completeDraw_draws (s : State) {n : Nat} (r q : Nibble) (rows : List (BitVec n)) : (s.completeDraw r q rows).draws = s.draws := rfl
@[simp] theorem completeDraw_resetByte (s : State) {n : Nat} (r q : Nibble) (rows : List (BitVec n)) : (s.completeDraw r q rows).resetByte = s.resetByte := rfl
@[simp] theorem completeDraw_readByte (s : State) {n : Nat} (r q : Nibble) (rows : List (BitVec n)) (a : Nat) : (s.completeDraw r q rows).readByte a = s.readByte a := rfl
@[simp] theorem completeDraw_width (s : State) {n : Nat} (r q : Nibble) (rows : List (BitVec n)) : (s.completeDraw r q rows).width = s.width := rfl
@[simp] theorem completeDraw_height (s : State) {n : Nat} (r q : Nibble) (rows : List (BitVec n)) : (s.completeDraw r q rows).height = s.height := rfl
@[simp] theorem completeDraw_effAddr (s : State) {n : Nat} (r q : Nibble) (rows : List (BitVec n)) (k : Nat) : (s.completeDraw r q rows).effAddr k = s.effAddr k := rfl
@[simp] theorem completeDraw_inBounds (s : State) {n : Nat} (r q : Nibble) (rows : List (BitVec n)) (last : Nat) : (s.completeDraw r q rows).inBounds last = s.inBounds last := rfl
@[simp] theorem completeDraw_keyDown (s : State) {n : Nat} (r q : Nibble) (rows : List (BitVec n)) (key : Byte) : (s.completeDraw r q rows).keyDown key = s.keyDown key := rfl
@[simp] theorem completeDraw_readFlag (s : State) {n : Nat} (r q : Nibble) (rows : List (BitVec n)) (j : Nat) : (s.completeDraw r q rows).readFlag j = s.readFlag j := rfl

/-! ### writeKey -/

@[simp] theorem writeKey_V (s : State) (code : Nibble) (p : Bool) : (s.writeKey code p).V = s.V := rfl
@[simp] theorem writeKey_I (s : State) (code : Nibble) (p : Bool) : (s.writeKey code p).I = s.I := rfl
@[simp] theorem writeKey_PC (s : State) (code : Nibble) (p : Bool) : (s.writeKey code p).PC = s.PC := rfl
@[simp] theorem writeKey_SP (s : State) (code : Nibble) (p : Bool) : (s.writeKey code p).SP = s.SP := rfl
@[simp] theorem writeKey_stack (s : State) (code : Nibble) (p : Bool) : (s.writeKey code p).stack = s.stack := rfl
@[simp] theorem writeKey_DT (s : State) (code : Nibble) (p : Bool) : (s.writeKey code p).DT = s.DT := rfl
@[simp] theorem writeKey_ST (s : State) (code : Nibble) (p : Bool) : (s.writeKey code p).ST = s.ST := rfl
@[simp] theorem writeKey_mem (s : State) (code : Nibble) (p : Bool) : (s.writeKey code p).mem = s.mem := rfl
@[simp] theorem writeKey_rom (s : State) (code : Nibble) (p : Bool) : (s.writeKey code p).rom = s.rom := rfl
@[simp] theorem writeKey_fbLo (s : State) (code : Nibble) (p : Bool) : (s.writeKey code p).fbLo = s.fbLo := rfl
@[simp] theorem writeKey_fbHi (s : State) (code : Nibble) (p : Bool) : (s.writeKey code p).fbHi = s.fbHi := rfl
@[simp] theorem writeKey_hires (s : State) (code : Nibble) (p : Bool) : (s.writeKey code p).hires = s.hires := rfl
@[simp] theorem writeKey_waitKey (s : State) (code : Nibble) (p : Bool) : (s.writeKey code p).waitKey = s.waitKey := rfl
@[simp] theorem writeKey_vblankHold (s : State) (code : Nibble) (p : Bool) : (s.writeKey code p).vblankHold = s.vblankHold := rfl
@[simp] theorem writeKey_halted (s : State) (code : Nibble) (p : Bool) : (s.writeKey code p).halted = s.halted := rfl
@[simp] theorem writeKey_faultState (s : State) (code : Nibble) (p : Bool) : (s.writeKey code p).faultState = s.faultState := rfl
@[simp] theorem writeKey_runStarted (s : State) (code : Nibble) (p : Bool) : (s.writeKey code p).runStarted = s.runStarted := rfl
@[simp] theorem writeKey_flags (s : State) (code : Nibble) (p : Bool) : (s.writeKey code p).flags = s.flags := rfl
@[simp] theorem writeKey_quirks (s : State) (code : Nibble) (p : Bool) : (s.writeKey code p).quirks = s.quirks := rfl
@[simp] theorem writeKey_variant (s : State) (code : Nibble) (p : Bool) : (s.writeKey code p).variant = s.variant := rfl
@[simp] theorem writeKey_fonts (s : State) (code : Nibble) (p : Bool) : (s.writeKey code p).fonts = s.fonts := rfl
@[simp] theorem writeKey_faultInfo (s : State) (code : Nibble) (p : Bool) : (s.writeKey code p).faultInfo = s.faultInfo := rfl
@[simp] theorem writeKey_signal (s : State) (code : Nibble) (p : Bool) : (s.writeKey code p).signal = s.signal := rfl
@[simp] theorem writeKey_draws (s : State) (code : Nibble) (p : Bool) : (s.writeKey code p).draws = s.draws := rfl
@[simp] theorem writeKey_readV (s : State) (code : Nibble) (p : Bool) (x : Nibble) : (s.writeKey code p).readV x = s.readV x := rfl
@[simp] theorem writeKey_resetByte (s : State) (code : Nibble) (p : Bool) : (s.writeKey code p).resetByte = s.resetByte := rfl
@[simp] theorem writeKey_readByte (s : State) (code : Nibble) (p : Bool) (a : Nat) : (s.writeKey code p).readByte a = s.readByte a := rfl
@[simp] theorem writeKey_width (s : State) (code : Nibble) (p : Bool) : (s.writeKey code p).width = s.width := rfl
@[simp] theorem writeKey_height (s : State) (code : Nibble) (p : Bool) : (s.writeKey code p).height = s.height := rfl
@[simp] theorem writeKey_pixel (s : State) (code : Nibble) (p : Bool) (px py : Nat) : (s.writeKey code p).pixel px py = s.pixel px py := rfl
@[simp] theorem writeKey_effAddr (s : State) (code : Nibble) (p : Bool) (k : Nat) : (s.writeKey code p).effAddr k = s.effAddr k := rfl
@[simp] theorem writeKey_inBounds (s : State) (code : Nibble) (p : Bool) (last : Nat) : (s.writeKey code p).inBounds last = s.inBounds last := rfl
@[simp] theorem writeKey_readFlag (s : State) (code : Nibble) (p : Bool) (j : Nat) : (s.writeKey code p).readFlag j = s.readFlag j := rfl

end Sys2Proof.Machine.State
end

