-- ==== Sys2Proof/Laws/Framebuffer.lean ====
section
/-! SUPPORT. The laws of a framebuffer: what a pixel is after each operation on the grid. -/

namespace Sys2Proof.Machine.Framebuffer

variable {w h : Nat}

@[simp] theorem pixel_blank (px py : Nat) : (blank : Framebuffer w h).pixel px py = false := by
  simp [pixel, blank]

/-- Outside the grid every pixel reads 0. -/
theorem pixel_outside (fb : Framebuffer w h) {px py : Nat} (hp : w ≤ px ∨ h ≤ py) :
    fb.pixel px py = false := by
  unfold pixel
  split
  · split
    · omega
    · rfl
  · rfl

theorem pixel_ofPixels (f : Nat → Nat → Bool) {px py : Nat} (hx : px < w) (hy : py < h) :
    (ofPixels f : Framebuffer w h).pixel px py = f px py := by
  simp [pixel, ofPixels, hx, hy]

theorem pixel_setPixel_same (fb : Framebuffer w h) {px py : Nat} (hx : px < w) (hy : py < h)
    (b : Bool) : (fb.setPixel px py b).pixel px py = b := by
  simp [pixel, setPixel, hx, hy]

theorem pixel_setPixel_ne (fb : Framebuffer w h) {px py qx qy : Nat} (hne : ¬(qx = px ∧ qy = py))
    (b : Bool) : (fb.setPixel px py b).pixel qx qy = fb.pixel qx qy := by
  by_cases hy : py < h
  · by_cases hx : px < w
    · rw [setPixel, dif_pos hy, dif_pos hx]
      unfold pixel
      split
      · split
        · simp only [Vector.getElem_set]
          split
          · next h1 => subst h1; rw [Vector.getElem_set_ne _ _ (fun h2 => hne ⟨h2.symm, rfl⟩)]
          · rfl
        · rfl
      · rfl
    · rw [setPixel, dif_pos hy, dif_neg hx]
  · rw [setPixel, dif_neg hy]

/-- Two grids with the same pixels are the same grid. -/
theorem ext_pixel {fb fb' : Framebuffer w h}
    (hp : ∀ px py, px < w → py < h → fb.pixel px py = fb'.pixel px py) : fb = fb' := by
  apply Vector.ext
  intro py hy
  apply Vector.ext
  intro px hx
  simpa [pixel, hx, hy] using hp px py hx hy

/-- A target on the screen (R282): the pixel itself, or the one a wrap leads to. -/
theorem edgeTarget_inside {clipping : Bool} {px py tx ty : Nat} (hw : 0 < w) (hh : 0 < h)
    (ht : edgeTarget w h clipping px py = some (tx, ty)) : tx < w ∧ ty < h := by
  unfold edgeTarget at ht
  split at ht
  · split at ht
    · cases ht
    · cases ht; exact ⟨Nat.mod_lt _ hw, Nat.mod_lt _ hh⟩
  · cases ht; omega

/-- The pixels of a plot: its target is inverted, every other is unchanged; the collision is recorded
from the target's old value. -/
theorem plot_cases (clipping : Bool) (px py : Nat) (acc : Framebuffer w h × Bool) :
    (edgeTarget w h clipping px py = none ∧ plot clipping px py acc = acc) ∨
    (∃ tx ty, edgeTarget w h clipping px py = some (tx, ty) ∧
      plot clipping px py acc =
        (acc.1.setPixel tx ty (!acc.1.pixel tx ty), acc.2 || acc.1.pixel tx ty)) := by
  unfold plot
  cases h : edgeTarget w h clipping px py with
  | none => exact .inl ⟨rfl, rfl⟩
  | some t => exact .inr ⟨t.1, t.2, rfl, by simp [toggle]⟩

/-- A column of a sprite row is lit when its bit is 1, counted from the left (R281). -/
theorem mem_litColumns {n : Nat} (row : BitVec n) (c : Nat) :
    c ∈ litColumns row ↔ c < n ∧ row.getLsbD (n - 1 - c) = true := by
  simp [litColumns]

/-- The lit cells of a sprite are the 1 bits of its rows (R281). -/
theorem mem_litCells {n : Nat} (rows : List (BitVec n)) (r0 c r : Nat) :
    (c, r) ∈ litCells rows r0 ↔
      r0 ≤ r ∧ ∃ row, rows[r - r0]? = some row ∧ c < n ∧ row.getLsbD (n - 1 - c) = true := by
  induction rows generalizing r0 with
  | nil => simp [litCells]
  | cons row rows ih =>
    simp only [litCells, List.mem_append, List.mem_map, mem_litColumns, Prod.mk.injEq, ih]
    constructor
    · rintro (⟨c', hc, rfl, rfl⟩ | ⟨hr, row', h1, h2⟩)
      · exact ⟨le_rfl, row, by simp, hc⟩
      · refine ⟨by omega, row', ?_, h2⟩
        rw [show r - r0 = (r - (r0 + 1)) + 1 by omega, List.getElem?_cons_succ, h1]
    · rintro ⟨hr, row', h1, h2⟩
      by_cases he : r = r0
      · subst he
        rw [Nat.sub_self, List.getElem?_cons_zero, Option.some_inj] at h1
        subst h1
        exact .inl ⟨c, h2, rfl, rfl⟩
      · refine .inr ⟨by omega, row', ?_, h2⟩
        rwa [show r - r0 = (r - (r0 + 1)) + 1 by omega, List.getElem?_cons_succ] at h1

end Sys2Proof.Machine.Framebuffer
end

