-- ==== Sys2Proof/Laws/Memory.lean ====
section
/-! SUPPORT. The laws of memory: what a read gives after a write, and that every memory operation
keeps the canonical form. -/

namespace Sys2Proof.Machine.Memory

theorem lookup_insert_same (m : Memory) (a : Nat) (b : Byte) : lookup (insert m a b) a = some b := by
  induction m with
  | nil => simp [insert, lookup]
  | cons e m ih =>
    obtain ⟨k, c⟩ := e
    unfold insert
    split
    · simp [lookup]
    · split
      · simp [lookup]
      · rw [lookup, if_neg (by omega), ih]

theorem lookup_insert_ne (m : Memory) {a a' : Nat} (b : Byte) (h : a' ≠ a) :
    lookup (insert m a b) a' = lookup m a' := by
  induction m with
  | nil => simp [insert, lookup, h.symm]
  | cons e m ih =>
    obtain ⟨k, c⟩ := e
    unfold insert
    split
    · rw [lookup, if_neg h.symm]
    · split
      · next hk => subst hk; simp [lookup, h.symm]
      · simp only [lookup, ih]

theorem lookup_erase_ne (m : Memory) {a a' : Nat} (h : a' ≠ a) :
    lookup (erase m a) a' = lookup m a' := by
  induction m with
  | nil => rfl
  | cons e m ih =>
    obtain ⟨k, c⟩ := e
    unfold erase
    split
    · next hk => subst hk; simp [lookup, h.symm]
    · simp only [lookup, ih]

variable {base : Nat → Byte}

/-- Below where the canonical form starts, nothing is listed. -/
theorem lookup_below {m : Memory} {lo a : Nat} (hm : wfFrom base lo m = true) (ha : a < lo) :
    lookup m a = none := by
  induction m generalizing lo with
  | nil => rfl
  | cons e m ih =>
    obtain ⟨k, c⟩ := e
    simp only [wfFrom, Bool.and_eq_true, decide_eq_true_eq] at hm
    rw [lookup, if_neg (by omega)]
    exact ih hm.2 (by omega)

theorem lookup_erase_same {m : Memory} {lo : Nat} (hm : wfFrom base lo m = true) (a : Nat) :
    lookup (erase m a) a = none := by
  induction m generalizing lo with
  | nil => rfl
  | cons e m ih =>
    obtain ⟨k, c⟩ := e
    simp only [wfFrom, Bool.and_eq_true, decide_eq_true_eq] at hm
    unfold erase
    split
    · next hk => subst hk; exact lookup_below hm.2 (by omega)
    · next hk => rw [lookup, if_neg hk]; exact ih hm.2

/-- In the canonical form a listed byte differs from the reset contents. -/
theorem lookup_ne_base {m : Memory} {lo a : Nat} {c : Byte} (hm : wfFrom base lo m = true)
    (h : lookup m a = some c) : c ≠ base a ∧ a < Config.memSize := by
  induction m generalizing lo with
  | nil => simp [lookup] at h
  | cons e m ih =>
    obtain ⟨k, d⟩ := e
    simp only [wfFrom, Bool.and_eq_true, decide_eq_true_eq] at hm
    rw [lookup] at h
    split at h
    · next hk => subst hk; cases h; exact ⟨hm.1.2, hm.1.1.2⟩
    · exact ih hm.2 h

/-- A read at the address written gives the byte written. -/
theorem read_write_same {m : Memory} (hm : wf base m = true) (a : Nat) (b : Byte) :
    read base (write base m a b) a = b := by
  unfold read write
  split
  · next hb => rw [lookup_erase_same hm, Option.getD_none, hb]
  · rw [lookup_insert_same, Option.getD_some]

/-- A read at any other address gives what it gave before. -/
theorem read_write_ne (m : Memory) {a a' : Nat} (b : Byte) (h : a' ≠ a) :
    read base (write base m a b) a' = read base m a' := by
  unfold read write
  split
  · rw [lookup_erase_ne m h]
  · rw [lookup_insert_ne m b h]

theorem wfFrom_mono {m : Memory} {lo lo' : Nat} (h : lo' ≤ lo) (hm : wfFrom base lo m = true) :
    wfFrom base lo' m = true := by
  cases m with
  | nil => rfl
  | cons e m =>
    obtain ⟨k, c⟩ := e
    simp only [wfFrom, Bool.and_eq_true, decide_eq_true_eq] at hm ⊢
    exact ⟨⟨⟨by omega, hm.1.1.2⟩, hm.1.2⟩, hm.2⟩

theorem wfFrom_erase {m : Memory} {lo : Nat} (hm : wfFrom base lo m = true) (a : Nat) :
    wfFrom base lo (erase m a) = true := by
  induction m generalizing lo with
  | nil => rfl
  | cons e m ih =>
    obtain ⟨k, c⟩ := e
    unfold erase
    simp only [wfFrom, Bool.and_eq_true, decide_eq_true_eq] at hm
    split
    · exact wfFrom_mono (by omega) hm.2
    · simp only [wfFrom, Bool.and_eq_true, decide_eq_true_eq]
      exact ⟨hm.1, ih hm.2⟩

theorem wfFrom_insert {m : Memory} {lo a : Nat} {b : Byte} (hm : wfFrom base lo m = true)
    (hlo : lo ≤ a) (ha : a < Config.memSize) (hb : b ≠ base a) :
    wfFrom base lo (insert m a b) = true := by
  induction m generalizing lo with
  | nil => simp [insert, wfFrom, hlo, ha, hb]
  | cons e m ih =>
    obtain ⟨k, c⟩ := e
    unfold insert
    simp only [wfFrom, Bool.and_eq_true, decide_eq_true_eq] at hm
    split
    · simp only [wfFrom, Bool.and_eq_true, decide_eq_true_eq]
      exact ⟨⟨⟨hlo, ha⟩, hb⟩, ⟨⟨by omega, hm.1.1.2⟩, hm.1.2⟩, hm.2⟩
    · split
      · next hk =>
        subst hk
        simp only [wfFrom, Bool.and_eq_true, decide_eq_true_eq]
        exact ⟨⟨⟨hlo, ha⟩, hb⟩, hm.2⟩
      · simp only [wfFrom, Bool.and_eq_true, decide_eq_true_eq]
        exact ⟨hm.1, ih hm.2 (by omega)⟩

/-- A write inside the address space keeps the canonical form. -/
theorem wf_write {m : Memory} (hm : wf base m = true) {a : Nat} (ha : a < Config.memSize)
    (b : Byte) : wf base (write base m a b) = true := by
  unfold write
  split
  · exact wfFrom_erase hm a
  · next hb => exact wfFrom_insert hm (Nat.zero_le a) ha hb

end Sys2Proof.Machine.Memory

namespace Sys2Proof.Machine.State

/-- Memory in its canonical form. -/
abbrev MemWf (s : State) : Prop := s.mem.wf s.resetByte = true

/-- Memory right after reset has the canonical form. -/
theorem reset_memWf : State.reset.MemWf := rfl

/-- So has memory after `reset()`. -/
theorem resetEngine_memWf (s : State) : s.resetEngine.MemWf := rfl

theorem readByte_writeByte_same {s : State} (hs : s.MemWf) (a : Nat) (b : Byte) :
    (s.writeByte a b).readByte a = b := Memory.read_write_same hs a b

theorem readByte_writeByte_ne (s : State) {a a' : Nat} (b : Byte) (h : a' ≠ a) :
    (s.writeByte a b).readByte a' = s.readByte a' := Memory.read_write_ne s.mem b h

theorem writeByte_memWf {s : State} (hs : s.MemWf) {a : Nat} (ha : a < Config.memSize) (b : Byte) :
    (s.writeByte a b).MemWf := Memory.wf_write hs ha b

/-- `writeBytes` changes memory and nothing else. -/
theorem writeBytes_eq (s : State) (a : Nat) (bs : List Byte) :
    s.writeBytes a bs = { s with mem := (s.writeBytes a bs).mem } := by
  induction bs generalizing s a with
  | nil => rfl
  | cons b bs ih => rw [writeBytes, ih]; rfl

@[simp] theorem writeBytes_V (s : State) (a : Nat) (bs : List Byte) : (s.writeBytes a bs).V = s.V := by rw [writeBytes_eq]
@[simp] theorem writeBytes_I (s : State) (a : Nat) (bs : List Byte) : (s.writeBytes a bs).I = s.I := by rw [writeBytes_eq]
@[simp] theorem writeBytes_PC (s : State) (a : Nat) (bs : List Byte) : (s.writeBytes a bs).PC = s.PC := by rw [writeBytes_eq]
@[simp] theorem writeBytes_SP (s : State) (a : Nat) (bs : List Byte) : (s.writeBytes a bs).SP = s.SP := by rw [writeBytes_eq]
@[simp] theorem writeBytes_stack (s : State) (a : Nat) (bs : List Byte) : (s.writeBytes a bs).stack = s.stack := by rw [writeBytes_eq]
@[simp] theorem writeBytes_DT (s : State) (a : Nat) (bs : List Byte) : (s.writeBytes a bs).DT = s.DT := by rw [writeBytes_eq]
@[simp] theorem writeBytes_ST (s : State) (a : Nat) (bs : List Byte) : (s.writeBytes a bs).ST = s.ST := by rw [writeBytes_eq]
@[simp] theorem writeBytes_rom (s : State) (a : Nat) (bs : List Byte) : (s.writeBytes a bs).rom = s.rom := by rw [writeBytes_eq]
@[simp] theorem writeBytes_fbLo (s : State) (a : Nat) (bs : List Byte) : (s.writeBytes a bs).fbLo = s.fbLo := by rw [writeBytes_eq]
@[simp] theorem writeBytes_fbHi (s : State) (a : Nat) (bs : List Byte) : (s.writeBytes a bs).fbHi = s.fbHi := by rw [writeBytes_eq]
@[simp] theorem writeBytes_hires (s : State) (a : Nat) (bs : List Byte) : (s.writeBytes a bs).hires = s.hires := by rw [writeBytes_eq]
@[simp] theorem writeBytes_keys (s : State) (a : Nat) (bs : List Byte) : (s.writeBytes a bs).keys = s.keys := by rw [writeBytes_eq]
@[simp] theorem writeBytes_waitKey (s : State) (a : Nat) (bs : List Byte) : (s.writeBytes a bs).waitKey = s.waitKey := by rw [writeBytes_eq]
@[simp] theorem writeBytes_vblankHold (s : State) (a : Nat) (bs : List Byte) : (s.writeBytes a bs).vblankHold = s.vblankHold := by rw [writeBytes_eq]
@[simp] theorem writeBytes_halted (s : State) (a : Nat) (bs : List Byte) : (s.writeBytes a bs).halted = s.halted := by rw [writeBytes_eq]
@[simp] theorem writeBytes_faultState (s : State) (a : Nat) (bs : List Byte) : (s.writeBytes a bs).faultState = s.faultState := by rw [writeBytes_eq]
@[simp] theorem writeBytes_runStarted (s : State) (a : Nat) (bs : List Byte) : (s.writeBytes a bs).runStarted = s.runStarted := by rw [writeBytes_eq]
@[simp] theorem writeBytes_flags (s : State) (a : Nat) (bs : List Byte) : (s.writeBytes a bs).flags = s.flags := by rw [writeBytes_eq]
@[simp] theorem writeBytes_quirks (s : State) (a : Nat) (bs : List Byte) : (s.writeBytes a bs).quirks = s.quirks := by rw [writeBytes_eq]
@[simp] theorem writeBytes_variant (s : State) (a : Nat) (bs : List Byte) : (s.writeBytes a bs).variant = s.variant := by rw [writeBytes_eq]
@[simp] theorem writeBytes_fonts (s : State) (a : Nat) (bs : List Byte) : (s.writeBytes a bs).fonts = s.fonts := by rw [writeBytes_eq]
@[simp] theorem writeBytes_faultInfo (s : State) (a : Nat) (bs : List Byte) : (s.writeBytes a bs).faultInfo = s.faultInfo := by rw [writeBytes_eq]
@[simp] theorem writeBytes_signal (s : State) (a : Nat) (bs : List Byte) : (s.writeBytes a bs).signal = s.signal := by rw [writeBytes_eq]
@[simp] theorem writeBytes_draws (s : State) (a : Nat) (bs : List Byte) : (s.writeBytes a bs).draws = s.draws := by rw [writeBytes_eq]
@[simp] theorem writeBytes_readV (s : State) (adr : Nat) (bs : List Byte) (x : Nibble) : (s.writeBytes adr bs).readV x = s.readV x := by rw [writeBytes_eq]; rfl
@[simp] theorem writeBytes_resetByte (s : State) (adr : Nat) (bs : List Byte) : (s.writeBytes adr bs).resetByte = s.resetByte := by rw [writeBytes_eq]; rfl
@[simp] theorem writeBytes_width (s : State) (adr : Nat) (bs : List Byte) : (s.writeBytes adr bs).width = s.width := by rw [writeBytes_eq]; rfl
@[simp] theorem writeBytes_height (s : State) (adr : Nat) (bs : List Byte) : (s.writeBytes adr bs).height = s.height := by rw [writeBytes_eq]; rfl
@[simp] theorem writeBytes_pixel (s : State) (adr : Nat) (bs : List Byte) (px py : Nat) : (s.writeBytes adr bs).pixel px py = s.pixel px py := by rw [writeBytes_eq]; rfl
@[simp] theorem writeBytes_effAddr (s : State) (adr : Nat) (bs : List Byte) (k : Nat) : (s.writeBytes adr bs).effAddr k = s.effAddr k := by rw [writeBytes_eq]; rfl
@[simp] theorem writeBytes_inBounds (s : State) (adr : Nat) (bs : List Byte) (last : Nat) : (s.writeBytes adr bs).inBounds last = s.inBounds last := by rw [writeBytes_eq]; rfl
@[simp] theorem writeBytes_keyDown (s : State) (adr : Nat) (bs : List Byte) (key : Byte) : (s.writeBytes adr bs).keyDown key = s.keyDown key := by rw [writeBytes_eq]; rfl
@[simp] theorem writeBytes_readFlag (s : State) (adr : Nat) (bs : List Byte) (j : Nat) : (s.writeBytes adr bs).readFlag j = s.readFlag j := by rw [writeBytes_eq]; rfl

/-- `writeBytes` inside the address space keeps the canonical form. -/
theorem writeBytes_memWf {s : State} (hs : s.MemWf) {a : Nat} {bs : List Byte}
    (ha : a + bs.length ≤ Config.memSize) : (s.writeBytes a bs).MemWf := by
  induction bs generalizing s a with
  | nil => exact hs
  | cons b bs ih =>
    rw [List.length_cons] at ha
    exact ih (writeByte_memWf hs (by omega) b) (by omega)

/-- Outside the bytes written, every address reads as before. -/
theorem readByte_writeBytes_outside (s : State) {a a' : Nat} {bs : List Byte}
    (h : a' < a ∨ a + bs.length ≤ a') : (s.writeBytes a bs).readByte a' = s.readByte a' := by
  induction bs generalizing s a with
  | nil => rfl
  | cons b bs ih =>
    rw [List.length_cons] at h
    rw [writeBytes, ih _ (by omega), readByte_writeByte_ne _ _ (by omega)]

/-- The bytes written read back, each at its address. -/
theorem readByte_writeBytes_inside {s : State} (hs : s.MemWf) {a : Nat} {bs : List Byte}
    (ha : a + bs.length ≤ Config.memSize) {k : Nat} (hk : k < bs.length) :
    (s.writeBytes a bs).readByte (a + k) = bs[k] := by
  induction bs generalizing s a k with
  | nil => simp at hk
  | cons b bs ih =>
    rw [List.length_cons] at ha hk
    have hs' := writeByte_memWf hs (show a < Config.memSize by omega) b
    rw [writeBytes]
    cases k with
    | zero =>
      exact (readByte_writeBytes_outside _ (.inl (Nat.lt_succ_self a))).trans
        (readByte_writeByte_same hs a b)
    | succ k =>
      rw [show a + (k + 1) = a + 1 + k by omega, ih hs' (by omega) (by omega)]
      rfl

end Sys2Proof.Machine.State
end

