-- ==== Sys2Proof/Laws/Ops.lean ====
section
/-! SUPPORT. What each shared operation does, said once: the register operations, the block moves, the
fault's entry, the variant gate and the active framebuffer. Proofs cite these and do not unfold. -/

namespace Sys2Proof.Machine

/-! ### Numbers (R8, R102) -/

@[simp] theorem trunc8_toNat (v : Nat) : (trunc8 v).toNat = v % 256 := BitVec.toNat_ofNat v 8

@[simp] theorem trunc16_toNat (v : Nat) : (trunc16 v).toNat = v % 65536 := BitVec.toNat_ofNat v 16

@[simp] theorem zext16_toNat (nnn : Addr12) : (zext16 nnn).toNat = nnn.toNat := by
  rw [zext16, BitVec.toNat_setWidth]
  exact Nat.mod_eq_of_lt (by have := nnn.isLt; omega)

@[simp] theorem flagByte_toNat (b : Bool) : (flagByte b).toNat = if b then 1 else 0 := by
  cases b <;> rfl

namespace State

/-! ### General registers -/

@[simp] theorem readV_writeV_same (s : State) (r : Nibble) (b : Byte) :
    (s.writeV r b).readV r = b := by
  simp [readV, writeV]

theorem readV_writeV_ne (s : State) {r q : Nibble} (b : Byte) (h : q ≠ r) :
    (s.writeV r b).readV q = s.readV q := by
  have hn : r.toNat ≠ q.toNat := fun he => h (BitVec.eq_of_toNat_eq he.symm)
  simp [readV, writeV, hn]

/-- VF after a result and its flag is the flag (R176). -/
@[simp] theorem readV_writeResultAndFlag_flag (s : State) (x : Nibble) (result flag : Byte) :
    (s.writeResultAndFlag x result flag).readV 0xF#4 = flag := readV_writeV_same _ _ _

/-- Any destination but VF holds the result (R176). -/
theorem readV_writeResultAndFlag_result (s : State) {x : Nibble} (result flag : Byte)
    (h : x ≠ 0xF#4) : (s.writeResultAndFlag x result flag).readV x = result := by
  rw [writeResultAndFlag, readV_writeV_ne _ _ h, readV_writeV_same]

/-- Every other register is unchanged. -/
theorem readV_writeResultAndFlag_other (s : State) {x r : Nibble} (result flag : Byte)
    (h : r ≠ x) (h' : r ≠ 0xF#4) : (s.writeResultAndFlag x result flag).readV r = s.readV r := by
  rw [writeResultAndFlag, readV_writeV_ne _ _ h', readV_writeV_ne _ _ h]

/-- With the quirk `vf_reset`, VF is 0 and the other registers are unchanged (R163). -/
theorem readV_resetFlagIfQuirk_on {s : State} (h : s.quirks.vfReset = true) (r : Nibble) :
    s.resetFlagIfQuirk.readV r = if r = 0xF#4 then 0#8 else s.readV r := by
  have : s.resetFlagIfQuirk = s.writeV 0xF#4 0#8 := by
    simp only [resetFlagIfQuirk, h, if_true]; rfl
  rw [this]
  split
  · next hr => rw [hr, readV_writeV_same]
  · next hr => rw [readV_writeV_ne _ _ hr]

/-- Without it, nothing changes. -/
theorem resetFlagIfQuirk_off {s : State} (h : s.quirks.vfReset = false) :
    s.resetFlagIfQuirk = s := by
  simp [resetFlagIfQuirk, h]

/-- A block load changes the general registers and nothing else. -/
theorem loadRegisters_eq (s : State) (count : Nat) (f : Nat → Byte) :
    s.loadRegisters count f = { s with V := (s.loadRegisters count f).V } := by
  rw [loadRegisters]

/-- The quirk `memory_increment` changes I and nothing else. -/
theorem incrementIfQuirk_eq (s : State) (x : Nibble) :
    s.incrementIfQuirk x = { s with I := (s.incrementIfQuirk x).I } := rfl

/-- I after a block transfer that is in bounds never wraps (R246, R247). -/
theorem incrementIfQuirk_I_toNat (s : State) (x : Nibble)
    (h : s.I.toNat + x.toNat < Config.memSize) :
    (s.incrementIfQuirk x).I.toNat
      = if s.quirks.memoryIncrement then s.I.toNat + x.toNat + 1 else s.I.toNat := by
  have h' : s.I.toNat + x.toNat < 4096 := h
  unfold incrementIfQuirk
  split
  · exact (trunc16_toNat _).trans (Nat.mod_eq_of_lt (by omega))
  · rfl

/-- The registers loaded hold the values given, the others are unchanged (R247, R252). -/
theorem readV_loadRegisters (s : State) (count : Nat) (f : Nat → Byte) (r : Nibble) :
    (s.loadRegisters count f).readV r = if r.toNat < count then f r.toNat else s.readV r := by
  simp only [readV, loadRegisters, Vector.getElem_ofFn]

/-- The slots saved hold the registers, the others are unchanged (R250). -/
theorem flags_saveFlags (s : State) (count : Nat) {j : Nat} (hj : j < 8) :
    (s.saveFlags count).flags[j] = if j < count then s.V[j] else s.flags[j] := by
  simp only [saveFlags, Vector.getElem_ofFn]

theorem readFlag_eq (s : State) {j : Nat} (hj : j < 8) : s.readFlag j = s.flags[j] := by
  simp [readFlag, hj]

/-- The bytes `Fx55` stores are the registers V0..Vx in order (R246). -/
theorem length_registersTo (s : State) (x : Nibble) : (s.registersTo x).length = x.toNat + 1 := by
  have := x.isLt
  simp [registersTo]
  omega

theorem getElem_registersTo (s : State) (x r : Nibble) (h : r.toNat < (s.registersTo x).length) :
    (s.registersTo x)[r.toNat] = s.readV r := by
  simp [registersTo, readV]

/-- Two states that agree on every register read have the same registers. -/
theorem V_eq_of_readV {s t : State} (h : ∀ r, s.readV r = t.readV r) : s.V = t.V := by
  apply Vector.ext
  intro j hj
  have := h (BitVec.ofNat 4 j)
  have hm : j % 16 = j := Nat.mod_eq_of_lt hj
  simpa only [readV, BitVec.toNat_ofNat, Nat.reducePow, hm] using this

/-! ### Memory -/

/-- The bounds check of an access to `I .. I + last`, as an inequality (R84). -/
theorem inBounds_iff (s : State) (last : Nat) :
    s.inBounds last = true ↔ s.I.toNat + last < Config.memSize :=
  decide_eq_true_iff

theorem inBounds_false_iff (s : State) (last : Nat) :
    s.inBounds last = false ↔ Config.memSize ≤ s.I.toNat + last :=
  decide_eq_false_iff_not.trans Nat.not_lt

/-! ### Faults -/

/-- Entering a fault changes the run-control fields and the signals, and nothing else (R140). -/
theorem takeFault_eq_haltedBy (s : State) (kind : FaultKind) (info : FaultInfo) :
    s.takeFault kind info = haltedBy s kind info := rfl

/-- A fault taken from the start of a cycle is the fault taken from before it. -/
theorem takeFault_startCycle (s : State) (kind : FaultKind) (info : FaultInfo) :
    s.startCycle.takeFault kind info = haltedBy s kind info := rfl

/-! ### Active framebuffer -/

/-- An update of the screen is that update of the active grid. -/
theorem updateScreen_of_hires {s : State} (h : s.hires = true)
    (f : ∀ {w h : Nat}, Framebuffer w h → Framebuffer w h) :
    s.updateScreen f = { s with fbHi := f s.fbHi } := by
  simp [updateScreen, h]

theorem updateScreen_of_lores {s : State} (h : s.hires = false)
    (f : ∀ {w h : Nat}, Framebuffer w h → Framebuffer w h) :
    s.updateScreen f = { s with fbLo := f s.fbLo } := by
  simp [updateScreen, h]

/-- The inactive buffer is unchanged by an update of the screen (R270). -/
theorem updateScreen_inactive (s : State) (f : ∀ {w h : Nat}, Framebuffer w h → Framebuffer w h) :
    if s.hires then (s.updateScreen f).fbLo = s.fbLo else (s.updateScreen f).fbHi = s.fbHi := by
  cases h : s.hires <;> simp [updateScreen, h]

/-- Outside the screen every pixel reads 0. -/
theorem pixel_outside (s : State) {px py : Nat} (h : s.width ≤ px ∨ s.height ≤ py) :
    s.pixel px py = false := by
  unfold pixel
  unfold width height at h
  split
  · next hh => rw [if_pos hh, if_pos hh] at h; exact Framebuffer.pixel_outside _ h
  · next hh => rw [if_neg hh, if_neg hh] at h; exact Framebuffer.pixel_outside _ h

end State

/-! ### The variant gate -/

theorem underSuperchip_superchip {s : State} (h : s.variant = .superchip) (i : Instr) (e : State) :
    underSuperchip s i e = .next e := by
  simp only [underSuperchip, h]

theorem underSuperchip_chip8 {s : State} (h : s.variant = .chip8) (i : Instr) (e : State) :
    underSuperchip s i e = .next (haltedBy s .illegalInstruction (.word (encode i))) := by
  simp only [underSuperchip, h]; rfl

/-- What the gate can answer: the effect, under SUPERCHIP; or the illegal-instruction fault. -/
theorem underSuperchip_cases {s t : State} {i : Instr} {e : State}
    (h : underSuperchip s i e = .next t) :
    (s.variant = .superchip ∧ t = e) ∨
    (s.variant = .chip8 ∧ t = haltedBy s .illegalInstruction (.word (encode i))) := by
  cases hv : s.variant with
  | superchip => rw [underSuperchip_superchip hv] at h; cases h; exact .inl ⟨rfl, rfl⟩
  | chip8 => rw [underSuperchip_chip8 hv] at h; cases h; exact .inr ⟨rfl, rfl⟩

end Sys2Proof.Machine
end

