-- ==== Sys2Proof/Laws/Display.lean ====
section
/-! SUPPORT. What a sprite draw does to a framebuffer and to the state (R271, R280 to R286). -/

namespace Sys2Proof.Machine.Framebuffer

variable {w h : Nat}

/-- Plots with distinct targets: exactly the targets are inverted, and a collision is recorded exactly
when a target was lit before. -/
theorem foldl_plot (clipping : Bool) (hw : 0 < w) (hh : 0 < h) (places : List (Nat × Nat))
    (hd : places.Pairwise fun p q => edgeTarget w h clipping p.1 p.2 = none ∨
      edgeTarget w h clipping p.1 p.2 ≠ edgeTarget w h clipping q.1 q.2)
    (acc : Framebuffer w h × Bool) :
    (∀ px py, (places.foldl (fun a p => plot clipping p.1 p.2 a) acc).1.pixel px py
        = xor (acc.1.pixel px py)
          (decide (∃ p ∈ places, edgeTarget w h clipping p.1 p.2 = some (px, py))))
    ∧ ((places.foldl (fun a p => plot clipping p.1 p.2 a) acc).2 = true ↔ acc.2 = true ∨
        ∃ p ∈ places, ∃ tx ty, edgeTarget w h clipping p.1 p.2 = some (tx, ty)
          ∧ acc.1.pixel tx ty = true) := by
  induction places generalizing acc with
  | nil => simp
  | cons p ps ih =>
    rw [List.pairwise_cons] at hd
    obtain ⟨ih1, ih2⟩ := ih hd.2 (plot clipping p.1 p.2 acc)
    rcases plot_cases clipping p.1 p.2 acc with ⟨ht, hp⟩ | ⟨tx, ty, ht, hp⟩
    · rw [hp] at ih1 ih2
      simp only [List.foldl_cons, hp]
      refine ⟨fun px py => ?_, ?_⟩
      · rw [ih1]; simp [ht]
      · rw [ih2]; simp [ht]
    · rw [hp] at ih1 ih2
      simp only [List.foldl_cons, hp]
      obtain ⟨hx, hy⟩ := edgeTarget_inside hw hh ht
      have hout : ∀ q ∈ ps, edgeTarget w h clipping q.1 q.2 ≠ some (tx, ty) := by
        intro q hq he
        rcases hd.1 q hq with h1 | h1
        · rw [h1] at ht; cases ht
        · rw [ht, he] at h1; exact h1 rfl
      refine ⟨fun px py => ?_, ?_⟩
      · rw [ih1]
        by_cases hq : px = tx ∧ py = ty
        · obtain ⟨rfl, rfl⟩ := hq
          rw [pixel_setPixel_same _ hx hy]
          have : ¬ ∃ q ∈ ps, edgeTarget w h clipping q.1 q.2 = some (px, py) :=
            fun ⟨q, hq, he⟩ => hout q hq he
          simp [this, ht]
        · rw [pixel_setPixel_ne _ hq]
          congr 1
          have : edgeTarget w h clipping p.1 p.2 ≠ some (px, py) := by
            rw [ht]; intro he; cases he; exact hq ⟨rfl, rfl⟩
          simp [this]
      · rw [ih2]
        have e : (∃ q ∈ ps, ∃ ux uy, edgeTarget w h clipping q.1 q.2 = some (ux, uy)
              ∧ (acc.1.setPixel tx ty (!acc.1.pixel tx ty)).pixel ux uy = true) ↔
            (∃ q ∈ ps, ∃ ux uy, edgeTarget w h clipping q.1 q.2 = some (ux, uy)
              ∧ acc.1.pixel ux uy = true) := by
          constructor <;> rintro ⟨q, hq, ux, uy, he, hl⟩ <;> refine ⟨q, hq, ux, uy, he, ?_⟩ <;>
            have hne : ¬(ux = tx ∧ uy = ty) := fun hc => hout q hq (by rw [he, hc.1, hc.2]) <;>
            simpa [pixel_setPixel_ne _ hne] using hl
        simp only [e, Bool.or_eq_true, List.mem_cons, exists_eq_or_imp, ht, Option.some.injEq,
          Prod.mk.injEq]
        constructor
        · rintro ((h1 | h1) | h1)
          · exact .inl h1
          · exact .inr (.inl ⟨tx, ty, ⟨rfl, rfl⟩, h1⟩)
          · exact .inr (.inr h1)
        · rintro (h1 | ⟨ux, uy, ⟨rfl, rfl⟩, h1⟩ | h1)
          · exact .inl (.inl h1)
          · exact .inl (.inr h1)
          · exact .inr h1

/-- Two places at most a screen apart have one target only when they are the same place (R282). -/
theorem edgeTarget_injective {clipping : Bool} {ox oy c r c' r' : Nat} (hc : c < w) (hc' : c' < w)
    (hr : r < h) (hr' : r' < h) {t : Nat × Nat}
    (h1 : edgeTarget w h clipping (ox + c) (oy + r) = some t)
    (h2 : edgeTarget w h clipping (ox + c') (oy + r') = some t) : c = c' ∧ r = r' := by
  have key : ∀ {o a b m : Nat}, a < m → b < m → (o + a) % m = (o + b) % m → a = b := by
    intro o a b m ha hb he
    have := (Nat.ModEq.add_left_cancel' o (show (o + a) ≡ (o + b) [MOD m] from he))
    rwa [Nat.ModEq, Nat.mod_eq_of_lt ha, Nat.mod_eq_of_lt hb] at this
  have mods : ∀ {c r : Nat}, edgeTarget w h clipping (ox + c) (oy + r) = some t →
      (ox + c) % w = t.1 ∧ (oy + r) % h = t.2 := by
    intro c r he
    unfold edgeTarget at he
    split at he
    · split at he
      · cases he
      · cases he; exact ⟨rfl, rfl⟩
    · next hn =>
      cases he
      exact ⟨Nat.mod_eq_of_lt (by omega), Nat.mod_eq_of_lt (by omega)⟩
  obtain ⟨a1, a2⟩ := mods h1
  obtain ⟨b1, b2⟩ := mods h2
  exact ⟨key hc hc' (a1.trans b1.symm), key hr hr' (a2.trans b2.symm)⟩

theorem litCells_pairwise {n : Nat} (rows : List (BitVec n)) (r0 : Nat) :
    (litCells rows r0).Pairwise (· ≠ ·) := by
  induction rows generalizing r0 with
  | nil => exact List.Pairwise.nil
  | cons row rows ih =>
    simp only [litCells]
    rw [List.pairwise_append]
    refine ⟨?_, ih _, ?_⟩
    · rw [List.pairwise_map]
      have : (litColumns row).Nodup := List.Nodup.filter _ List.nodup_range
      exact this.imp (fun hne he => hne (by simpa using he))
    · rintro ⟨c, r⟩ h1 ⟨c', r'⟩ h2 he
      cases he
      rw [List.mem_map] at h1
      obtain ⟨_, _, he⟩ := h1
      cases he
      have := ((mem_litCells rows (r0 + 1) c r0).1 h2).1
      omega

/-- The pixels and the collision of a draw (R271, R283, R285), for a sprite no larger than the screen:
a pixel is inverted exactly when it is the target of a sprite pixel that is 1, and a collision is
recorded exactly when such a target was lit before. -/
theorem draw_spec {n : Nat} (clipping : Bool) (ox oy : Nat) (rows : List (BitVec n))
    (fb : Framebuffer w h) (hw : n ≤ w) (hw0 : 0 < w) (hh : rows.length ≤ h) (hh0 : 0 < h) :
    (∀ px py, (draw clipping ox oy rows fb).1.pixel px py
        = xor (fb.pixel px py) (decide (∃ cell ∈ litCells rows 0,
            edgeTarget w h clipping (ox + cell.1) (oy + cell.2) = some (px, py))))
    ∧ ((draw clipping ox oy rows fb).2 = true ↔ ∃ cell ∈ litCells rows 0, ∃ tx ty,
        edgeTarget w h clipping (ox + cell.1) (oy + cell.2) = some (tx, ty)
          ∧ fb.pixel tx ty = true) := by
  have hsize : ∀ cell ∈ litCells rows 0, cell.1 < w ∧ cell.2 < h := by
    rintro ⟨c, r⟩ hm
    obtain ⟨_, row, h1, h2, _⟩ := (mem_litCells rows 0 c r).1 hm
    have : r - 0 < rows.length := by
      rw [List.getElem?_eq_some_iff] at h1; exact h1.1
    exact ⟨by show c < w; omega, by show r < h; omega⟩
  have hd : ((litCells rows 0).map fun cell => (ox + cell.1, oy + cell.2)).Pairwise fun p q =>
      edgeTarget w h clipping p.1 p.2 = none ∨
      edgeTarget w h clipping p.1 p.2 ≠ edgeTarget w h clipping q.1 q.2 := by
    rw [List.pairwise_map]
    refine List.Pairwise.imp_of_mem ?_ (litCells_pairwise rows 0)
    rintro ⟨c, r⟩ ⟨c', r'⟩ hm hm' hne
    have s1 := hsize _ hm
    have s2 := hsize _ hm'
    cases ht : edgeTarget w h clipping (ox + c) (oy + r) with
    | none => exact .inl rfl
    | some t =>
      refine .inr (fun he => hne ?_)
      have := edgeTarget_injective s1.1 s2.1 s1.2 s2.2 ht he.symm
      rw [Prod.mk.injEq]; exact this
  obtain ⟨h1, h2⟩ := foldl_plot clipping hw0 hh0 _ hd (fb, false)
  rw [List.foldl_map] at h2
  simp only [List.foldl_map] at h1
  refine ⟨fun px py => (h1 px py).trans ?_, h2.trans ?_⟩
  · congr 1
    exact decide_eq_decide.2 (by simp)
  · simp

/-- Around an edge, an offset and the distance back are each other's inverse. -/
theorem mod_iff {m o p c : Nat} (ho : o < m) (hp : p < m) (hc : c < m) :
    (o + c) % m = p ↔ (p + m - o) % m = c := by
  have hback : (p + m - o) % m = if p < o then p + m - o else p - o := by
    split
    · exact Nat.mod_eq_of_lt (by omega)
    · rw [show p + m - o = p - o + m by omega, Nat.add_mod_right, Nat.mod_eq_of_lt (by omega)]
  have hon : (o + c) % m = if o + c < m then o + c else o + c - m := by
    split
    · next h1 => exact Nat.mod_eq_of_lt h1
    · rw [Nat.mod_eq_sub_mod (by omega), Nat.mod_eq_of_lt (by omega)]
  rw [hback, hon]
  split <;> split <;> omega

/-- Which sprite pixel has a given pixel of the screen as its target (R282). -/
theorem target_iff (clipping : Bool) {ox oy c r px py : Nat} (hox : ox < w) (hoy : oy < h)
    (hc : c < w) (hr : r < h) (hx : px < w) (hy : py < h) :
    edgeTarget w h clipping (ox + c) (oy + r) = some (px, py) ↔
      if clipping then ox ≤ px ∧ oy ≤ py ∧ c = px - ox ∧ r = py - oy
      else c = (px + w - ox) % w ∧ r = (py + h - oy) % h := by
  unfold edgeTarget
  cases clipping
  · simp only [Bool.false_eq_true, if_false]
    rw [eq_comm (a := c), eq_comm (a := r), ← mod_iff hox hx hc, ← mod_iff hoy hy hr]
    split
    · simp
    · rw [Nat.mod_eq_of_lt (by omega), Nat.mod_eq_of_lt (by omega)]; simp
  · simp only [if_true]
    split
    · simp; omega
    · simp; omega

/-- The targets of the sprite pixels that are 1 are the pixels `spriteOn` names. -/
theorem spriteOn_iff {n : Nat} (clipping : Bool) {ox oy px py : Nat} (rows : List (BitVec n))
    (bit : Nat → Nat → Bool)
    (hbit : ∀ r c, c < n → ∀ row, rows[r]? = some row → bit r c = row.getLsbD (n - 1 - c))
    (hox : ox < w) (hoy : oy < h) (hn : n ≤ w) (hr : rows.length ≤ h) (hx : px < w) (hy : py < h) :
    (∃ cell ∈ litCells rows 0,
      edgeTarget w h clipping (ox + cell.1) (oy + cell.2) = some (px, py)) ↔
      spriteOn clipping w h ox oy rows.length n bit px py = true := by
  constructor
  · rintro ⟨⟨c, r⟩, hm, ht⟩
    obtain ⟨_, row, h1, h2, h3⟩ := (mem_litCells rows 0 c r).1 hm
    rw [Nat.sub_zero] at h1
    have hrl : r < rows.length := (List.getElem?_eq_some_iff.1 h1).1
    rw [target_iff clipping hox hoy (by omega) (by omega) hx hy] at ht
    have hb := hbit r c h2 row h1
    unfold spriteOn
    cases clipping
    · simp only [Bool.false_eq_true, if_false] at ht ⊢
      obtain ⟨rfl, rfl⟩ := ht
      simp [h2, hrl, hb, h3]
    · simp only [if_true] at ht ⊢
      obtain ⟨a, b, rfl, rfl⟩ := ht
      simp [a, b, h2, hrl, hb, h3]
  · intro hs
    have main : ∀ c r, c < n → r < rows.length → bit r c = true →
        (if clipping then ox ≤ px ∧ oy ≤ py ∧ c = px - ox ∧ r = py - oy
         else c = (px + w - ox) % w ∧ r = (py + h - oy) % h) →
        ∃ cell ∈ litCells rows 0,
          edgeTarget w h clipping (ox + cell.1) (oy + cell.2) = some (px, py) := by
      intro c r hc hr' hb ht
      have hrow : rows[r]? = some rows[r] := List.getElem?_eq_getElem hr'
      refine ⟨(c, r), (mem_litCells rows 0 c r).2 ⟨Nat.zero_le _, rows[r], hrow, hc, ?_⟩,
        (target_iff clipping hox hoy (by omega) (by omega) hx hy).2 ht⟩
      rw [← hbit r c hc rows[r] hrow]
      exact hb
    unfold spriteOn at hs
    cases clipping
    · simp only [Bool.false_eq_true, if_false, Bool.and_eq_true, decide_eq_true_eq] at hs
      exact main _ _ hs.1.1 hs.1.2 hs.2 ⟨rfl, rfl⟩
    · simp only [if_true, Bool.and_eq_true, decide_eq_true_eq] at hs
      exact main _ _ hs.1.1.2 hs.1.2 hs.2 ⟨hs.1.1.1.1, hs.1.1.1.2, rfl, rfl⟩

end Sys2Proof.Machine.Framebuffer

namespace Sys2Proof.Machine.State

/-- A draw in low-res (R285, R286): one update of the state. -/
theorem completeDraw_of_lores {n : Nat} {s : State} (h : s.hires = false) (x y : Nibble)
    (rows : List (BitVec n)) {drawn : Framebuffer Config.loresW Config.loresH × Bool}
    (hd : s.fbLo.draw s.quirks.clipping ((s.readV x).toNat % 64) ((s.readV y).toNat % 32) rows
      = drawn) :
    s.completeDraw x y rows = { s with
      PC := s.PC + 2#16
      fbLo := drawn.1
      V := (s.writeV 0xF#4 (collisionFlag drawn.2)).V
      signal := { s.signal with redraw := true }
      vblankHold := s.quirks.displayWait || s.vblankHold } := by
  have hx : s.advancePC.originX x = (s.readV x).toNat % 64 := by simp [originX, width, h]
  have hy : s.advancePC.originY y = (s.readV y).toNat % 32 := by simp [originY, height, h]
  subst hd
  simp only [completeDraw, drawSprite, signalRedraw, holdIfQuirk, hx, hy]
  simp [advancePC, h, writeV]

/-- A draw in high-res (R285, R286): one update of the state. -/
theorem completeDraw_of_hires {n : Nat} {s : State} (h : s.hires = true) (x y : Nibble)
    (rows : List (BitVec n)) {drawn : Framebuffer Config.hiresW Config.hiresH × Bool}
    (hd : s.fbHi.draw s.quirks.clipping ((s.readV x).toNat % 128) ((s.readV y).toNat % 64) rows
      = drawn) :
    s.completeDraw x y rows = { s with
      PC := s.PC + 2#16
      fbHi := drawn.1
      V := (s.writeV 0xF#4 (collisionFlag drawn.2)).V
      signal := { s.signal with redraw := true }
      vblankHold := s.quirks.displayWait || s.vblankHold } := by
  have hx : s.advancePC.originX x = (s.readV x).toNat % 128 := by simp [originX, width, h]
  have hy : s.advancePC.originY y = (s.readV y).toNat % 64 := by simp [originY, height, h]
  subst hd
  simp only [completeDraw, drawSprite, signalRedraw, holdIfQuirk, hx, hy]
  simp [advancePC, h, writeV]

end Sys2Proof.Machine.State
end

