-- ==== Sys2Proof/Laws/Exec.lean ====
section
/-! SUPPORT. What a cycle can do, and what each meaning that branches can do, each said once: proofs
about every instruction or every cycle go through these lemmas and do not unfold the meanings. A
meaning that does not branch answers one `.next` by definition. -/

namespace Sys2Proof.Machine

/-! ### The meanings that branch -/

theorem execRet_cases {s t : State} (h : execRet s = .next t) :
    (∃ hs : 0 < s.SP.val, t = s.popAndJump hs) ∨
    (s.SP.val = 0 ∧ t = haltedBy s .stackUnderflow .ret) := by
  unfold execRet at h
  split at h
  · next hs => cases h; exact .inl ⟨hs, rfl⟩
  · next hs => cases h; exact .inr ⟨by omega, rfl⟩

theorem execCall_cases {nnn : Addr12} {s t : State} (h : execCall nnn s = .next t) :
    (∃ hs : s.SP.val < Config.stackDepth, t = s.pushAndJump hs (s.PC + 2#16) (zext16 nnn)) ∨
    (s.SP.val = Config.stackDepth ∧ t = haltedBy s .stackOverflow .call) := by
  unfold execCall at h
  split at h
  · next hs => cases h; exact .inl ⟨hs, rfl⟩
  · next hs => cases h; exact .inr ⟨by have := s.SP.isLt; omega, rfl⟩

theorem execDrwVxVyN_cases {x y n : Nibble} {s t : State} (h : execDrwVxVyN x y n s = .next t) :
    ((n.toNat = 0 ∨ s.I.toNat + n.toNat - 1 < Config.memSize) ∧
      t = s.completeDraw x y (s.spriteRows8 n.toNat)) ∨
    (0 < n.toNat ∧ Config.memSize ≤ s.I.toNat + n.toNat - 1 ∧
      t = haltedBy s .outOfBoundsAccess (.address (s.I.toNat + n.toNat - 1))) := by
  unfold execDrwVxVyN at h
  split at h
  · next hc =>
    rw [State.inBounds_false_iff] at hc
    cases h
    refine .inr ⟨hc.1, by omega, ?_⟩
    rw [show s.I.toNat + n.toNat - 1 = s.effAddr (n.toNat - 1) from Nat.add_sub_assoc hc.1 _]
    rfl
  · next hc =>
    rw [State.inBounds_false_iff] at hc
    cases h
    exact .inl ⟨by omega, rfl⟩

theorem execDrwVxVy0_cases {x y : Nibble} {s t : State} (h : execDrwVxVy0 x y s = .next t) :
    (s.variant = .superchip ∧ s.I.toNat + 31 < Config.memSize ∧
      t = s.completeDraw x y (s.spriteRows16 16)) ∨
    (s.variant = .superchip ∧ Config.memSize ≤ s.I.toNat + 31 ∧
      t = haltedBy s .outOfBoundsAccess (.address (s.I.toNat + 31))) ∨
    (s.variant = .chip8 ∧ t = s.completeDraw x y (s.spriteRows8 0)) := by
  unfold execDrwVxVy0 at h
  split at h
  · next hv =>
    split at h
    · next hc => cases h; exact .inl ⟨hv, (State.inBounds_iff s 31).1 hc, rfl⟩
    · next hc =>
      cases h
      exact .inr (.inl ⟨hv, (State.inBounds_false_iff s 31).1 (Bool.not_eq_true _ ▸ hc), rfl⟩)
  · next hv => cases h; exact .inr (.inr ⟨hv, rfl⟩)

theorem execSkpVx_cases {x : Nibble} {s t : State} (h : execSkpVx x s = .next t) :
    ((s.readV x).toNat ≤ 0xF ∧ t = s.advancePC.skipIf (s.keyDown (s.readV x))) ∨
    (0xF < (s.readV x).toNat ∧ t = haltedBy s .unmodelled .skpKey) := by
  unfold execSkpVx at h
  split at h
  · next hc => cases h; exact .inr ⟨hc, rfl⟩
  · next hc => cases h; exact .inl ⟨Nat.le_of_not_lt hc, rfl⟩

theorem execSknpVx_cases {x : Nibble} {s t : State} (h : execSknpVx x s = .next t) :
    ((s.readV x).toNat ≤ 0xF ∧ t = s.advancePC.skipIf (!s.keyDown (s.readV x))) ∨
    (0xF < (s.readV x).toNat ∧ t = haltedBy s .unmodelled .sknpKey) := by
  unfold execSknpVx at h
  split at h
  · next hc => cases h; exact .inr ⟨hc, rfl⟩
  · next hc => cases h; exact .inl ⟨Nat.le_of_not_lt hc, rfl⟩

theorem execLdFVx_cases {x : Nibble} {s t : State} (h : execLdFVx x s = .next t) :
    ((s.readV x).toNat ≤ 0xF ∧
      t = { s with PC := s.PC + 2#16, I := trunc16 (s.fonts.smallBase + 5 * (s.readV x).toNat) }) ∨
    (0xF < (s.readV x).toNat ∧ t = haltedBy s .unmodelled .smallDigit) := by
  unfold execLdFVx at h
  split at h
  · next hc => cases h; exact .inr ⟨hc, rfl⟩
  · next hc => cases h; exact .inl ⟨Nat.le_of_not_lt hc, rfl⟩

theorem execLdHFVx_cases {x : Nibble} {s t : State} (h : execLdHFVx x s = .next t) :
    (s.variant = .superchip ∧ (s.readV x).toNat ≤ 9 ∧
      t = { s with PC := s.PC + 2#16, I := trunc16 (s.fonts.bigBase + 10 * (s.readV x).toNat) }) ∨
    (s.variant = .superchip ∧ 9 < (s.readV x).toNat ∧ t = haltedBy s .unmodelled .bigDigit) ∨
    (s.variant = .chip8 ∧ t = haltedBy s .illegalInstruction (.word (encode (.ldHFVx x)))) := by
  rcases underSuperchip_cases h with ⟨hv, rfl⟩ | ⟨hv, rfl⟩
  · split
    · next hc => exact .inr (.inl ⟨hv, hc, rfl⟩)
    · next hc => exact .inl ⟨hv, Nat.le_of_not_lt hc, rfl⟩
  · exact .inr (.inr ⟨hv, rfl⟩)

theorem execLdBVx_cases {x : Nibble} {s t : State} (h : execLdBVx x s = .next t) :
    (s.I.toNat + 2 < Config.memSize ∧
      t = s.advancePC.writeBytes s.I.toNat (bcdDigits (s.readV x))) ∨
    (Config.memSize ≤ s.I.toNat + 2 ∧
      t = haltedBy s .outOfBoundsAccess (.address (s.I.toNat + 2))) := by
  unfold execLdBVx at h
  split at h
  · next hc => cases h; exact .inl ⟨(State.inBounds_iff s 2).1 hc, rfl⟩
  · next hc =>
    cases h
    exact .inr ⟨(State.inBounds_false_iff s 2).1 (Bool.not_eq_true _ ▸ hc), rfl⟩

theorem execLdMemVx_cases {x : Nibble} {s t : State} (h : execLdMemVx x s = .next t) :
    (s.I.toNat + x.toNat < Config.memSize ∧
      t = (s.advancePC.writeBytes s.I.toNat (s.registersTo x)).incrementIfQuirk x) ∨
    (Config.memSize ≤ s.I.toNat + x.toNat ∧
      t = haltedBy s .outOfBoundsAccess (.address (s.I.toNat + x.toNat))) := by
  unfold execLdMemVx at h
  split at h
  · next hc => cases h; exact .inl ⟨(State.inBounds_iff s _).1 hc, rfl⟩
  · next hc =>
    cases h
    exact .inr ⟨(State.inBounds_false_iff s _).1 (Bool.not_eq_true _ ▸ hc), rfl⟩

theorem execLdVxMem_cases {x : Nibble} {s t : State} (h : execLdVxMem x s = .next t) :
    (s.I.toNat + x.toNat < Config.memSize ∧
      t = (s.advancePC.loadRegisters (x.toNat + 1)
        fun k => s.readByte (s.effAddr k)).incrementIfQuirk x) ∨
    (Config.memSize ≤ s.I.toNat + x.toNat ∧
      t = haltedBy s .outOfBoundsAccess (.address (s.I.toNat + x.toNat))) := by
  unfold execLdVxMem at h
  split at h
  · next hc => cases h; exact .inl ⟨(State.inBounds_iff s _).1 hc, rfl⟩
  · next hc =>
    cases h
    exact .inr ⟨(State.inBounds_false_iff s _).1 (Bool.not_eq_true _ ▸ hc), rfl⟩

theorem execLdRVx_cases {x : Nibble} {s t : State} (h : execLdRVx x s = .next t) :
    (s.variant = .superchip ∧ x.toNat ≤ 7 ∧ t = s.advancePC.saveFlags (x.toNat + 1)) ∨
    ((s.variant = .chip8 ∨ 7 < x.toNat) ∧
      t = haltedBy s .illegalInstruction (.word (encode (.ldRVx x)))) := by
  rcases underSuperchip_cases h with ⟨hv, rfl⟩ | ⟨hv, rfl⟩
  · split
    · next hc => exact .inl ⟨hv, hc, rfl⟩
    · next hc => exact .inr ⟨.inr (Nat.lt_of_not_le hc), rfl⟩
  · exact .inr ⟨.inl hv, rfl⟩

theorem execLdVxR_cases {x : Nibble} {s t : State} (h : execLdVxR x s = .next t) :
    (s.variant = .superchip ∧ x.toNat ≤ 7 ∧
      t = s.advancePC.loadRegisters (x.toNat + 1) s.readFlag) ∨
    ((s.variant = .chip8 ∨ 7 < x.toNat) ∧
      t = haltedBy s .illegalInstruction (.word (encode (.ldVxR x)))) := by
  rcases underSuperchip_cases h with ⟨hv, rfl⟩ | ⟨hv, rfl⟩
  · split
    · next hc => exact .inl ⟨hv, hc, rfl⟩
    · next hc => exact .inr ⟨.inr (Nat.lt_of_not_le hc), rfl⟩
  · exact .inr ⟨.inl hv, rfl⟩

/-! ### The cycle -/

theorem hold_eq_none {s : State} :
    s.hold = none ↔ s.halted = false ∧ s.waitKey = .notWaiting ∧ s.vblankHold = false := by
  unfold State.hold
  cases s.halted <;> cases s.vblankHold <;> by_cases hw : s.waitKey = .notWaiting <;> simp [hw]

theorem fetchFault_eq_none {s : State} :
    s.fetchFault = none ↔ s.PC.toNat % 2 = 0 ∧ s.PC.toNat + 1 < Config.memSize := by
  unfold State.fetchFault
  split
  · next h => simp [h]
  · next h =>
    split
    · next h' => simp [Nat.not_lt.2 h']
    · next h' => simp [Classical.not_not.1 h, Nat.lt_of_not_le h']

/-- Without a hold, a step fetches, decodes and executes from the state `startCycle` leaves. -/
theorem step_of_no_hold {s : State} (h : s.hold = none) : step s = fetchAndExecute s.startCycle := by
  simp only [step, executeOneCycle, h]

/-- What a cycle can do: hold; fault at the fetch or at the decoding; execute one instruction. -/
theorem step_cases {s t : State} (h : step s = .next t) :
    (s.halted = true ∧ t = { s.startCycle with signal := { Signal.quiet with halted := true } }) ∨
    (s.halted = false ∧ (s.waitKey ≠ .notWaiting ∨ s.vblankHold = true) ∧ t = s.startCycle) ∨
    (s.hold = none ∧ ∃ info, t = haltedBy s .outOfBoundsAccess info) ∨
    (s.hold = none ∧ ∃ w, t = haltedBy s .illegalInstruction (.word w)) ∨
    (s.hold = none ∧ ∃ i, decode s.variant (s.fetchWord s.PC.toNat) = .instr i ∧
      exec i s.startCycle = .next t) := by
  cases hh : s.hold with
  | none =>
    rw [step_of_no_hold hh, fetchAndExecute] at h
    split at h
    · cases h; exact .inr (.inr (.inl ⟨rfl, _, rfl⟩))
    · split at h
      · cases h; exact .inr (.inr (.inr (.inl ⟨rfl, _, rfl⟩)))
      · next i hi => exact .inr (.inr (.inr (.inr ⟨rfl, i, hi, h⟩)))
  | some r =>
    simp only [step, executeOneCycle, hh] at h
    unfold State.hold at hh
    split at hh
    · next h1 => cases hh; cases h; exact .inl ⟨h1, rfl⟩
    · next h1 =>
      have hf : s.halted = false := Bool.not_eq_true _ ▸ h1
      split at hh
      · next h2 => cases hh; cases h; exact .inr (.inl ⟨hf, .inl h2, rfl⟩)
      · split at hh
        · next h3 => cases hh; cases h; exact .inr (.inl ⟨hf, .inr h3, rfl⟩)
        · cases hh

/-! ### Runs -/

/-- A run of no step, of any core. -/
theorem run_zero (M : Host.Core) (s : M.State) : M.run 0 s = .next s := by rw [Host.Core.run]

/-- A run of one more step, of any core, when the first answers next. -/
theorem run_succ_next (M : Host.Core) (n : Nat) {s t : M.State} (h : M.step s = .next t) :
    M.run (n + 1) s = M.run n t := by
  rw [Host.Core.run, h]

/-- The same of this core, for states written as `State`. -/
theorem core_run_zero (s : State) : Host.Core.run Sys2Proof.core 0 s = .next s :=
  run_zero Sys2Proof.core s

theorem core_run_succ (n : Nat) {s t : State} (h : step s = .next t) :
    Host.Core.run Sys2Proof.core (n + 1) s = Host.Core.run Sys2Proof.core n t :=
  run_succ_next Sys2Proof.core n h

/-- A history of one more cycle. -/
theorem performAll_cycle {s t : State} (h : executeOneCycle s = .next t) (cs : List Command) :
    performAll (.executeOneCycle :: cs) s = performAll cs t := by
  simp only [performAll, perform, h]

/-- One history after another. -/
theorem performAll_append {s t : State} {cs : List Command} (h : performAll cs s = .next t)
    (ds : List Command) : performAll (cs ++ ds) s = performAll ds t := by
  induction cs generalizing s with
  | nil => cases h; rfl
  | cons c cs ih =>
    rw [List.cons_append, performAll]
    rw [performAll] at h
    split at h
    · exact ih h
    · cases h
    · cases h

end Sys2Proof.Machine
end

