-- ==== Sys2Proof/Laws/PerInstr.lean ====
section
/-! SUPPORT. Statements made instruction by instruction. `RowMatch`: the word of an instruction matches
the row of the opcode map (30_encoding.md R104) that bears its mnemonic, whatever its operands. -/

namespace Sys2Proof

/-- A mask of whole nibbles takes each nibble of a word or leaves it out. -/
theorem wordXYN_and (op x y n a b c d : Nibble) :
    wordXYN op x y n &&& wordXYN a b c d
      = wordXYN (op &&& a) (x &&& b) (y &&& c) (n &&& d) :=
  (BitVec.and_append (x₁ := op ++ x ++ y) (y₁ := n)).trans
    (congrArg (· ++ (n &&& d)) ((BitVec.and_append (x₁ := op ++ x) (y₁ := y)).trans
      (congrArg (· ++ (y &&& c)) BitVec.and_append)))

/-- The low byte of a word as two nibbles. -/
theorem wordXKk_eq_wordXYN (op x : Nibble) (kk : Byte) :
    wordXKk op x kk = wordXYN op x (kk.extractLsb' 4 4) (kk.extractLsb' 0 4) := by
  apply BitVec.eq_of_toNat_eq
  rw [wordXKk_toNat, wordXYN_toNat, BitVec.extractLsb'_toNat, BitVec.extractLsb'_toNat,
    Nat.shiftRight_eq_div_pow, Nat.shiftRight_eq_div_pow]
  omega

/-- The address field of a word as three nibbles. -/
theorem wordNnn_eq_wordXYN (op : Nibble) (nnn : Addr12) :
    wordNnn op nnn = wordXYN op (nnn.extractLsb' 8 4) (nnn.extractLsb' 4 4)
      (nnn.extractLsb' 0 4) := by
  apply BitVec.eq_of_toNat_eq
  rw [wordNnn_toNat, wordXYN_toNat, BitVec.extractLsb'_toNat, BitVec.extractLsb'_toNat,
    BitVec.extractLsb'_toNat, Nat.shiftRight_eq_div_pow, Nat.shiftRight_eq_div_pow,
    Nat.shiftRight_eq_div_pow]
  omega

/-- A row whose mask and match are given as nibbles: a word matches it when the masked nibbles are
those of the match. -/
theorem matchesWord_of_nibbles {r : OpcodeRow} {op x y n a b c d a' b' c' d' : Nibble}
    (hm : r.mask = wordXYN a b c d) (hp : r.pattern = wordXYN a' b' c' d')
    (h1 : op &&& a = a') (h2 : x &&& b = b') (h3 : y &&& c = c') (h4 : n &&& d = d') :
    r.matchesWord (wordXYN op x y n) = true := by
  rw [OpcodeRow.matchesWord, hm, hp, wordXYN_and, h1, h2, h3, h4]
  exact beq_self_eq_true _

/-- A nibble the mask leaves out. -/
theorem nibble_and_zero (x : Nibble) : x &&& 0x0#4 = 0x0#4 := BitVec.and_zero

namespace Laws.RowMatch

/-- A row of the map bears the instruction's mnemonic and its variant mark, and the instruction's word
matches it. -/
def Statement (i : Instr) : Prop :=
  ∃ r ∈ opcodeMap, r.mnemonic = i.mnemonic ∧ r.superOnly = i.superOnly
    ∧ r.matchesWord (encode i) = true

theorem scd (n : Nibble) : Statement (.scd n) :=
  ⟨⟨"SCD_n", 0xFFF0#16, 0x00C0#16, true⟩, by simp [opcodeMap, opcodeRows0],
    rfl, rfl, 
    matchesWord_of_nibbles (a := 0xF#4) (b := 0xF#4) (c := 0xF#4) (d := 0x0#4)
      (a' := 0x0#4) (b' := 0x0#4) (c' := 0xC#4) (d' := 0x0#4) rfl rfl rfl rfl rfl (nibble_and_zero _)⟩

theorem cls : Statement .cls :=
  ⟨⟨"CLS", 0xFFFF#16, 0x00E0#16, false⟩, by simp [opcodeMap, opcodeRows0],
    rfl, rfl, rfl⟩

theorem ret : Statement .ret :=
  ⟨⟨"RET", 0xFFFF#16, 0x00EE#16, false⟩, by simp [opcodeMap, opcodeRows0],
    rfl, rfl, rfl⟩

theorem scr : Statement .scr :=
  ⟨⟨"SCR", 0xFFFF#16, 0x00FB#16, true⟩, by simp [opcodeMap, opcodeRows0],
    rfl, rfl, rfl⟩

theorem scl : Statement .scl :=
  ⟨⟨"SCL", 0xFFFF#16, 0x00FC#16, true⟩, by simp [opcodeMap, opcodeRows0],
    rfl, rfl, rfl⟩

theorem exit : Statement .exit :=
  ⟨⟨"EXIT", 0xFFFF#16, 0x00FD#16, true⟩, by simp [opcodeMap, opcodeRows0],
    rfl, rfl, rfl⟩

theorem low : Statement .low :=
  ⟨⟨"LOW", 0xFFFF#16, 0x00FE#16, true⟩, by simp [opcodeMap, opcodeRows0],
    rfl, rfl, rfl⟩

theorem high : Statement .high :=
  ⟨⟨"HIGH", 0xFFFF#16, 0x00FF#16, true⟩, by simp [opcodeMap, opcodeRows0],
    rfl, rfl, rfl⟩

theorem jp (nnn : Addr12) : Statement (.jp nnn) :=
  ⟨⟨"JP_nnn", 0xF000#16, 0x1000#16, false⟩, by simp [opcodeMap, opcodeRowsTransfer],
    rfl, rfl, by
    rw [encode, wordNnn_eq_wordXYN]
    exact matchesWord_of_nibbles (a := 0xF#4) (b := 0x0#4) (c := 0x0#4) (d := 0x0#4)
      (a' := 0x1#4) (b' := 0x0#4) (c' := 0x0#4) (d' := 0x0#4) rfl rfl rfl (nibble_and_zero _) (nibble_and_zero _) (nibble_and_zero _)⟩

theorem call (nnn : Addr12) : Statement (.call nnn) :=
  ⟨⟨"CALL_nnn", 0xF000#16, 0x2000#16, false⟩, by simp [opcodeMap, opcodeRowsTransfer],
    rfl, rfl, by
    rw [encode, wordNnn_eq_wordXYN]
    exact matchesWord_of_nibbles (a := 0xF#4) (b := 0x0#4) (c := 0x0#4) (d := 0x0#4)
      (a' := 0x2#4) (b' := 0x0#4) (c' := 0x0#4) (d' := 0x0#4) rfl rfl rfl (nibble_and_zero _) (nibble_and_zero _) (nibble_and_zero _)⟩

theorem seVxKk (x : Nibble) (kk : Byte) : Statement (.seVxKk x kk) :=
  ⟨⟨"SE_Vx__kk", 0xF000#16, 0x3000#16, false⟩, by simp [opcodeMap, opcodeRowsTransfer],
    rfl, rfl, by
    rw [encode, wordXKk_eq_wordXYN]
    exact matchesWord_of_nibbles (a := 0xF#4) (b := 0x0#4) (c := 0x0#4) (d := 0x0#4)
      (a' := 0x3#4) (b' := 0x0#4) (c' := 0x0#4) (d' := 0x0#4) rfl rfl rfl (nibble_and_zero _) (nibble_and_zero _) (nibble_and_zero _)⟩

theorem sneVxKk (x : Nibble) (kk : Byte) : Statement (.sneVxKk x kk) :=
  ⟨⟨"SNE_Vx__kk", 0xF000#16, 0x4000#16, false⟩, by simp [opcodeMap, opcodeRowsTransfer],
    rfl, rfl, by
    rw [encode, wordXKk_eq_wordXYN]
    exact matchesWord_of_nibbles (a := 0xF#4) (b := 0x0#4) (c := 0x0#4) (d := 0x0#4)
      (a' := 0x4#4) (b' := 0x0#4) (c' := 0x0#4) (d' := 0x0#4) rfl rfl rfl (nibble_and_zero _) (nibble_and_zero _) (nibble_and_zero _)⟩

theorem seVxVy (x : Nibble) (y : Nibble) : Statement (.seVxVy x y) :=
  ⟨⟨"SE_Vx__Vy", 0xF00F#16, 0x5000#16, false⟩, by simp [opcodeMap, opcodeRowsTransfer],
    rfl, rfl, 
    matchesWord_of_nibbles (a := 0xF#4) (b := 0x0#4) (c := 0x0#4) (d := 0xF#4)
      (a' := 0x5#4) (b' := 0x0#4) (c' := 0x0#4) (d' := 0x0#4) rfl rfl rfl (nibble_and_zero _) (nibble_and_zero _) rfl⟩

theorem ldVxKk (x : Nibble) (kk : Byte) : Statement (.ldVxKk x kk) :=
  ⟨⟨"LD_Vx__kk", 0xF000#16, 0x6000#16, false⟩, by simp [opcodeMap, opcodeRowsTransfer],
    rfl, rfl, by
    rw [encode, wordXKk_eq_wordXYN]
    exact matchesWord_of_nibbles (a := 0xF#4) (b := 0x0#4) (c := 0x0#4) (d := 0x0#4)
      (a' := 0x6#4) (b' := 0x0#4) (c' := 0x0#4) (d' := 0x0#4) rfl rfl rfl (nibble_and_zero _) (nibble_and_zero _) (nibble_and_zero _)⟩

theorem addVxKk (x : Nibble) (kk : Byte) : Statement (.addVxKk x kk) :=
  ⟨⟨"ADD_Vx__kk", 0xF000#16, 0x7000#16, false⟩, by simp [opcodeMap, opcodeRowsTransfer],
    rfl, rfl, by
    rw [encode, wordXKk_eq_wordXYN]
    exact matchesWord_of_nibbles (a := 0xF#4) (b := 0x0#4) (c := 0x0#4) (d := 0x0#4)
      (a' := 0x7#4) (b' := 0x0#4) (c' := 0x0#4) (d' := 0x0#4) rfl rfl rfl (nibble_and_zero _) (nibble_and_zero _) (nibble_and_zero _)⟩

theorem ldVxVy (x : Nibble) (y : Nibble) : Statement (.ldVxVy x y) :=
  ⟨⟨"LD_Vx__Vy", 0xF00F#16, 0x8000#16, false⟩, by simp [opcodeMap, opcodeRowsRegister],
    rfl, rfl, 
    matchesWord_of_nibbles (a := 0xF#4) (b := 0x0#4) (c := 0x0#4) (d := 0xF#4)
      (a' := 0x8#4) (b' := 0x0#4) (c' := 0x0#4) (d' := 0x0#4) rfl rfl rfl (nibble_and_zero _) (nibble_and_zero _) rfl⟩

theorem orVxVy (x : Nibble) (y : Nibble) : Statement (.orVxVy x y) :=
  ⟨⟨"OR_Vx__Vy", 0xF00F#16, 0x8001#16, false⟩, by simp [opcodeMap, opcodeRowsRegister],
    rfl, rfl, 
    matchesWord_of_nibbles (a := 0xF#4) (b := 0x0#4) (c := 0x0#4) (d := 0xF#4)
      (a' := 0x8#4) (b' := 0x0#4) (c' := 0x0#4) (d' := 0x1#4) rfl rfl rfl (nibble_and_zero _) (nibble_and_zero _) rfl⟩

theorem andVxVy (x : Nibble) (y : Nibble) : Statement (.andVxVy x y) :=
  ⟨⟨"AND_Vx__Vy", 0xF00F#16, 0x8002#16, false⟩, by simp [opcodeMap, opcodeRowsRegister],
    rfl, rfl, 
    matchesWord_of_nibbles (a := 0xF#4) (b := 0x0#4) (c := 0x0#4) (d := 0xF#4)
      (a' := 0x8#4) (b' := 0x0#4) (c' := 0x0#4) (d' := 0x2#4) rfl rfl rfl (nibble_and_zero _) (nibble_and_zero _) rfl⟩

theorem xorVxVy (x : Nibble) (y : Nibble) : Statement (.xorVxVy x y) :=
  ⟨⟨"XOR_Vx__Vy", 0xF00F#16, 0x8003#16, false⟩, by simp [opcodeMap, opcodeRowsRegister],
    rfl, rfl, 
    matchesWord_of_nibbles (a := 0xF#4) (b := 0x0#4) (c := 0x0#4) (d := 0xF#4)
      (a' := 0x8#4) (b' := 0x0#4) (c' := 0x0#4) (d' := 0x3#4) rfl rfl rfl (nibble_and_zero _) (nibble_and_zero _) rfl⟩

theorem addVxVy (x : Nibble) (y : Nibble) : Statement (.addVxVy x y) :=
  ⟨⟨"ADD_Vx__Vy", 0xF00F#16, 0x8004#16, false⟩, by simp [opcodeMap, opcodeRowsRegister],
    rfl, rfl, 
    matchesWord_of_nibbles (a := 0xF#4) (b := 0x0#4) (c := 0x0#4) (d := 0xF#4)
      (a' := 0x8#4) (b' := 0x0#4) (c' := 0x0#4) (d' := 0x4#4) rfl rfl rfl (nibble_and_zero _) (nibble_and_zero _) rfl⟩

theorem subVxVy (x : Nibble) (y : Nibble) : Statement (.subVxVy x y) :=
  ⟨⟨"SUB_Vx__Vy", 0xF00F#16, 0x8005#16, false⟩, by simp [opcodeMap, opcodeRowsRegister],
    rfl, rfl, 
    matchesWord_of_nibbles (a := 0xF#4) (b := 0x0#4) (c := 0x0#4) (d := 0xF#4)
      (a' := 0x8#4) (b' := 0x0#4) (c' := 0x0#4) (d' := 0x5#4) rfl rfl rfl (nibble_and_zero _) (nibble_and_zero _) rfl⟩

theorem shrVxVy (x : Nibble) (y : Nibble) : Statement (.shrVxVy x y) :=
  ⟨⟨"SHR_Vx__Vy", 0xF00F#16, 0x8006#16, false⟩, by simp [opcodeMap, opcodeRowsRegister],
    rfl, rfl, 
    matchesWord_of_nibbles (a := 0xF#4) (b := 0x0#4) (c := 0x0#4) (d := 0xF#4)
      (a' := 0x8#4) (b' := 0x0#4) (c' := 0x0#4) (d' := 0x6#4) rfl rfl rfl (nibble_and_zero _) (nibble_and_zero _) rfl⟩

theorem subnVxVy (x : Nibble) (y : Nibble) : Statement (.subnVxVy x y) :=
  ⟨⟨"SUBN_Vx__Vy", 0xF00F#16, 0x8007#16, false⟩, by simp [opcodeMap, opcodeRowsRegister],
    rfl, rfl, 
    matchesWord_of_nibbles (a := 0xF#4) (b := 0x0#4) (c := 0x0#4) (d := 0xF#4)
      (a' := 0x8#4) (b' := 0x0#4) (c' := 0x0#4) (d' := 0x7#4) rfl rfl rfl (nibble_and_zero _) (nibble_and_zero _) rfl⟩

theorem shlVxVy (x : Nibble) (y : Nibble) : Statement (.shlVxVy x y) :=
  ⟨⟨"SHL_Vx__Vy", 0xF00F#16, 0x800E#16, false⟩, by simp [opcodeMap, opcodeRowsRegister],
    rfl, rfl, 
    matchesWord_of_nibbles (a := 0xF#4) (b := 0x0#4) (c := 0x0#4) (d := 0xF#4)
      (a' := 0x8#4) (b' := 0x0#4) (c' := 0x0#4) (d' := 0xE#4) rfl rfl rfl (nibble_and_zero _) (nibble_and_zero _) rfl⟩

theorem sneVxVy (x : Nibble) (y : Nibble) : Statement (.sneVxVy x y) :=
  ⟨⟨"SNE_Vx__Vy", 0xF00F#16, 0x9000#16, false⟩, by simp [opcodeMap, opcodeRowsRegister],
    rfl, rfl, 
    matchesWord_of_nibbles (a := 0xF#4) (b := 0x0#4) (c := 0x0#4) (d := 0xF#4)
      (a' := 0x9#4) (b' := 0x0#4) (c' := 0x0#4) (d' := 0x0#4) rfl rfl rfl (nibble_and_zero _) (nibble_and_zero _) rfl⟩

theorem ldINnn (nnn : Addr12) : Statement (.ldINnn nnn) :=
  ⟨⟨"LD_I__nnn", 0xF000#16, 0xA000#16, false⟩, by simp [opcodeMap, opcodeRowsAtoE],
    rfl, rfl, by
    rw [encode, wordNnn_eq_wordXYN]
    exact matchesWord_of_nibbles (a := 0xF#4) (b := 0x0#4) (c := 0x0#4) (d := 0x0#4)
      (a' := 0xA#4) (b' := 0x0#4) (c' := 0x0#4) (d' := 0x0#4) rfl rfl rfl (nibble_and_zero _) (nibble_and_zero _) (nibble_and_zero _)⟩

theorem jpV0Nnn (nnn : Addr12) : Statement (.jpV0Nnn nnn) :=
  ⟨⟨"JP_V0__nnn", 0xF000#16, 0xB000#16, false⟩, by simp [opcodeMap, opcodeRowsAtoE],
    rfl, rfl, by
    rw [encode, wordNnn_eq_wordXYN]
    exact matchesWord_of_nibbles (a := 0xF#4) (b := 0x0#4) (c := 0x0#4) (d := 0x0#4)
      (a' := 0xB#4) (b' := 0x0#4) (c' := 0x0#4) (d' := 0x0#4) rfl rfl rfl (nibble_and_zero _) (nibble_and_zero _) (nibble_and_zero _)⟩

theorem rndVxKk (x : Nibble) (kk : Byte) : Statement (.rndVxKk x kk) :=
  ⟨⟨"RND_Vx__kk", 0xF000#16, 0xC000#16, false⟩, by simp [opcodeMap, opcodeRowsAtoE],
    rfl, rfl, by
    rw [encode, wordXKk_eq_wordXYN]
    exact matchesWord_of_nibbles (a := 0xF#4) (b := 0x0#4) (c := 0x0#4) (d := 0x0#4)
      (a' := 0xC#4) (b' := 0x0#4) (c' := 0x0#4) (d' := 0x0#4) rfl rfl rfl (nibble_and_zero _) (nibble_and_zero _) (nibble_and_zero _)⟩

theorem drwVxVyN (x : Nibble) (y : Nibble) (n : Nibble) : Statement (.drwVxVyN x y n) :=
  ⟨⟨"DRW_Vx__Vy__n", 0xF000#16, 0xD000#16, false⟩, by simp [opcodeMap, opcodeRowsAtoE],
    rfl, rfl, 
    matchesWord_of_nibbles (a := 0xF#4) (b := 0x0#4) (c := 0x0#4) (d := 0x0#4)
      (a' := 0xD#4) (b' := 0x0#4) (c' := 0x0#4) (d' := 0x0#4) rfl rfl rfl (nibble_and_zero _) (nibble_and_zero _) (nibble_and_zero _)⟩

theorem drwVxVy0 (x : Nibble) (y : Nibble) : Statement (.drwVxVy0 x y) :=
  ⟨⟨"DRW_Vx__Vy__0", 0xF00F#16, 0xD000#16, true⟩, by simp [opcodeMap, opcodeRowsAtoE],
    rfl, rfl, 
    matchesWord_of_nibbles (a := 0xF#4) (b := 0x0#4) (c := 0x0#4) (d := 0xF#4)
      (a' := 0xD#4) (b' := 0x0#4) (c' := 0x0#4) (d' := 0x0#4) rfl rfl rfl (nibble_and_zero _) (nibble_and_zero _) rfl⟩

theorem skpVx (x : Nibble) : Statement (.skpVx x) :=
  ⟨⟨"SKP_Vx", 0xF0FF#16, 0xE09E#16, false⟩, by simp [opcodeMap, opcodeRowsAtoE],
    rfl, rfl, by
    rw [encode, wordXKk_eq_wordXYN]
    exact matchesWord_of_nibbles (a := 0xF#4) (b := 0x0#4) (c := 0xF#4) (d := 0xF#4)
      (a' := 0xE#4) (b' := 0x0#4) (c' := 0x9#4) (d' := 0xE#4) rfl rfl rfl (nibble_and_zero _) rfl rfl⟩

theorem sknpVx (x : Nibble) : Statement (.sknpVx x) :=
  ⟨⟨"SKNP_Vx", 0xF0FF#16, 0xE0A1#16, false⟩, by simp [opcodeMap, opcodeRowsAtoE],
    rfl, rfl, by
    rw [encode, wordXKk_eq_wordXYN]
    exact matchesWord_of_nibbles (a := 0xF#4) (b := 0x0#4) (c := 0xF#4) (d := 0xF#4)
      (a' := 0xE#4) (b' := 0x0#4) (c' := 0xA#4) (d' := 0x1#4) rfl rfl rfl (nibble_and_zero _) rfl rfl⟩

theorem ldVxDT (x : Nibble) : Statement (.ldVxDT x) :=
  ⟨⟨"LD_Vx__DT", 0xF0FF#16, 0xF007#16, false⟩, by simp [opcodeMap, opcodeRowsF],
    rfl, rfl, by
    rw [encode, wordXKk_eq_wordXYN]
    exact matchesWord_of_nibbles (a := 0xF#4) (b := 0x0#4) (c := 0xF#4) (d := 0xF#4)
      (a' := 0xF#4) (b' := 0x0#4) (c' := 0x0#4) (d' := 0x7#4) rfl rfl rfl (nibble_and_zero _) rfl rfl⟩

theorem ldVxK (x : Nibble) : Statement (.ldVxK x) :=
  ⟨⟨"LD_Vx__K", 0xF0FF#16, 0xF00A#16, false⟩, by simp [opcodeMap, opcodeRowsF],
    rfl, rfl, by
    rw [encode, wordXKk_eq_wordXYN]
    exact matchesWord_of_nibbles (a := 0xF#4) (b := 0x0#4) (c := 0xF#4) (d := 0xF#4)
      (a' := 0xF#4) (b' := 0x0#4) (c' := 0x0#4) (d' := 0xA#4) rfl rfl rfl (nibble_and_zero _) rfl rfl⟩

theorem ldDTVx (x : Nibble) : Statement (.ldDTVx x) :=
  ⟨⟨"LD_DT__Vx", 0xF0FF#16, 0xF015#16, false⟩, by simp [opcodeMap, opcodeRowsF],
    rfl, rfl, by
    rw [encode, wordXKk_eq_wordXYN]
    exact matchesWord_of_nibbles (a := 0xF#4) (b := 0x0#4) (c := 0xF#4) (d := 0xF#4)
      (a' := 0xF#4) (b' := 0x0#4) (c' := 0x1#4) (d' := 0x5#4) rfl rfl rfl (nibble_and_zero _) rfl rfl⟩

theorem ldSTVx (x : Nibble) : Statement (.ldSTVx x) :=
  ⟨⟨"LD_ST__Vx", 0xF0FF#16, 0xF018#16, false⟩, by simp [opcodeMap, opcodeRowsF],
    rfl, rfl, by
    rw [encode, wordXKk_eq_wordXYN]
    exact matchesWord_of_nibbles (a := 0xF#4) (b := 0x0#4) (c := 0xF#4) (d := 0xF#4)
      (a' := 0xF#4) (b' := 0x0#4) (c' := 0x1#4) (d' := 0x8#4) rfl rfl rfl (nibble_and_zero _) rfl rfl⟩

theorem addIVx (x : Nibble) : Statement (.addIVx x) :=
  ⟨⟨"ADD_I__Vx", 0xF0FF#16, 0xF01E#16, false⟩, by simp [opcodeMap, opcodeRowsF],
    rfl, rfl, by
    rw [encode, wordXKk_eq_wordXYN]
    exact matchesWord_of_nibbles (a := 0xF#4) (b := 0x0#4) (c := 0xF#4) (d := 0xF#4)
      (a' := 0xF#4) (b' := 0x0#4) (c' := 0x1#4) (d' := 0xE#4) rfl rfl rfl (nibble_and_zero _) rfl rfl⟩

theorem ldFVx (x : Nibble) : Statement (.ldFVx x) :=
  ⟨⟨"LD_F__Vx", 0xF0FF#16, 0xF029#16, false⟩, by simp [opcodeMap, opcodeRowsF],
    rfl, rfl, by
    rw [encode, wordXKk_eq_wordXYN]
    exact matchesWord_of_nibbles (a := 0xF#4) (b := 0x0#4) (c := 0xF#4) (d := 0xF#4)
      (a' := 0xF#4) (b' := 0x0#4) (c' := 0x2#4) (d' := 0x9#4) rfl rfl rfl (nibble_and_zero _) rfl rfl⟩

theorem ldHFVx (x : Nibble) : Statement (.ldHFVx x) :=
  ⟨⟨"LD_HF__Vx", 0xF0FF#16, 0xF030#16, true⟩, by simp [opcodeMap, opcodeRowsF],
    rfl, rfl, by
    rw [encode, wordXKk_eq_wordXYN]
    exact matchesWord_of_nibbles (a := 0xF#4) (b := 0x0#4) (c := 0xF#4) (d := 0xF#4)
      (a' := 0xF#4) (b' := 0x0#4) (c' := 0x3#4) (d' := 0x0#4) rfl rfl rfl (nibble_and_zero _) rfl rfl⟩

theorem ldBVx (x : Nibble) : Statement (.ldBVx x) :=
  ⟨⟨"LD_B__Vx", 0xF0FF#16, 0xF033#16, false⟩, by simp [opcodeMap, opcodeRowsF],
    rfl, rfl, by
    rw [encode, wordXKk_eq_wordXYN]
    exact matchesWord_of_nibbles (a := 0xF#4) (b := 0x0#4) (c := 0xF#4) (d := 0xF#4)
      (a' := 0xF#4) (b' := 0x0#4) (c' := 0x3#4) (d' := 0x3#4) rfl rfl rfl (nibble_and_zero _) rfl rfl⟩

theorem ldMemVx (x : Nibble) : Statement (.ldMemVx x) :=
  ⟨⟨"LD__I___Vx", 0xF0FF#16, 0xF055#16, false⟩, by simp [opcodeMap, opcodeRowsF],
    rfl, rfl, by
    rw [encode, wordXKk_eq_wordXYN]
    exact matchesWord_of_nibbles (a := 0xF#4) (b := 0x0#4) (c := 0xF#4) (d := 0xF#4)
      (a' := 0xF#4) (b' := 0x0#4) (c' := 0x5#4) (d' := 0x5#4) rfl rfl rfl (nibble_and_zero _) rfl rfl⟩

theorem ldVxMem (x : Nibble) : Statement (.ldVxMem x) :=
  ⟨⟨"LD_Vx___I", 0xF0FF#16, 0xF065#16, false⟩, by simp [opcodeMap, opcodeRowsF],
    rfl, rfl, by
    rw [encode, wordXKk_eq_wordXYN]
    exact matchesWord_of_nibbles (a := 0xF#4) (b := 0x0#4) (c := 0xF#4) (d := 0xF#4)
      (a' := 0xF#4) (b' := 0x0#4) (c' := 0x6#4) (d' := 0x5#4) rfl rfl rfl (nibble_and_zero _) rfl rfl⟩

theorem ldRVx (x : Nibble) : Statement (.ldRVx x) :=
  ⟨⟨"LD_R__Vx", 0xF0FF#16, 0xF075#16, true⟩, by simp [opcodeMap, opcodeRowsF],
    rfl, rfl, by
    rw [encode, wordXKk_eq_wordXYN]
    exact matchesWord_of_nibbles (a := 0xF#4) (b := 0x0#4) (c := 0xF#4) (d := 0xF#4)
      (a' := 0xF#4) (b' := 0x0#4) (c' := 0x7#4) (d' := 0x5#4) rfl rfl rfl (nibble_and_zero _) rfl rfl⟩

theorem ldVxR (x : Nibble) : Statement (.ldVxR x) :=
  ⟨⟨"LD_Vx__R", 0xF0FF#16, 0xF085#16, true⟩, by simp [opcodeMap, opcodeRowsF],
    rfl, rfl, by
    rw [encode, wordXKk_eq_wordXYN]
    exact matchesWord_of_nibbles (a := 0xF#4) (b := 0x0#4) (c := 0xF#4) (d := 0xF#4)
      (a' := 0xF#4) (b' := 0x0#4) (c' := 0x8#4) (d' := 0x5#4) rfl rfl rfl (nibble_and_zero _) rfl rfl⟩

end Laws.RowMatch

end Sys2Proof
end

