-- ==== Sys2Proof/Tests/Slice0.lean ====
section
/-! SUPPORT. The model's own tests. Expected results come from spec/95_test_vectors.md (the row is named
in each docstring) or from the example of the instruction's rule. -/

namespace Sys2Proof.Machine.Test

set_option Elab.async false

/-- A property of the next state; false where there is none. -/
def nextAnd (o : Outcome) (p : State → Bool) : Bool :=
  match o with
  | .next t => p t
  | .fault _ => false
  | .refused _ => false

/-- The reset state with an instruction word at 0x200 (CHIP8, its quirk defaults). -/
def atReset (w : Word16) : State := State.reset.placeWord w

/-- The same under SUPERCHIP with its quirk defaults. -/
def atResetSc (w : Word16) : State :=
  { atReset w with variant := .superchip, quirks := Quirks.defaults .superchip }

/-- A register with a value. -/
def reg (r : Nibble) (b : Byte) (s : State) : State := s.writeV r b

/-- A lit pixel of the low-res buffer, and of the high-res one. -/
def litLo (px py : Nat) (s : State) : State := { s with fbLo := s.fbLo.setPixel px py true }
def litHi (px py : Nat) (s : State) : State := { s with fbHi := s.fbHi.setPixel px py true }

/-- The pixels named, of the active framebuffer. -/
def pixels (s : State) (places : List (Nat × Nat)) : List Bool :=
  places.map fun p => s.pixel p.1 p.2

/-- The step is the entry of the fault, with `PC`, the registers and I as they were (the convention of
95_test_vectors.md, "Fault K"). That nothing else changes is an obligation. -/
def faults (s : State) (k : FaultKind) (info : FaultInfo) : Bool :=
  nextAnd (step s) fun t =>
    t.halted && t.faultState == some k && t.faultInfo == some info
      && t.signal == { redraw := false, halted := true, fault := some k }
      && t.PC == s.PC && t.V == s.V && t.I == s.I && t.SP == s.SP && t.mem == s.mem

/-! ### WellFormed: each check refuses an ill-formed term -/

/-- An instruction of the extension under CHIP8 (R111). -/
theorem test_wellFormed_variant :
    Instr.variantOk .chip8 .exit = false ∧ Instr.wellFormed .chip8 .exit = false
      ∧ Instr.wellFormed .superchip .exit = true := by decide

/-- A ninth flag slot (R112 (f)). -/
theorem test_wellFormed_flagSlots :
    (Instr.ldRVx 0x8#4).flagSlotsOk = false ∧ Instr.wellFormed .superchip (.ldRVx 0x8#4) = false
      ∧ Instr.wellFormed .superchip (.ldVxR 0x8#4) = false
      ∧ Instr.wellFormed .superchip (.ldRVx 0x7#4) = true := by decide

/-- `Dxyn` with no rows under SUPERCHIP (R113). -/
theorem test_wellFormed_spriteRows :
    (Instr.drwVxVyN 0x1#4 0x2#4 0x0#4).spriteRowsOk .superchip = false
      ∧ Instr.wellFormed .superchip (.drwVxVyN 0x1#4 0x2#4 0x0#4) = false
      ∧ Instr.wellFormed .chip8 (.drwVxVyN 0x1#4 0x2#4 0x0#4) = true := by decide

/-! ### Decode: a word of each constructor, written out from its row of R104 -/

theorem test_decode_family0 :
    decode .superchip 0b0000000011000011#16 = .instr (.scd 3)
      ∧ decode .chip8 0b0000000011100000#16 = .instr .cls
      ∧ decode .chip8 0b0000000011101110#16 = .instr .ret
      ∧ decode .superchip 0b0000000011111011#16 = .instr .scr
      ∧ decode .superchip 0b0000000011111100#16 = .instr .scl
      ∧ decode .superchip 0b0000000011111101#16 = .instr .exit
      ∧ decode .superchip 0b0000000011111110#16 = .instr .low
      ∧ decode .superchip 0b0000000011111111#16 = .instr .high := by decide

theorem test_decode_families1to7 :
    decode .chip8 0b0001101010111100#16 = .instr (.jp 0xABC)
      ∧ decode .chip8 0b0010001000010000#16 = .instr (.call 0x210)
      ∧ decode .chip8 0b0011001101000010#16 = .instr (.seVxKk 3 0x42)
      ∧ decode .chip8 0b0100001101000010#16 = .instr (.sneVxKk 3 0x42)
      ∧ decode .chip8 0b0101000100100000#16 = .instr (.seVxVy 1 2)
      ∧ decode .chip8 0b0110101000101100#16 = .instr (.ldVxKk 0xA 0x2C)
      ∧ decode .chip8 0b0111000011111111#16 = .instr (.addVxKk 0 0xFF) := by decide

theorem test_decode_families8and9 :
    decode .chip8 0b1000101000110000#16 = .instr (.ldVxVy 0xA 3)
      ∧ decode .chip8 0b1000000100100001#16 = .instr (.orVxVy 1 2)
      ∧ decode .chip8 0b1000000100100010#16 = .instr (.andVxVy 1 2)
      ∧ decode .chip8 0b1000000100100011#16 = .instr (.xorVxVy 1 2)
      ∧ decode .chip8 0b1000000100100100#16 = .instr (.addVxVy 1 2)
      ∧ decode .chip8 0b1000000100100101#16 = .instr (.subVxVy 1 2)
      ∧ decode .chip8 0b1000000100100110#16 = .instr (.shrVxVy 1 2)
      ∧ decode .chip8 0b1000000100100111#16 = .instr (.subnVxVy 1 2)
      ∧ decode .chip8 0b1000000100101110#16 = .instr (.shlVxVy 1 2)
      ∧ decode .chip8 0b1001000100100000#16 = .instr (.sneVxVy 1 2) := by decide

theorem test_decode_familiesAtoE :
    decode .chip8 0b1010001100000000#16 = .instr (.ldINnn 0x300)
      ∧ decode .chip8 0b1011001011110000#16 = .instr (.jpV0Nnn 0x2F0)
      ∧ decode .chip8 0b1100000100001111#16 = .instr (.rndVxKk 1 0x0F)
      ∧ decode .superchip 0b1101000100100101#16 = .instr (.drwVxVyN 1 2 5)
      ∧ decode .superchip 0b1101000100100000#16 = .instr (.drwVxVy0 1 2)
      ∧ decode .chip8 0b1110000110011110#16 = .instr (.skpVx 1)
      ∧ decode .chip8 0b1110000110100001#16 = .instr (.sknpVx 1) := by decide

theorem test_decode_familyF :
    decode .chip8 0b1111010100000111#16 = .instr (.ldVxDT 5)
      ∧ decode .chip8 0b1111001100001010#16 = .instr (.ldVxK 3)
      ∧ decode .chip8 0b1111000000010101#16 = .instr (.ldDTVx 0)
      ∧ decode .chip8 0b1111001000011000#16 = .instr (.ldSTVx 2)
      ∧ decode .chip8 0b1111000100011110#16 = .instr (.addIVx 1)
      ∧ decode .chip8 0b1111101000101001#16 = .instr (.ldFVx 0xA)
      ∧ decode .superchip 0b1111001100110000#16 = .instr (.ldHFVx 3)
      ∧ decode .chip8 0b1111000000110011#16 = .instr (.ldBVx 0)
      ∧ decode .chip8 0b1111001001010101#16 = .instr (.ldMemVx 2)
      ∧ decode .chip8 0b1111001001100101#16 = .instr (.ldVxMem 2)
      ∧ decode .superchip 0b1111001101110101#16 = .instr (.ldRVx 3)
      ∧ decode .superchip 0b1111000110000101#16 = .instr (.ldVxR 1) := by decide

/-- The encodings R112 lists as illegal, (a) to (g), and the extension under CHIP8 (R111). -/
theorem test_decode_illegal :
    [0x0000#16, 0x0123#16, 0x00DF#16, 0x01E0#16, 0x5121#16, 0x9121#16, 0x8128#16, 0x812D#16, 0x812F#16,
      0xE1A2#16, 0xF002#16, 0xF101#16, 0xF130#16, 0xF175#16, 0x00C3#16, 0x00FF#16].all
        (fun w => decode .chip8 w == .illegal w) = true := by decide +kernel

/-- A list of bytes: the high byte comes first (R83), and a byte alone is no instruction (R100). -/
theorem test_decodeBytes :
    decodeBytes .chip8 [0x6A, 0x2C, 0x77] = .ok (.ldVxKk 0xA 0x2C, [0x77])
      ∧ decodeBytes .chip8 [0x6A] = .error .tooShort
      ∧ decodeBytes .chip8 [0x01, 0x23] = .error (.illegalInstruction 0x0123) := ⟨rfl, rfl, rfl⟩

/-! ### Loads, arithmetic, logic, shifts, random (L2.1) -/

/-- A23, A22. -/
theorem test_ldVxKk : nextAnd (step (atReset 0x6A2C)) fun t =>
    t.readV 0xA == 0x2C#8 && t.PC == 0x202#16 := by decide +kernel
theorem test_ldVxVy : nextAnd (step (reg 3 0x7E (atReset 0x8A30))) fun t =>
    t.readV 0xA == 0x7E#8 && t.PC == 0x202#16 := by decide +kernel

/-- A1. -/
theorem test_addVxKk_wraps : nextAnd (step (reg 0xF 0x33 (reg 0 0x01 (atReset 0x70FF)))) fun t =>
    t.readV 0 == 0x00#8 && t.readV 0xF == 0x33#8 := by decide +kernel

/-- A4, A5. -/
theorem test_addVxVy_destination_VF :
    nextAnd (step (reg 0xF 0x02 (reg 1 0xFF (atReset 0x8F14)))) fun t =>
      t.readV 0xF == 1#8 := by decide +kernel
theorem test_addVxVy_source_VF :
    nextAnd (step (reg 0xF 0xFF (reg 1 0x10 (atReset 0x81F4)))) fun t =>
      t.readV 1 == 0x0F#8 && t.readV 0xF == 1#8 := by decide +kernel

/-- A6, A8. -/
theorem test_subVxVy_equal : nextAnd (step (reg 2 0x05 (reg 1 0x05 (atReset 0x8125)))) fun t =>
    t.readV 1 == 0x00#8 && t.readV 0xF == 1#8 := by decide +kernel
theorem test_subVxVy_destination_VF :
    nextAnd (step (reg 0xF 0x00 (reg 1 0x01 (atReset 0x8F15)))) fun t =>
      t.readV 0xF == 0#8 := by decide +kernel

/-- A10. -/
theorem test_subnVxVy_borrows : nextAnd (step (reg 2 0x05 (reg 1 0x06 (atReset 0x8127)))) fun t =>
    t.readV 1 == 0xFF#8 && t.readV 0xF == 0#8 := by decide +kernel

/-- A11 (shifting = 0), A12 (shifting = 1, as the SUPERCHIP defaults have it). -/
theorem test_shrVxVy_Vy : nextAnd (step (reg 2 0x03 (reg 1 0xFF (atReset 0x8126)))) fun t =>
    t.readV 1 == 0x01#8 && t.readV 0xF == 1#8 := by decide +kernel
theorem test_shrVxVy_inPlace : nextAnd (step (reg 2 0x03 (reg 1 0xFE (atResetSc 0x8126)))) fun t =>
    t.readV 1 == 0x7F#8 && t.readV 0xF == 0#8 := by decide +kernel

/-- A14, A15. -/
theorem test_shlVxVy_Vy : nextAnd (step (reg 2 0x80 (reg 1 0x00 (atReset 0x812E)))) fun t =>
    t.readV 1 == 0x00#8 && t.readV 0xF == 1#8 := by decide +kernel
theorem test_shlVxVy_inPlace : nextAnd (step (reg 2 0x80 (reg 1 0x7F (atResetSc 0x812E)))) fun t =>
    t.readV 1 == 0xFE#8 && t.readV 0xF == 0#8 := by decide +kernel

/-- A17 (vf_reset = 1), A18 (vf_reset = 0). -/
theorem test_orVxVy_resets :
    nextAnd (step (reg 0xF 0x55 (reg 2 0xF0 (reg 1 0x0F (atReset 0x8121))))) fun t =>
      t.readV 1 == 0xFF#8 && t.readV 0xF == 0x00#8 := by decide +kernel
theorem test_orVxVy_keeps :
    nextAnd (step (reg 0xF 0x55 (reg 2 0xF0 (reg 1 0x0F (atResetSc 0x8121))))) fun t =>
      t.readV 1 == 0xFF#8 && t.readV 0xF == 0x55#8 := by decide +kernel

/-- A21, A20. -/
theorem test_andVxVy : nextAnd (step (reg 2 0x0F (reg 1 0x3C (atReset 0x8122)))) fun t =>
    t.readV 1 == 0x0C#8 && t.readV 0xF == 0x00#8 := by decide +kernel
theorem test_xorVxVy_same : nextAnd (step (reg 0xF 0x55 (reg 1 0xAA (atReset 0x8113)))) fun t =>
    t.readV 1 == 0x00#8 && t.readV 0xF == 0x00#8 := by decide +kernel

/-- A25: 0 whatever is drawn. -/
theorem test_rndVxKk_noMask : ∃ t, step (reg 1 0x55 (atReset 0xC100)) = .next t
    ∧ t.readV 1 = Config.rand 0 &&& 0x00#8 ∧ t.draws = 1 := ⟨_, rfl, rfl, rfl⟩

/-- A26. -/
theorem test_illegal_8128 : faults (atReset 0x8128) .illegalInstruction (.word 0x8128) = true := by
  decide +kernel

/-! ### Control transfer (L2.2) -/

/-- C1; C2, the second cycle. -/
theorem test_jp : nextAnd (step (atReset 0x1ABC)) fun t => t.PC == 0xABC#16 := by decide +kernel
theorem test_jp_odd : nextAnd (step (atReset 0x1201)) (fun t =>
    faults { t with signal := Signal.quiet } .outOfBoundsAccess .pcMisaligned) = true := by decide +kernel

/-- C5, C6. -/
theorem test_call :
    nextAnd (step (({ State.reset with PC := 0x204 } : State).placeWord 0x2300)) (fun t =>
    t.stack[0] == 0x206#16 && t.SP == 1 && t.PC == 0x300#16) = true := by decide +kernel
theorem test_call_full : faults { atReset 0x2300 with SP := 16 } .stackOverflow .call = true := by
  decide +kernel

/-- C7, C8. -/
theorem test_ret :
    nextAnd (step { atReset 0x00EE with SP := 1, stack := (atReset 0x00EE).stack.set 0 0x206 })
      (fun t => t.SP == 0 && t.PC == 0x206#16 && t.stack[0] == 0x206#16) = true := by decide +kernel
theorem test_ret_empty : faults (atReset 0x00EE) .stackUnderflow .ret = true := by decide +kernel

/-- C9, C10. -/
theorem test_seVxKk : nextAnd (step (reg 3 0x42 (atReset 0x3342))) fun t => t.PC == 0x204#16 := by
  decide +kernel
theorem test_seVxKk_not : nextAnd (step (reg 3 0x41 (atReset 0x3342))) fun t => t.PC == 0x202#16 := by
  decide +kernel

/-- C11, C12, C14, C15. -/
theorem test_sneVxKk : nextAnd (step (reg 3 0x41 (atReset 0x4342))) fun t => t.PC == 0x204#16 := by
  decide +kernel
theorem test_seVxVy : nextAnd (step (atReset 0x5330)) fun t => t.PC == 0x204#16 := by decide +kernel
theorem test_sneVxVy : nextAnd (step (reg 1 0x01 (atReset 0x9120))) fun t => t.PC == 0x204#16 := by
  decide +kernel
theorem test_sneVxVy_same : nextAnd (step (atReset 0x9110)) fun t => t.PC == 0x202#16 := by decide +kernel

/-- C18 (jumping = 0), C17 (jumping = 1). -/
theorem test_jpV0Nnn_V0 : nextAnd (step (reg 0 0xFF (atReset 0xBFFF))) fun t => t.PC == 0x10FE#16 := by
  decide +kernel
theorem test_jpV0Nnn_Vx : nextAnd (step (reg 2 0x10 (reg 0 0x04 (atResetSc 0xB2F0)))) fun t =>
    t.PC == 0x300#16 := by decide +kernel

/-- C22, C21. -/
theorem test_exit : nextAnd (step (atResetSc 0x00FD)) (fun t =>
    t.halted && t.faultState == none && t.PC == 0x202#16
      && t.signal == { redraw := false, halted := true, fault := none }) = true := by decide +kernel
theorem test_exit_chip8 : faults (atReset 0x00FD) .illegalInstruction (.word 0x00FD) = true := by
  decide +kernel

/-! ### Memory and the index register (L2.3) -/

/-- M1; M2. -/
theorem test_ldINnn : nextAnd (step (atReset 0xAFFF)) fun t => t.I == 0xFFF#16 := by decide +kernel
theorem test_addIVx_wraps :
    nextAnd (step (reg 0xF 0x07 (reg 0 0x01 { atReset 0xF01E with I := 0xFFFF }))) fun t =>
      t.I == 0x0000#16 && t.readV 0xF == 0x07#8 := by decide +kernel

/-- M4, M5. -/
theorem test_ldFVx : nextAnd (step (reg 0 0x0F (atReset 0xF029))) fun t => t.I == 0x04B#16 := by decide +kernel
theorem test_ldFVx_noGlyph : faults (reg 0 0x10 (atReset 0xF029)) .unmodelled .smallDigit = true := by
  decide +kernel

/-- M6, M7. -/
theorem test_ldHFVx : nextAnd (step (reg 0 0x09 (atResetSc 0xF030))) fun t => t.I == 0x0AA#16 := by
  decide +kernel
theorem test_ldHFVx_noGlyph : faults (reg 0 0x0A (atResetSc 0xF030)) .unmodelled .bigDigit = true := by
  decide +kernel

/-- M11, M12. -/
theorem test_ldBVx_top : nextAnd (step (reg 0 0x7B { atReset 0xF033 with I := 0xFFD })) (fun t =>
    t.readByte 0xFFD == 1#8 && t.readByte 0xFFE == 2#8 && t.readByte 0xFFF == 3#8) = true := by decide +kernel
theorem test_ldBVx_past :
    faults (reg 0 0x7B { atReset 0xF033 with I := 0xFFE }) .outOfBoundsAccess (.address 0x1000)
      = true := by decide +kernel

/-- M15 (memory_increment = 0), M14. -/
theorem test_ldMemVx : nextAnd (step (reg 0 0x09 { atResetSc 0xF055 with I := 0x300 })) (fun t =>
    t.readByte 0x300 == 0x09#8 && t.I == 0x300#16) = true := by decide +kernel
theorem test_ldMemVx_past :
    faults { atReset 0xFF55 with I := 0xFF1 } .outOfBoundsAccess (.address 0x1000) = true := by decide +kernel

/-- M17. -/
theorem test_ldVxMem :
    nextAnd (step ({ atReset 0xFF65 with I := 0x300 }.writeByte 0x30F 0x77)) (fun t =>
      t.readV 0xF == 0x77#8 && t.readV 0xE == 0x00#8 && t.I == 0x310#16) = true := by decide +kernel

/-- M18, M20. -/
theorem test_ldRVx :
    nextAnd (step (reg 3 0x0D (reg 2 0x0C (reg 1 0x0B (reg 0 0x0A (atResetSc 0xF375)))))) (fun t =>
      t.flags.toList == [0x0A#8, 0x0B#8, 0x0C#8, 0x0D#8, 0#8, 0#8, 0#8, 0#8]) = true := by decide +kernel
theorem test_ldRVx_ninth : faults (atResetSc 0xF875) .illegalInstruction (.word 0xF875) = true := by
  decide +kernel

/-- M21. -/
theorem test_ldVxR :
    nextAnd (step (reg 2 0x99 { atResetSc 0xF185 with
        flags := ⟨#[0x11, 0x22, 0x33, 0, 0, 0, 0, 0], rfl⟩ })) (fun t =>
      t.readV 0 == 0x11#8 && t.readV 1 == 0x22#8 && t.readV 2 == 0x99#8) = true := by decide +kernel

/-! ### Display (L2.4) -/

/-- D21. -/
theorem test_cls : nextAnd (step (reg 0xF 0x09 (litLo 1 1 (atReset 0x00E0)))) (fun t =>
    t.pixel 1 1 == false && t.readV 0xF == 0x09#8
      && t.signal == { redraw := true, halted := false, fault := none }) = true := by decide +kernel

/-- D4 (clipping = 1). -/
theorem test_drwVxVyN_clips :
    nextAnd (step ((reg 0 63 (litLo 0 0 { atReset 0xD011 with I := 0x300 })).writeByte 0x300 0xC0))
      (fun t => pixels t [(62, 0), (63, 0), (0, 0), (1, 0)] == [false, true, true, false]
        && t.readV 0xF == 0#8 && t.vblankHold) = true := by
  decide +kernel

/-- D5 (clipping = 0). -/
theorem test_drwVxVyN_wraps :
    nextAnd (step ((reg 0 63 (litLo 0 0 { atReset 0xD011 with
        I := 0x300, quirks := { Quirks.defaults .chip8 with clipping := false } })).writeByte 0x300
          0xC0))
      (fun t => pixels t [(62, 0), (63, 0), (0, 0), (1, 0)] == [false, true, false, false]
        && t.readV 0xF == 1#8) = true := by
  decide +kernel

/-- The example of R286: high-res, `D120` with V1 = 120 and 32 bytes FF (here the bytes of row 1, the
rest zero): columns 120..127 of the row, the other eight clipped. -/
theorem test_drwVxVy0_hires :
    nextAnd (step (reg 1 120
        (({ atResetSc 0xD120 with I := 0x300, hires := true } : State).writeBytes 0x302 [0xFF, 0xFF])))
      (fun t => pixels t [(119, 1), (120, 1), (127, 1), (0, 1), (120, 0), (120, 2)]
          == [false, true, true, false, false, false] && t.readV 0xF == 0#8) = true := by
  decide +kernel

/-- D10; D8. -/
theorem test_drwVxVy0_past :
    faults { atResetSc 0xD010 with I := 0xFE1 } .outOfBoundsAccess (.address 0x1000) = true := by
  decide +kernel
theorem test_dxy0_chip8 : nextAnd (step (reg 0xF 1 (atReset 0xD010))) (fun t =>
    t.pixel 0 0 == false && t.readV 0xF == 0#8 && t.vblankHold && t.signal.redraw) = true := by
  decide +kernel

/-- D12. -/
theorem test_scd : nextAnd (step (litLo 5 0 (litLo 5 31 (atResetSc 0x00C3)))) (fun t =>
    pixels t [(5, 0), (5, 3), (5, 31)] == [false, true, false]) = true := by decide +kernel

/-- D14. -/
theorem test_scr :
    nextAnd (step (litHi 124 9 (litHi 3 9 { atResetSc 0x00FB with hires := true }))) (fun t =>
      pixels t [(0, 9), (3, 9), (7, 9), (124, 9)] == [false, false, true, false]) = true := by
  decide +kernel

/-- D15. -/
theorem test_scl : nextAnd (step (litLo 4 2 (litLo 2 2 (atResetSc 0x00FC)))) (fun t =>
    pixels t [(0, 2), (2, 2), (4, 2), (62, 2)] == [true, false, false, false]) = true := by
  decide +kernel

/-- D16, D18. -/
theorem test_high : nextAnd (step (litLo 4 2 (atResetSc 0x00FF))) (fun t =>
    t.hires && t.fbLo.pixel 4 2 == false && t.fbHi.pixel 4 2 == false) = true := by decide +kernel
theorem test_low_again : nextAnd (step (litLo 4 2 (atResetSc 0x00FE))) (fun t =>
    !t.hires && t.pixel 4 2 == false && t.signal.redraw) = true := by decide +kernel

/-! ### Keys and timers (L2.5) -/

/-- K1, K5. -/
theorem test_skpVx : nextAnd (step (reg 1 5 ((atReset 0xE19E).writeKey 5 true))) fun t =>
    t.PC == 0x204#16 := by decide +kernel
theorem test_skpVx_noKey : faults (reg 1 0x10 (atReset 0xE19E)) .unmodelled .skpKey = true := by decide +kernel

/-- K3, K4. -/
theorem test_sknpVx : nextAnd (step (reg 1 5 (atReset 0xE1A1))) fun t => t.PC == 0x204#16 := by decide +kernel
theorem test_sknpVx_down : nextAnd (step (reg 1 5 ((atReset 0xE1A1).writeKey 5 true))) fun t =>
    t.PC == 0x202#16 := by decide +kernel

/-- T1, T2, T3. -/
theorem test_ldVxDT : nextAnd (step { atReset 0xF507 with DT := 0x3C }) fun t =>
    t.readV 5 == 0x3C#8 := by decide +kernel
theorem test_ldDTVx : nextAnd (step (reg 0 0x0A (atReset 0xF015))) fun t => t.DT == 0x0A#8 := by decide +kernel
theorem test_ldSTVx : nextAnd (step (reg 2 0x02 (atReset 0xF218))) fun t =>
    t.ST == 0x02#8 && t.buzzer := by decide +kernel

/-- P5, step 1, and the next cycle, a hold (step 3). -/
theorem test_ldVxK : nextAnd (step (atReset 0xF30A)) (fun t =>
    t.waitKey == .waitingForPress 3 && t.PC == 0x202#16
      && nextAnd (step t) fun u => u.waitKey == .waitingForPress 3 && u.PC == 0x202#16
        && u.signal == Signal.quiet) = true := by
  decide +kernel

/-- K9: a key held since before the wait. -/
theorem test_setKey_resolves :
    let t := (({ State.reset.writeKey 5 true with waitKey := .waitingForPress 3 } : State).setKey 5
      false).1
    t.readV 3 = 5#8 ∧ t.waitKey = .notWaiting ∧ t.keys[5] = false := by decide +kernel

/-! ### Cycle, reset and commands (L2.6) -/

/-- F5: the empty ROM. -/
theorem test_reset_faults : faults State.reset .illegalInstruction (.word 0x0000) = true := by decide +kernel

/-- C19: a skip past memory, and the fetch after it. -/
theorem test_skip_past_memory :
    nextAnd (step ((({ State.reset with PC := 0xFFC } : State).writeByte 0xFFC 0x30))) (fun t =>
      t.PC == 0x1000#16
        && faults { t with signal := Signal.quiet } .outOfBoundsAccess .pcBounds) = true := by decide +kernel

/-- F1: a frame of three cycles. -/
theorem test_frame : (match perform (.advanceOneFrame 3)
      (State.reset.loadRom [0x60, 0x05, 0xF0, 0x15, 0x12, 0x04]).1 with
    | .next (t, r) => t.readV 0 == 0x05#8 && t.DT == 4#8 && t.PC == 0x204#16
        && r == .signals Signal.quiet
    | .fault _ => false
    | .refused _ => false) = true := by decide +kernel

/-- F8, F9. -/
theorem test_setQuirk : (State.reset.setQuirk "logic" false).1.quirks.vfReset = false
    ∧ (State.reset.setQuirk "foo" true).2 = .refused := by decide +kernel

/-- What `withFetchWord` places, the next step runs, under the variant it needs. -/
theorem test_withFetchWord : nextAnd (step (State.reset.withFetchWord 16 0x00FF)) (fun t =>
    t.hires && t.variant == .superchip && t.PC == 0x202#16) = true := by decide +kernel

/-- Reset memory has its canonical form, and holds the fonts (R60): digit 0 at 0x000, the big 0 at
0x050. -/
theorem test_reset_memory : State.reset.mem.wf State.reset.resetByte = true
    ∧ State.reset.readByte 0x000 = 0xF0#8 ∧ State.reset.readByte 0x050 = 0x3C#8
    ∧ State.reset.readByte 0x200 = 0x00#8 := by decide +kernel

/-! ### Witnesses: for each statement with hypotheses, values that meet all of them, each clause at the
ends of its range -/

/-- A state with `PC` and the word there, no hold. -/
def fetching (pc w : Word16) : State := ({ State.reset with PC := pc } : State).placeWord w

/-- The reset state under SUPERCHIP. -/
def superchip : State := { State.reset with variant := .superchip, quirks := Quirks.defaults .superchip }

theorem witness_EncodeThenDecode :
    Instr.wellFormed .superchip (.ldVxR 0x7) = true ∧ Instr.wellFormed .superchip (.drwVxVyN 0xF 0 1) = true
      ∧ Instr.wellFormed .chip8 (.drwVxVyN 0 0xF 0) = true
      ∧ Instr.wellFormed .chip8 (.jp 0xFFF) = true := by decide

theorem witness_DecodeThenEncode :
    decode .superchip 0xF785 = .instr (.ldVxR 0x7) ∧ decode .chip8 0xD0F0 = .instr (.drwVxVyN 0 0xF 0)
      ∧ decode .chip8 0x1FFF = .instr (.jp 0xFFF) := by decide

theorem witness_DecodeFollowsOpcodeMap :
    decode .superchip 0xF785 = .instr (.ldVxR 0x7)
      ∧ (∀ r ∈ opcodeMap, r.existsIn .superchip = true → r.matchesWord 0x0123 = false)
      ∧ (∀ r ∈ opcodeMap, r.existsIn .chip8 = true → r.matchesWord 0x00FF = false)
      ∧ 7 < (0x8#4).toNat ∧ 7 < (0xF#4).toNat := by decide +kernel

theorem witness_RowsOverlapOnlyAtDxy0 :
    (∃ r ∈ opcodeMap, ∃ r' ∈ opcodeMap,
        r ≠ r' ∧ r.matchesWord 0xD120 = true ∧ r'.matchesWord 0xD120 = true)
      ∧ ∃ r ∈ opcodeMap, r.matchesWord 0xD121 = true := by decide +kernel

theorem witness_StepRunsDecodedInstruction : ∀ s ∈ [fetching 0x000 0x6A2C, fetching 0xFFE 0x6A2C],
    s.halted = false ∧ s.waitKey = .notWaiting ∧ s.vblankHold = false
      ∧ s.PC.toNat % 2 = 0 ∧ s.PC.toNat + 1 < Config.memSize
      ∧ decode s.variant (wordOfBytes (s.readByte s.PC.toNat) (s.readByte (s.PC.toNat + 1)))
        = .instr (.ldVxKk 0xA 0x2C) := by decide +kernel

theorem witness_FetchAndDecodeFaults :
    (∀ pc, ({ State.reset with PC := pc } : State).halted = false
        ∧ ({ State.reset with PC := pc } : State).waitKey = .notWaiting
        ∧ ({ State.reset with PC := pc } : State).vblankHold = false)
      ∧ (0x001#16).toNat % 2 = 1 ∧ (0xFFFF#16).toNat % 2 = 1
      ∧ ((0x1000#16).toNat % 2 = 0 ∧ (0x1000#16).toNat + 1 ≥ Config.memSize)
      ∧ ((0xFFFE#16).toNat % 2 = 0 ∧ (0xFFFE#16).toNat + 1 ≥ Config.memSize) :=
  ⟨fun _ => ⟨rfl, rfl, rfl⟩, by decide, by decide, by decide, by decide⟩

theorem witness_FetchAndDecodeFaults_illegal : ∀ s ∈ [fetching 0x000 0x0123, fetching 0xFFE 0x0123],
    s.halted = false ∧ s.waitKey = .notWaiting ∧ s.vblankHold = false
      ∧ s.PC.toNat % 2 = 0 ∧ s.PC.toNat + 1 < Config.memSize
      ∧ decode s.variant (wordOfBytes (s.readByte s.PC.toNat) (s.readByte (s.PC.toNat + 1)))
        = .illegal 0x0123 := by decide +kernel

/-- A halted state, a state that waits for a key, and a display hold. -/
def halted : State := { State.reset with halted := true }
def waiting : State := { State.reset with waitKey := .waitingForPress 0xF }
def held : State := { State.reset with vblankHold := true }

theorem witness_HeldCycleChangesNothing :
    halted.halted = true ∧ (waiting.halted = false ∧ waiting.waitKey ≠ .notWaiting)
      ∧ (held.halted = false ∧ held.waitKey = .notWaiting ∧ held.vblankHold = true) := by decide +kernel

theorem witness_HoldsLastForever :
    halted.halted = true
      ∧ (waiting.halted = false ∧ (waiting.waitKey ≠ .notWaiting ∨ waiting.vblankHold = true))
      ∧ (held.halted = false ∧ (held.waitKey ≠ .notWaiting ∨ held.vblankHold = true)) := by
  decide +kernel

theorem witness_FaultCommitsNothing :
    ∃ t, step State.reset = .next t ∧ t.signal.fault = some .illegalInstruction := ⟨_, rfl, rfl⟩

theorem witness_InstructionsFaultAsTabled :
    (∀ i ∈ [Instr.skpVx 0, .call 0x300, .drwVxVyN 0 0 15, .ldMemVx 0xF], i.wellFormed .chip8 = true)
      ∧ faultOf (.skpVx 0) (reg 0 0x10 State.reset) = some (.unmodelled, .skpKey)
      ∧ faultOf (.skpVx 0) (reg 0 0x0F State.reset) = none
      ∧ faultOf (.call 0x300) { State.reset with SP := 16 } = some (.stackOverflow, .call)
      ∧ faultOf (.call 0x300) { State.reset with SP := 15 } = none
      ∧ faultOf (.drwVxVyN 0 0 15) { State.reset with I := 0xFF2 }
        = some (.outOfBoundsAccess, .address 0x1000)
      ∧ faultOf (.drwVxVyN 0 0 15) { State.reset with I := 0xFF1 } = none
      ∧ faultOf (.ldMemVx 0xF) { State.reset with I := 0xFF1 }
        = some (.outOfBoundsAccess, .address 0x1000)
      ∧ faultOf (.ldMemVx 0xF) { State.reset with I := 0xFF0 } = none := by decide +kernel

theorem witness_AddSetsCarry : (0x0#4) ≠ 0xF#4 ∧ (0xE#4) ≠ 0xF#4 := by decide

theorem witness_SubtractSetsNotBorrow : (0x0#4) ≠ 0xF#4 ∧ (0xE#4) ≠ 0xF#4 := by decide

theorem witness_LogicFollowsVfReset :
    (∀ i ∈ [Instr.orVxVy 1 2, .andVxVy 1 2, .xorVxVy 0xF 2],
        i = .orVxVy 1 2 ∨ i = .andVxVy 1 2 ∨ i = .xorVxVy 0xF 2)
      ∧ State.reset.quirks.vfReset = true ∧ superchip.quirks.vfReset = false ∧ (0xE#4) ≠ 0xF#4 := by
  decide +kernel

theorem witness_ShiftsFollowQuirk :
    (0x03#8) = (if (reg 1 0x03 superchip).quirks.shifting then (reg 1 0x03 superchip).readV 1
        else (reg 1 0x03 superchip).readV 2)
      ∧ (0x03#8) = (if (reg 2 0x03 State.reset).quirks.shifting then (reg 2 0x03 State.reset).readV 1
        else (reg 2 0x03 State.reset).readV 2) ∧ (0xE#4) ≠ 0xF#4 := by decide +kernel

theorem witness_RandomByteIsMasked : (0x00#8) = 0#8 ∧ (0x2#4) ≠ 0x1#4 := by decide

theorem witness_CallPushesReturnAddress :
    State.reset.SP.val < 16 ∧ ({ State.reset with SP := 15 } : State).SP.val < 16
      ∧ ({ State.reset with SP := 16 } : State).SP.val = 16 := by decide +kernel

theorem witness_ReturnPopsReturnAddress :
    0 < ({ State.reset with SP := 1 } : State).SP.val ∧ 0 < ({ State.reset with SP := 16 } : State).SP.val
      ∧ State.reset.SP.val = 0 := by decide +kernel

theorem witness_ReturnUndoesCall :
    State.reset.SP.val < 16 ∧ ({ State.reset with SP := 15 } : State).SP.val < 16 := by decide +kernel

theorem witness_SeventeenthCallOverflows :
    State.reset.SP.val + (List.replicate 16 (0x200#12)).length = 16
      ∧ ({ State.reset with SP := 16 } : State).SP.val + ([] : List Addr12).length = 16 := by
  decide +kernel

theorem witness_ExitHaltsWithoutFault : superchip.variant = .superchip := rfl

theorem witness_FontAddresses :
    State.reset.fonts.wf = true ∧ superchip.fonts.wf = true ∧ superchip.variant = .superchip
      ∧ ((reg 0 0x0F State.reset).readV 0).toNat ≤ 0xF ∧ ((reg 0 0x10 State.reset).readV 0).toNat > 0xF
      ∧ ((reg 0 0x09 superchip).readV 0).toNat ≤ 9 ∧ ((reg 0 0x0A superchip).readV 0).toNat > 9 := by
  decide +kernel

/-- A state with I and a byte of its own in memory. -/
def atI (a : Word16) : State := ({ State.reset with I := a } : State).writeByte 0x300 0x77

theorem witness_BcdStoresDigits :
    (atI 0xFFD).mem.wf (atI 0xFFD).resetByte = true ∧ (atI 0xFFE).mem.wf (atI 0xFFE).resetByte = true
      ∧ (atI 0xFFD).I.toNat + 2 < Config.memSize ∧ (atI 0xFFE).I.toNat + 2 ≥ Config.memSize := by
  decide +kernel

theorem witness_StoreRegisters :
    (atI 0xFF0).mem.wf (atI 0xFF0).resetByte = true ∧ (atI 0xFF1).mem.wf (atI 0xFF1).resetByte = true
      ∧ (atI 0xFF0).I.toNat + (0xF#4).toNat < Config.memSize
      ∧ (atI 0xFF1).I.toNat + (0xF#4).toNat ≥ Config.memSize := by decide +kernel

theorem witness_LoadRegisters :
    (atI 0xFF0).I.toNat + (0xF#4).toNat < Config.memSize
      ∧ (atI 0xFF1).I.toNat + (0xF#4).toNat ≥ Config.memSize := by decide +kernel

theorem witness_LoadRestoresStoredRegisters :
    ∀ s ∈ [{ atI 0xFF0 with quirks := Quirks.defaults .superchip }],
      s.mem.wf s.resetByte = true ∧ s.I.toNat + (0xF#4).toNat < Config.memSize
        ∧ s.quirks.memoryIncrement = false := by decide +kernel

theorem witness_StoredWordIsExecuted :
    ∀ s ∈ [reg 0 0x6A (reg 1 0x2C { atI 0xFFE with PC := 0xFFC })],
      s.mem.wf s.resetByte = true ∧ 1 ≤ (0x1#4).toNat ∧ s.I = s.PC + 2#16
        ∧ s.I.toNat + (0x1#4).toNat < Config.memSize ∧ s.I.toNat % 2 = 0 ∧ s.halted = false
        ∧ s.waitKey = .notWaiting ∧ s.vblankHold = false
        ∧ decode s.variant (wordOfBytes (s.readV 0x0#4) (s.readV 0x1#4)) = .instr (.ldVxKk 0xA 0x2C) := by
  decide +kernel

theorem witness_FlagsSaveAndLoad :
    superchip.variant = .superchip ∧ (0x7#4).toNat ≤ 7 ∧ (0x8#4).toNat > 7 := by decide +kernel

theorem witness_CanonicalMemoryIsUnique :
    (atI 0).mem.wf (atI 0).resetByte = true
      ∧ (∀ a, a < Config.memSize → (atI 0).mem.read (atI 0).resetByte a
          = (({ State.reset.writeByte 0x300 0x11 with I := 0 } : State).writeByte 0x300 0x77).mem.read
              (atI 0).resetByte a)
      ∧ (({ State.reset.writeByte 0x300 0x11 with I := 0 } : State).writeByte 0x300 0x77).mem.wf
          (atI 0).resetByte = true := ⟨by decide +kernel, fun _ _ => rfl, by decide +kernel⟩

theorem witness_ScrollsMoveActiveBuffer :
    superchip.variant = .superchip
      ∧ ∀ i ∈ [Instr.scd 0xF, .scr, .scl], i = .scd 0xF ∨ i = .scr ∨ i = .scl := by decide +kernel

theorem witness_ModeSwitchClearsBoth :
    superchip.variant = .superchip
      ∧ (∀ p ∈ [(Instr.low, false), (Instr.high, true)],
          p.1 = .low ∧ p.2 = false ∨ p.1 = .high ∧ p.2 = true) := by decide +kernel

/-- The font's digit 0 at the origin: a sprite that collides where (0, 0) is lit, and does not on a
blank screen. -/
theorem witness_DrawsEightWideSprite :
    ((0x0#4).toNat = 0 ∨ (atI 0xFFFF).I.toNat + (0x0#4).toNat - 1 < Config.memSize)
      ∧ ((0xF#4).toNat = 0 ∨ (atI 0xFF1).I.toNat + (0xF#4).toNat - 1 < Config.memSize)
      ∧ ((0xF#4).toNat ≠ 0 ∧ (atI 0xFF2).I.toNat + (0xF#4).toNat - 1 ≥ Config.memSize)
      ∧ (litLo 0 0 (atI 0)).pixel 0 0 = true
      ∧ spriteOn true 64 32 0 0 5 8 (spriteBit8 (atI 0)) 0 0 = true
      ∧ ∀ px py, (atI 0).pixel px py = false :=
  ⟨by decide +kernel, by decide +kernel, by decide +kernel, by decide +kernel, by decide +kernel,
    fun _ _ => by simp [atI, State.pixel, State.reset, State.construct]⟩

theorem witness_DrawsSixteenWideSprite :
    superchip.variant = .superchip
      ∧ ({ superchip with I := 0xFE0 } : State).I.toNat + 31 < Config.memSize
      ∧ ({ superchip with I := 0xFE1 } : State).I.toNat + 31 ≥ Config.memSize := by decide +kernel

theorem witness_DrawTwiceRestoresScreen :
    (0x0#4) ≠ 0xF#4 ∧ (0xE#4) ≠ 0xF#4
      ∧ ((0x0#4).toNat = 0 ∨ (atI 0xFFFF).I.toNat + (0x0#4).toNat - 1 < Config.memSize)
      ∧ ((0xF#4).toNat = 0 ∨ (atI 0xFF1).I.toNat + (0xF#4).toNat - 1 < Config.memSize)
      ∧ ∀ px py, (atI 0xFF1).pixel px py = false :=
  ⟨by decide, by decide, by decide +kernel, by decide +kernel,
    fun _ _ => by simp [atI, State.pixel, State.reset, State.construct]⟩

theorem witness_RedrawMarksDisplayInstructions :
    Instr.wellFormed State.reset.variant .cls = true ∧ faultOf .cls State.reset = none
      ∧ Instr.wellFormed State.reset.variant (.jp 0x300) = true
      ∧ faultOf (.jp 0x300) State.reset = none
      ∧ (∃ t, exec .cls State.reset = .next t) ∧ ∃ t, exec (.jp 0x300) State.reset = .next t :=
  ⟨rfl, rfl, rfl, rfl, ⟨_, rfl⟩, ⟨_, rfl⟩⟩

theorem witness_KeySkipsReadKeypad :
    ((reg 0 0x0F State.reset).readV 0).toNat = (0xF#4).toNat
      ∧ (State.reset.readV 0).toNat = (0x0#4).toNat
      ∧ ((reg 0 0x10 State.reset).readV 0).toNat > 0xF := by decide +kernel

theorem witness_KeyReleaseResolvesWait : (0x2#4) ≠ 0x1#4 := by decide

theorem witness_SetKeyElsewhereOnlyWritesKey :
    16 ≥ 16 ∧ 15 < 16
      ∧ (State.reset.waitKey = .notWaiting ∨ State.reset.keys[15] = false ∨ false = true)
      ∧ (waiting.waitKey = .notWaiting ∨ waiting.keys[0] = false ∨ false = true)
      ∧ ((waiting.writeKey 0xF true).waitKey = .notWaiting ∨ (waiting.writeKey 0xF true).keys[15] = false
          ∨ true = true) := by decide +kernel

theorem witness_TicksCountTimersDown : halted.halted = true ∧ held.halted = false := by decide +kernel

theorem witness_NoInstructionWritesSettings : ∃ t, exec (.rndVxKk 1 0x0F) State.reset = .next t := ⟨_, rfl⟩

/-- Each clause: an instruction that does write the register. -/
theorem witness_OnlyNamedInstructionsWrite :
    (nextAnd (exec (.ldBVx 0) (reg 0 0x7B (atI 0x300))) fun t => t.readByte 0x300 != 0x77#8)
      ∧ (nextAnd (exec (.ldMemVx 0) (atI 0x300)) fun t => t.I != 0x300#16)
      ∧ (nextAnd (exec (.call 0x300) State.reset) fun t => t.SP != 0)
      ∧ (nextAnd (exec (.ldDTVx 0) (reg 0 1 State.reset)) fun t => t.DT != 0#8)
      ∧ (nextAnd (exec (.ldSTVx 0) (reg 0 1 State.reset)) fun t => t.ST != 0#8)
      ∧ (nextAnd (exec (.ldRVx 0) (reg 0 1 superchip)) fun t => t.flags != superchip.flags)
      ∧ (nextAnd (exec (.ldVxK 0) State.reset) fun t => t.waitKey != .notWaiting)
      ∧ (nextAnd (exec (.drwVxVyN 0 0 5) State.reset) fun t => t.vblankHold && t.pixel 0 0)
      ∧ (nextAnd (exec .high superchip) fun t => t.hires)
      ∧ (nextAnd (exec (.rndVxKk 0 1) State.reset) fun t => t.draws != 0) := by decide +kernel

theorem witness_RegistersOutsideDestinationsKept :
    (∃ t, exec (.addVxVy 1 2) State.reset = .next t) ∧ (0x3#4) ∉ destRegisters (.addVxVy 1 2)
      ∧ (∃ t, exec (.ldVxMem 0xE) State.reset = .next t) ∧ (0xF#4) ∉ destRegisters (.ldVxMem 0xE) :=
  ⟨⟨_, rfl⟩, by decide, ⟨_, rfl⟩, by decide⟩

theorem witness_SetQuirkWritesOneField :
    "logic" ∈ ["vf_reset", "logic", "memory_increment", "display_wait", "clipping", "shifting", "jumping"]
      ∧ "foo" ∉ ["vf_reset", "logic", "memory_increment", "display_wait", "clipping", "shifting",
        "jumping"] := by decide

theorem witness_SelectVariantAndLoadFlags :
    State.reset.runStarted = false ∧ ({ State.reset with runStarted := true } : State).runStarted = true := by
  decide +kernel

theorem witness_ResetReinitialises :
    State.reset.fonts.wf = true
      ∧ ({ State.reset with rom := List.replicate 3584 0x12 } : State).rom.length ≤ Config.romMax
      ∧ (0x12A < State.reset.fonts.smallBase ∨ State.reset.fonts.smallBase + 80 ≤ 0x12A)
      ∧ (0x12A < State.reset.fonts.bigBase ∨ State.reset.fonts.bigBase + 100 ≤ 0x12A)
      ∧ (0x12A < 0x200 ∨ 0x200 + State.reset.rom.length ≤ 0x12A) := by decide +kernel

theorem witness_LoadRomReplacesImageAndResets :
    (List.replicate 3584 (0x12#8)).length ≤ 3584 ∧ ([] : List Byte).length ≤ 3584
      ∧ (List.replicate 3585 (0x12#8)).length > 3584 := by decide +kernel

/-- A frame whose first cycle signals a redraw, and one whose first cycle faults. -/
theorem witness_FrameIsCyclesThenTick :
    (nextAnd (performAll (List.replicate 1 .executeOneCycle) { atReset 0x00E0 with runStarted := true })
        fun v => v.signal.redraw)
      ∧ (nextAnd (performAll (List.replicate 1 .executeOneCycle) { State.reset with runStarted := true })
        fun v => v.signal.fault == some .illegalInstruction) := by decide +kernel

theorem witness_SnapshotShowsState :
    0 < ({ State.reset with ST := 1 } : State).ST.toNat ∧ 15 < ({ State.reset with SP := 16 } : State).SP.val
      ∧ 63 < State.reset.width ∧ 31 < State.reset.height
      ∧ 127 < ({ superchip with hires := true } : State).width
      ∧ 63 < ({ superchip with hires := true } : State).height := by decide +kernel

/-- A high-res SUPERCHIP engine about to run an instruction, with a byte of its own in memory. -/
def running : State := { atResetSc 0x6A2C with hires := true, runStarted := true }

theorem running_inv : running.Inv where
  memCanonical := by decide +kernel
  fontsFit := by decide +kernel
  romFits := by decide +kernel
  inactiveBlank := rfl
  waitAlone := fun h => absurd rfl h
  holdNotHalted := fun _ => rfl
  faultHalts := fun h => absurd rfl h
  lockedNotRecorded := fun h => nomatch h
  chip8LowRes := fun h => nomatch h
  freshIdle := fun h => nomatch h

/-- Fonts that fit at the top of the range R6 gives them. -/
theorem witness_ConstructedEngineMeetsInv :
    ({ defaultFonts with smallBase := 0x1B0, bigBase := 0x14C } : Fonts).wf = true := by decide +kernel

theorem witness_StepKeepsInv : running.Inv ∧ ∃ t, step running = .next t := ⟨running_inv, _, rfl⟩

theorem witness_CommandsKeepInv : running.Inv ∧ ∃ t r, perform (.setKey 15 true) running = .next (t, r) :=
  ⟨running_inv, _, _, rfl⟩

theorem witness_ReachableStatesMeetInv :
    ∃ t, Reachable t ∧ t.runStarted = true ∧ t.halted = true :=
  ⟨_, .command _ _ .executeOneCycle _ (.constructed defaultFonts (by decide +kernel)) rfl, rfl, rfl⟩

end Sys2Proof.Machine.Test
end

section
/-! SUPPORT. The invariant of an engine (`State.Inv`), kept by every update of the state, by every
instruction, by every cycle and frame, and so by every command of the host (60_exceptions.md R380). -/

namespace Sys2Proof.Machine

/-! ### The invariant under the updates of the state -/

namespace State

/-- The fields the invariant does not read may hold anything. -/
theorem Inv.frame {s : State} (h : s.Inv) {V : Vector Byte 16} {I PC : Word16}
    {SP : Fin (Config.stackDepth + 1)} {stack : Vector Word16 Config.stackDepth} {DT ST : Byte}
    {keys : Vector Bool 16} {flags : Vector Byte 8} {quirks : Quirks}
    {faultInfo : Option FaultInfo} {signal : Signal} {draws : Nat} :
    ({ s with V := V, I := I, PC := PC, SP := SP, stack := stack, DT := DT, ST := ST, keys := keys,
              flags := flags, quirks := quirks, faultInfo := faultInfo, signal := signal,
              draws := draws } : State).Inv :=
  { h with }

/-- The start of a run releases the fresh engine's clause and touches no other. -/
theorem Inv.started {s : State} (h : s.Inv) : ({ s with runStarted := true } : State).Inv :=
  { h with freshIdle := fun hr => nomatch hr }

theorem Inv.startCycle {s : State} (h : s.Inv) : s.startCycle.Inv := h.started.frame

theorem Inv.loadRegisters {s : State} (h : s.Inv) (count : Nat) (f : Nat → Byte) :
    (s.loadRegisters count f).Inv := by
  rw [loadRegisters_eq]
  exact h.frame

theorem Inv.writeBytes {s : State} (h : s.Inv) {a : Nat} {bs : List Byte}
    (ha : a + bs.length ≤ Config.memSize) : (s.writeBytes a bs).Inv := by
  have hwf := writeBytes_memWf h.memCanonical ha
  rw [writeBytes_eq] at hwf ⊢
  exact { h with memCanonical := hwf }

/-- Both framebuffers may change as long as the inactive one does not (R39). -/
theorem Inv.withScreens {s : State} (h : s.Inv) {lo : Framebuffer Config.loresW Config.loresH}
    {hi : Framebuffer Config.hiresW Config.hiresH}
    (hk : if s.hires then lo = s.fbLo else hi = s.fbHi) :
    ({ s with fbLo := lo, fbHi := hi } : State).Inv := by
  refine { h with inactiveBlank := ?_ }
  have hb := h.inactiveBlank
  show if s.hires then lo = Framebuffer.blank else hi = Framebuffer.blank
  split at hk
  · next hh => rw [if_pos hh] at hb ⊢; exact hk.trans hb
  · next hh => rw [if_neg hh] at hb ⊢; exact hk.trans hb

theorem Inv.updateScreen {s : State} (h : s.Inv)
    (f : ∀ {w h : Nat}, Framebuffer w h → Framebuffer w h) : (s.updateScreen f).Inv :=
  h.withScreens (s.updateScreen_inactive f)

/-- The inactive buffer is unchanged by a draw (R271). -/
theorem drawSprite_inactive {n : Nat} (s : State) (x y : Nibble) (rows : List (BitVec n)) :
    if s.hires then (s.drawSprite x y rows).fbLo = s.fbLo
    else (s.drawSprite x y rows).fbHi = s.fbHi := by
  cases hh : s.hires <;> simp [drawSprite, hh]

theorem Inv.drawSprite {s : State} (h : s.Inv) {n : Nat} (x y : Nibble) (rows : List (BitVec n)) :
    (s.drawSprite x y rows).Inv :=
  (h.withScreens (s.drawSprite_inactive x y rows)).frame

/-- After construction the invariant asks for fonts and a ROM image that fit, and so after a reset
(R60, R392). -/
theorem resetEngine_inv {s : State} (hf : s.fonts.wf = true) (hr : s.rom.length ≤ Config.romMax) :
    s.resetEngine.Inv where
  memCanonical := s.resetEngine_memWf
  fontsFit := hf
  romFits := hr
  inactiveBlank := rfl
  waitAlone := fun hw => absurd rfl hw
  holdNotHalted := fun _ => rfl
  faultHalts := fun hf => absurd rfl hf
  lockedNotRecorded := fun hf => nomatch hf
  chip8LowRes := fun _ => rfl
  freshIdle := fun _ => ⟨rfl, rfl, rfl, rfl⟩

end State

/-! ### The invariant under the instructions -/

section Executing

/-! An instruction executes in a state in which nothing holds and the run has started (R130, R132). -/

variable {s t : State} (h : s.Inv) (hold : s.hold = none) (started : s.runStarted = true)

include h hold in
/-- A fault of any kind that may be recorded. -/
theorem haltedBy_inv {kind : FaultKind} {info : FaultInfo}
    (hk : kind ≠ .variantLocked := by decide) : (haltedBy s kind info).Inv := by
  obtain ⟨-, hwait, hvblank⟩ := hold_eq_none.1 hold
  exact { h with
    waitAlone := fun hw => absurd hwait hw
    holdNotHalted := fun hv => nomatch hvblank.symm.trans hv
    faultHalts := fun _ => rfl
    lockedNotRecorded := fun hf => hk (Option.some.inj hf)
    freshIdle := fun hr => nomatch hr }

include h hold in
/-- A meaning of the SUPER-CHIP extension keeps the invariant if its effect does under SUPERCHIP. -/
theorem underSuperchip_inv {i : Instr} {e : State} (he : s.variant = .superchip → e.Inv)
    (hx : underSuperchip s i e = .next t) : t.Inv := by
  rcases underSuperchip_cases hx with ⟨hv, rfl⟩ | ⟨-, rfl⟩
  · exact he hv
  · exact haltedBy_inv h hold

include h hold started in
/-- A draw may leave the display hold, in an engine that waits for no key and is not halted. -/
theorem completeDraw_inv {n : Nat} (x y : Nibble) (rows : List (BitVec n)) :
    (s.completeDraw x y rows).Inv := by
  obtain ⟨hhalt, hwait, -⟩ := hold_eq_none.1 hold
  have hdrawn : (s.advancePC.drawSprite x y rows).signalRedraw.Inv :=
    (State.Inv.drawSprite h.frame x y rows).frame
  exact { hdrawn with
    waitAlone := fun hw => absurd hwait hw
    holdNotHalted := fun _ => hhalt
    freshIdle := fun hr => nomatch started.symm.trans hr }

include h started in
/-- A change of resolution leaves both framebuffers blank; it needs SUPERCHIP to be allowed (R302). -/
theorem switchResolution_inv (hv : s.variant = .superchip) (b : Bool) :
    (s.switchResolution b).Inv :=
  { h with
    inactiveBlank := by cases b <;> rfl
    chip8LowRes := fun hc => nomatch hv.symm.trans hc
    freshIdle := fun hr => nomatch started.symm.trans hr }

include h hold started in
/-- The exit halts an engine that waits for no key and for no frame (R210). -/
theorem execExit_inv (hx : execExit s = .next t) : t.Inv := by
  obtain ⟨-, hwait, hvblank⟩ := hold_eq_none.1 hold
  refine underSuperchip_inv h hold (fun _ => ?_) hx
  exact { h with
    waitAlone := fun hw => absurd hwait hw
    holdNotHalted := fun hv => nomatch hvblank.symm.trans hv
    faultHalts := fun _ => rfl
    freshIdle := fun hr => nomatch started.symm.trans hr }

include h hold started in
/-- The key wait begins in an engine that is not halted and in no display hold (R331). -/
theorem execLdVxK_inv {x : Nibble} (hx : execLdVxK x s = .next t) : t.Inv := by
  obtain ⟨hhalt, -, hvblank⟩ := hold_eq_none.1 hold
  cases hx
  exact { h with
    waitAlone := fun _ => ⟨hhalt, hvblank⟩
    freshIdle := fun hr => nomatch started.symm.trans hr }

include h hold started in
/-- One case for each instruction: those that branch go by the cases of their meaning, the others by
the fields they write. -/
theorem exec_inv {i : Instr} (hx : exec i s = .next t) : t.Inv := by
  cases i with
  | jp | seVxKk | sneVxKk | seVxVy | ldVxKk | addVxKk | ldVxVy | orVxVy | andVxVy | xorVxVy
  | addVxVy | subVxVy | shrVxVy | subnVxVy | shlVxVy | sneVxVy | ldINnn | jpV0Nnn | rndVxKk
  | ldVxDT | ldDTVx | ldSTVx | addIVx => cases hx; exact h.frame
  | cls => cases hx; exact (State.Inv.updateScreen h.frame _).frame
  | scd | scr | scl =>
    exact underSuperchip_inv h hold (fun _ => (State.Inv.updateScreen h.frame _).frame) hx
  | low | high =>
    exact underSuperchip_inv h hold
      (fun hv => (switchResolution_inv (s := s.advancePC) h.frame started hv _).frame) hx
  | exit => exact execExit_inv h hold started hx
  | ldVxK => exact execLdVxK_inv h hold started hx
  | ret =>
    rcases execRet_cases hx with ⟨-, rfl⟩ | ⟨-, rfl⟩
    exacts [h.frame, haltedBy_inv h hold]
  | call =>
    rcases execCall_cases hx with ⟨-, rfl⟩ | ⟨-, rfl⟩
    exacts [h.frame, haltedBy_inv h hold]
  | drwVxVyN =>
    rcases execDrwVxVyN_cases hx with ⟨-, rfl⟩ | ⟨-, -, rfl⟩
    exacts [completeDraw_inv h hold started _ _ _, haltedBy_inv h hold]
  | drwVxVy0 =>
    rcases execDrwVxVy0_cases hx with ⟨-, -, rfl⟩ | ⟨-, -, rfl⟩ | ⟨-, rfl⟩
    exacts [completeDraw_inv h hold started _ _ _, haltedBy_inv h hold,
      completeDraw_inv h hold started _ _ _]
  | skpVx =>
    rcases execSkpVx_cases hx with ⟨-, rfl⟩ | ⟨-, rfl⟩
    exacts [h.frame, haltedBy_inv h hold]
  | sknpVx =>
    rcases execSknpVx_cases hx with ⟨-, rfl⟩ | ⟨-, rfl⟩
    exacts [h.frame, haltedBy_inv h hold]
  | ldFVx =>
    rcases execLdFVx_cases hx with ⟨-, rfl⟩ | ⟨-, rfl⟩
    exacts [h.frame, haltedBy_inv h hold]
  | ldHFVx =>
    rcases execLdHFVx_cases hx with ⟨-, -, rfl⟩ | ⟨-, -, rfl⟩ | ⟨-, rfl⟩
    exacts [h.frame, haltedBy_inv h hold, haltedBy_inv h hold]
  | ldBVx =>
    rcases execLdBVx_cases hx with ⟨hb, rfl⟩ | ⟨-, rfl⟩
    exacts [State.Inv.writeBytes h.frame hb, haltedBy_inv h hold]
  | ldMemVx x =>
    rcases execLdMemVx_cases hx with ⟨hb, rfl⟩ | ⟨-, rfl⟩
    · refine (State.Inv.writeBytes (s := s.advancePC) h.frame ?_).frame
      rw [State.length_registersTo]
      exact hb
    · exact haltedBy_inv h hold
  | ldVxMem =>
    rcases execLdVxMem_cases hx with ⟨-, rfl⟩ | ⟨-, rfl⟩
    exacts [(State.Inv.loadRegisters (s := s.advancePC) h.frame _ _).frame, haltedBy_inv h hold]
  | ldRVx =>
    rcases execLdRVx_cases hx with ⟨-, -, rfl⟩ | ⟨-, rfl⟩
    exacts [h.frame, haltedBy_inv h hold]
  | ldVxR =>
    rcases execLdVxR_cases hx with ⟨-, -, rfl⟩ | ⟨-, rfl⟩
    exacts [State.Inv.loadRegisters (s := s.advancePC) h.frame _ _, haltedBy_inv h hold]

end Executing

/-! ### The invariant under cycles and frames -/

/-- Every cycle keeps the invariant: it holds, faults or executes one instruction. -/
theorem step_inv {s t : State} (h : s.Inv) (hx : step s = .next t) : t.Inv := by
  rcases step_cases hx with ⟨-, rfl⟩ | ⟨-, -, rfl⟩ | ⟨hold, _, rfl⟩ | ⟨hold, _, rfl⟩ |
    ⟨hold, i, -, hi⟩
  · exact h.startCycle.frame
  · exact h.startCycle
  · exact haltedBy_inv h hold
  · exact haltedBy_inv h hold
  · exact exec_inv h.startCycle hold rfl hi

theorem frameCycles_inv {n : Nat} {acc acc' : Signal} {s t : State} (h : s.Inv)
    (hx : frameCycles n acc s = .next (t, acc')) : t.Inv := by
  induction n generalizing acc s with
  | zero => cases hx; exact h
  | succ n ih =>
    rw [frameCycles] at hx
    split at hx
    · next u hu => exact ih (step_inv h hu) hx
    · cases hx
    · cases hx

/-- A tick ends the display hold, if any, of an engine that is not halted. -/
theorem tickFrame_inv {s : State} (h : s.Inv) : s.tickFrame.Inv := by
  unfold State.tickFrame
  split
  · exact h
  · next hh =>
    have hhalt : s.halted = false := Bool.not_eq_true _ ▸ hh
    exact { h with
      waitAlone := fun _ => ⟨hhalt, rfl⟩
      holdNotHalted := fun _ => hhalt
      freshIdle := fun hr =>
        have ⟨hlores, hhalt, hwait, _⟩ := h.freshIdle hr
        ⟨hlores, hhalt, hwait, rfl⟩ }

theorem advanceOneFrame_inv {n : BitVec 32} {s t : State} {sig : Signal} (h : s.Inv)
    (hx : advanceOneFrame n s = .next (t, sig)) : t.Inv := by
  rw [advanceOneFrame] at hx
  split at hx
  · next u acc hu =>
    cases hx
    exact (tickFrame_inv (frameCycles_inv h.started hu)).frame
  · cases hx
  · cases hx

/-! ### The invariant under the host's other commands -/

theorem setKey_inv {s : State} (h : s.Inv) (code : Nat) (pressed : Bool) :
    (s.setKey code pressed).1.Inv := by
  unfold State.setKey
  split
  · exact h
  · dsimp only
    split
    · split
      · exact { h with
          waitAlone := fun hw => absurd rfl hw
          freshIdle := fun hr =>
            have ⟨hlores, hhalt, _, hvblank⟩ := h.freshIdle hr
            ⟨hlores, hhalt, rfl, hvblank⟩ }
      · exact h.frame
    · exact h.frame

theorem setQuirk_inv {s : State} (h : s.Inv) (name : String) (value : Bool) :
    (s.setQuirk name value).1.Inv := by
  unfold State.setQuirk
  split
  · exact h.frame
  · exact h

/-- A variant is selected before the run only, when the mode is low-res (R44, R53). -/
theorem selectVariant_inv {s : State} (h : s.Inv) (v : Variant) : (s.selectVariant v).1.Inv := by
  unfold State.selectVariant
  split
  · exact h
  · next hr =>
    obtain ⟨hlores, -⟩ := h.freshIdle (Bool.not_eq_true _ ▸ hr)
    exact { h with chip8LowRes := fun _ => hlores }

theorem loadRom_inv {s : State} (h : s.Inv) (bytes : List Byte) : (s.loadRom bytes).1.Inv := by
  unfold State.loadRom
  split
  · exact h
  · next hl => exact State.resetEngine_inv h.fontsFit (Nat.le_of_not_lt hl)

/-- A command that always answers, with the invariant in its answer. -/
theorem inv_of_next_pair {p : State × Response} {t : State} {r : Response}
    (hx : (.next p : Host.Outcome (State × Response) Fault Refusal) = .next (t, r))
    (hp : p.1.Inv) : t.Inv := by
  cases hx
  exact hp

/-- Settles O58: the cycle and the frame keep the invariant by the case analysis of a step, the other
commands by the fields they write. -/
theorem commandsKeepInv : Obligations.CommandsKeepInv := by
  intro c s t r h hx
  cases c with
  | executeOneCycle =>
    rw [perform] at hx
    split at hx
    · next u hu => cases hx; exact step_inv h hu
    · cases hx
    · cases hx
  | advanceOneFrame n =>
    rw [perform] at hx
    split at hx
    · next u sig hu => cases hx; exact advanceOneFrame_inv h hu
    · cases hx
    · cases hx
  | tickFrame => exact inv_of_next_pair hx (tickFrame_inv h)
  | setKey code pressed => exact inv_of_next_pair hx (setKey_inv h code pressed)
  | setQuirk name value => exact inv_of_next_pair hx (setQuirk_inv h name value)
  | selectVariant v => exact inv_of_next_pair hx (selectVariant_inv h v)
  | loadRom bytes => exact inv_of_next_pair hx (loadRom_inv h bytes)
  | reset => exact inv_of_next_pair hx (State.resetEngine_inv h.fontsFit h.romFits)
  | loadFlags bytes => exact inv_of_next_pair hx h.frame

end Sys2Proof.Machine
end

section
/-! SUPPORT. The rules of the state (10_state.md): the canonical form of memory, the settings no
instruction writes, the host's commands on the settings, and the invariant of an engine as constructed
and of every step. -/

/-! ### The canonical form of memory (assumption log 3) -/

namespace Sys2Proof.Machine.Memory

variable {base : Nat → Byte}

/-- What the canonical form asks of a listed byte and of those after it. -/
theorem wfFrom_cons_iff {lo k : Nat} {c : Byte} {m : Memory} :
    wfFrom base lo ((k, c) :: m) = true ↔
      (lo ≤ k ∧ k < Config.memSize ∧ c ≠ base k) ∧ wfFrom base (k + 1) m = true := by
  simp [wfFrom, and_assoc]

theorem lookup_cons_same (m : Memory) (k : Nat) (c : Byte) : lookup ((k, c) :: m) k = some c :=
  if_pos rfl

theorem lookup_cons_ne (m : Memory) {k a : Nat} (c : Byte) (h : a ≠ k) :
    lookup ((k, c) :: m) a = lookup m a := if_neg h.symm

/-- Nothing is listed below the first address listed. -/
theorem le_of_lookup_cons {m : Memory} {lo k a : Nat} {b c : Byte}
    (hm : wfFrom base lo ((k, c) :: m) = true) (ha : lookup ((k, c) :: m) a = some b) : k ≤ a := by
  by_contra hlt
  obtain ⟨⟨-, hk⟩, htail⟩ := wfFrom_cons_iff.1 hm
  have hfrom : wfFrom base k ((k, c) :: m) = true := wfFrom_cons_iff.2 ⟨⟨le_rfl, hk⟩, htail⟩
  cases (lookup_below hfrom (Nat.lt_of_not_le hlt)).symm.trans ha

/-- Canonical memories that list the same bytes are the same list: they begin with the same entry,
and neither rest lists anything at its address. -/
theorem eq_of_lookup_eq {m m' : Memory} {lo lo' : Nat} (hm : wfFrom base lo m = true)
    (hm' : wfFrom base lo' m' = true) (h : ∀ a, lookup m a = lookup m' a) : m = m' := by
  induction m generalizing m' lo lo' with
  | nil =>
    cases m' with
    | nil => rfl
    | cons e' m' => cases (h e'.1).trans (lookup_cons_same m' e'.1 e'.2)
  | cons e m ih =>
    obtain ⟨k, c⟩ := e
    have hk := (h k).symm.trans (lookup_cons_same m k c)
    cases m' with
    | nil => cases hk
    | cons e' m' =>
      obtain ⟨k', c'⟩ := e'
      have hk' := (h k').trans (lookup_cons_same m' k' c')
      obtain rfl : k = k' := Nat.le_antisymm (le_of_lookup_cons hm hk') (le_of_lookup_cons hm' hk)
      obtain rfl : c = c' := Option.some.inj ((lookup_cons_same m k c).symm.trans hk')
      obtain ⟨-, htail⟩ := wfFrom_cons_iff.1 hm
      obtain ⟨-, htail'⟩ := wfFrom_cons_iff.1 hm'
      refine congrArg _ (ih htail htail' fun a => ?_)
      by_cases ha : a = k
      · rw [ha, lookup_below htail (Nat.lt_succ_self k), lookup_below htail' (Nat.lt_succ_self k)]
      · rw [← lookup_cons_ne m c ha, h a, lookup_cons_ne m' c ha]

/-- In the canonical form the byte read tells whether one is listed: a listed byte is never what an
unlisted address reads as. -/
theorem lookup_eq_some_iff {m : Memory} {lo a : Nat} {b : Byte} (hm : wfFrom base lo m = true) :
    lookup m a = some b ↔ a < Config.memSize ∧ b ≠ base a ∧ read base m a = b := by
  cases hl : lookup m a with
  | none => simp [read, hl, eq_comm]
  | some c =>
    obtain ⟨hc, ha⟩ := lookup_ne_base hm hl
    rw [read, hl, Option.getD_some, Option.some_inj]
    exact ⟨fun hb => ⟨ha, hb ▸ hc, hb⟩, fun hb => hb.2.2⟩

/-- Settles O34: reads fix the bytes listed, and the bytes listed fix the list. -/
theorem canonicalMemoryIsUnique : Obligations.CanonicalMemoryIsUnique := by
  intro base m m' hm hm' hread
  refine eq_of_lookup_eq hm hm' fun a => Option.ext fun b => ?_
  rw [lookup_eq_some_iff hm, lookup_eq_some_iff hm']
  exact and_congr_right fun ha => by rw [hread a ha]

end Sys2Proof.Machine.Memory

/-! ### What no instruction writes (R37, R40, R55) -/

namespace Sys2Proof.Machine

/-- The fields only the host writes: the quirks, the variant, the keypad, the ROM image, and the font
parameters, which nothing writes. -/
def State.settings (s : State) : Quirks × Variant × Vector Bool 16 × List Byte × Fonts :=
  (s.quirks, s.variant, s.keys, s.rom, s.fonts)

theorem State.settings_eq_iff {s t : State} :
    t.settings = s.settings ↔ t.quirks = s.quirks ∧ t.variant = s.variant ∧ t.keys = s.keys
      ∧ t.rom = s.rom ∧ t.fonts = s.fonts := by
  simp [settings]

@[simp] theorem State.settings_advancePC (s : State) : s.advancePC.settings = s.settings := rfl

@[simp] theorem State.settings_incrementIfQuirk (s : State) (x : Nibble) :
    (s.incrementIfQuirk x).settings = s.settings := rfl

@[simp] theorem State.settings_writeBytes (s : State) (a : Nat) (bs : List Byte) :
    (s.writeBytes a bs).settings = s.settings := by
  simp [settings]

@[simp] theorem State.settings_loadRegisters (s : State) (count : Nat) (f : Nat → Byte) :
    (s.loadRegisters count f).settings = s.settings := by
  simp [settings]

/-- A meaning of the SUPER-CHIP extension keeps the settings if its effect does. -/
theorem underSuperchip_settings {s t : State} {i : Instr} {e : State}
    (hx : underSuperchip s i e = .next t) (he : e.settings = s.settings) :
    t.settings = s.settings := by
  rcases underSuperchip_cases hx with ⟨-, rfl⟩ | ⟨-, rfl⟩
  exacts [he, rfl]

/-- One case for each instruction: those that branch go by the cases of their meaning, where a fault
keeps the settings; the others by the fields they write. -/
theorem exec_settings {i : Instr} {s t : State} (hx : exec i s = .next t) :
    t.settings = s.settings := by
  cases i with
  | cls | jp | seVxKk | sneVxKk | seVxVy | ldVxKk | addVxKk | ldVxVy | orVxVy | andVxVy | xorVxVy
  | addVxVy | subVxVy | shrVxVy | subnVxVy | shlVxVy | sneVxVy | ldINnn | jpV0Nnn | rndVxKk
  | ldVxDT | ldVxK | ldDTVx | ldSTVx | addIVx => cases hx; rfl
  | scd | scr | scl | exit | low | high => exact underSuperchip_settings hx rfl
  | ret => rcases execRet_cases hx with ⟨-, rfl⟩ | ⟨-, rfl⟩ <;> rfl
  | call => rcases execCall_cases hx with ⟨-, rfl⟩ | ⟨-, rfl⟩ <;> rfl
  | drwVxVyN => rcases execDrwVxVyN_cases hx with ⟨-, rfl⟩ | ⟨-, -, rfl⟩ <;> rfl
  | drwVxVy0 =>
    rcases execDrwVxVy0_cases hx with ⟨-, -, rfl⟩ | ⟨-, -, rfl⟩ | ⟨-, rfl⟩ <;> rfl
  | skpVx => rcases execSkpVx_cases hx with ⟨-, rfl⟩ | ⟨-, rfl⟩ <;> rfl
  | sknpVx => rcases execSknpVx_cases hx with ⟨-, rfl⟩ | ⟨-, rfl⟩ <;> rfl
  | ldFVx => rcases execLdFVx_cases hx with ⟨-, rfl⟩ | ⟨-, rfl⟩ <;> rfl
  | ldHFVx => rcases execLdHFVx_cases hx with ⟨-, -, rfl⟩ | ⟨-, -, rfl⟩ | ⟨-, rfl⟩ <;> rfl
  | ldBVx =>
    rcases execLdBVx_cases hx with ⟨-, rfl⟩ | ⟨-, rfl⟩
    exacts [by simp, rfl]
  | ldMemVx =>
    rcases execLdMemVx_cases hx with ⟨-, rfl⟩ | ⟨-, rfl⟩
    exacts [by simp, rfl]
  | ldVxMem =>
    rcases execLdVxMem_cases hx with ⟨-, rfl⟩ | ⟨-, rfl⟩
    exacts [by simp, rfl]
  | ldRVx => rcases execLdRVx_cases hx with ⟨-, -, rfl⟩ | ⟨-, rfl⟩ <;> rfl
  | ldVxR =>
    rcases execLdVxR_cases hx with ⟨-, -, rfl⟩ | ⟨-, rfl⟩
    exacts [by simp, rfl]

/-- Settles O47: every instruction keeps the five fields together. -/
theorem noInstructionWritesSettings : Obligations.NoInstructionWritesSettings :=
  fun _ _ _ hx => State.settings_eq_iff.1 (exec_settings hx)

/-! ### The host's commands on the settings (R51, R53, R57) -/

/-- The names that stand for a quirk (R51; 90_conflicts.md C1). -/
def QuirkName.spellings : QuirkName → List String
  | .vfReset => ["vf_reset", "logic"]
  | .memoryIncrement => ["memory_increment"]
  | .displayWait => ["display_wait"]
  | .clipping => ["clipping"]
  | .shifting => ["shifting"]
  | .jumping => ["jumping"]

theorem QuirkName.ofString_eq_some_iff {name : String} {q : QuirkName} :
    ofString name = some q ↔ name ∈ q.spellings := by
  constructor
  · intro h
    unfold ofString at h
    split_ifs at h <;> cases h <;> simp [spellings, *]
  · cases q <;> simp +contextual [spellings, ofString, or_imp]

/-- Writing one quirk: that quirk holds the value, the others are unchanged (R51). -/
theorem Quirks.value_write (quirks : Quirks) (q f : QuirkName) (value : Bool) :
    (quirks.write q value).value f = if q = f then value else quirks.value f := by
  cases q <;> cases f <;> rfl

/-- The same by name: a quirk holds the value exactly when the name given is one of its own. -/
theorem Quirks.value_write_ofString {name : String} {q : QuirkName}
    (hq : QuirkName.ofString name = some q) (quirks : Quirks) (value : Bool) (f : QuirkName)
    {own : Prop} [Decidable own] (hown : name ∈ f.spellings ↔ own) :
    (quirks.write q value).value f = if own then value else quirks.value f := by
  rw [value_write]
  refine if_congr ?_ rfl rfl
  rw [← hown, ← QuirkName.ofString_eq_some_iff, hq, Option.some_inj]

theorem perform_setQuirk_known {name : String} {q : QuirkName}
    (hq : QuirkName.ofString name = some q) (value : Bool) (s : State) :
    perform (.setQuirk name value) s
      = .next ({ s with quirks := s.quirks.write q value }, .done) := by
  simp only [perform, State.setQuirk, hq]

theorem perform_setQuirk_unknown {name : String} (hq : QuirkName.ofString name = none)
    (value : Bool) (s : State) : perform (.setQuirk name value) s = .next (s, .refused) := by
  simp only [perform, State.setQuirk, hq]

/-- The names `set_quirk` knows are those that stand for a quirk. -/
theorem QuirkName.exists_ofString_iff {name : String} :
    (∃ q, ofString name = some q) ↔
      name ∈ ["vf_reset", "logic", "memory_increment", "display_wait", "clipping", "shifting",
        "jumping"] := by
  have hall : ∀ q, q ∈ [vfReset, memoryIncrement, displayWait, clipping, shifting, jumping] :=
    fun q => by cases q <;> decide
  refine Iff.trans ?_ (List.mem_flatMap (f := spellings)
    (l := [vfReset, memoryIncrement, displayWait, clipping, shifting, jumping])).symm
  simp only [ofString_eq_some_iff, hall, true_and]

/-- Settles O50: a known name stands for one quirk, whose field alone is written. -/
theorem setQuirkWritesOneField : Obligations.SetQuirkWritesOneField := by
  refine fun s name value => ⟨fun hname => ?_, fun hname => ?_⟩
  · obtain ⟨q, hq⟩ := QuirkName.exists_ofString_iff.2 hname
    have hwrite := @Quirks.value_write_ofString name q hq s.quirks value
    exact ⟨_, perform_setQuirk_known hq value s, rfl,
      hwrite .vfReset List.mem_pair, hwrite .memoryIncrement List.mem_singleton,
      hwrite .displayWait List.mem_singleton, hwrite .clipping List.mem_singleton,
      hwrite .shifting List.mem_singleton, hwrite .jumping List.mem_singleton⟩
  · exact perform_setQuirk_unknown
      (Option.eq_none_iff_forall_not_mem.2 fun q hq => hname (QuirkName.exists_ofString_iff.1 ⟨q, hq⟩))
      value s

/-- The table of R54, quirk by quirk. -/
theorem Quirks.defaults_eq (v : Variant) : Quirks.defaults v =
    { vfReset := v == .chip8, memoryIncrement := v == .chip8, displayWait := v == .chip8,
      clipping := true, shifting := v == .superchip, jumping := v == .superchip } := by
  cases v <;> rfl

theorem perform_selectVariant_fresh {s : State} (h : s.runStarted = false) (v : Variant) :
    perform (.selectVariant v) s
      = .next ({ s with variant := v, quirks := Quirks.defaults v }, .done) := by
  simp [perform, State.selectVariant, h]

theorem perform_selectVariant_started {s : State} (h : s.runStarted = true) (v : Variant) :
    perform (.selectVariant v) s = .next (s, .variantLocked) := by
  simp [perform, State.selectVariant, h]

/-- Settles O51: by whether the run has started, and the table of the quirk defaults. -/
theorem selectVariantAndLoadFlags : Obligations.SelectVariantAndLoadFlags := by
  refine fun s v bytes => ⟨fun h => ?_, fun h => perform_selectVariant_started h v,
    ⟨_, rfl, rfl, rfl⟩⟩
  rw [perform_selectVariant_fresh h, Quirks.defaults_eq]

/-! ### The invariant at construction and under a step -/

theorem defaultFonts_wf : defaultFonts.wf = true := rfl

/-- A reset right after construction changes nothing (R390). -/
theorem State.resetEngine_construct (fonts : Fonts) :
    (State.construct fonts).resetEngine = State.construct fonts := rfl

theorem State.construct_inv {fonts : Fonts} (h : fonts.wf = true) : (State.construct fonts).Inv :=
  State.resetEngine_construct fonts ▸ State.resetEngine_inv h (Nat.zero_le _)

/-- Settles O56: the default fonts are among those that fit. -/
theorem constructedEngineMeetsInv : Obligations.ConstructedEngineMeetsInv :=
  ⟨State.construct_inv defaultFonts_wf, fun _ => State.construct_inv⟩

/-- Settles O57, by the cases of a step: a hold, a fault at the fetch or the decoding, one
instruction. -/
theorem stepKeepsInv : Obligations.StepKeepsInv := fun _ _ => step_inv

end Sys2Proof.Machine
end

section
/-! SUPPORT. Self-modifying code (20_memory.md R92): what `Fx55` leaves in memory is what the next cycle
fetches and runs. -/

namespace Sys2Proof.Machine

/-- The state `Fx55` leaves when it is in bounds (R246). -/
def State.storeRegisters (s : State) (x : Nibble) : State :=
  (s.advancePC.writeBytes s.I.toNat (s.registersTo x)).incrementIfQuirk x

theorem exec_ldMemVx_inBounds {s : State} {x : Nibble} (h : s.I.toNat + x.toNat < Config.memSize) :
    exec (.ldMemVx x) s = .next (s.storeRegisters x) :=
  if_pos ((State.inBounds_iff s x.toNat).2 h)

namespace State

@[simp] theorem storeRegisters_PC (s : State) (x : Nibble) :
    (s.storeRegisters x).PC = s.PC + 2#16 := by
  simp [storeRegisters]

@[simp] theorem storeRegisters_variant (s : State) (x : Nibble) :
    (s.storeRegisters x).variant = s.variant := by
  simp [storeRegisters]

@[simp] theorem storeRegisters_hold (s : State) (x : Nibble) :
    (s.storeRegisters x).hold = s.hold := by
  simp [storeRegisters, hold]

/-- Each register stored reads back at its address. -/
theorem readByte_storeRegisters {s : State} (hs : s.MemWf) {x r : Nibble}
    (hx : s.I.toNat + x.toNat < Config.memSize) (hr : r.toNat ≤ x.toNat) :
    (s.storeRegisters x).readByte (s.I.toNat + r.toNat) = s.readV r := by
  have hlen := length_registersTo s x
  have hread := readByte_writeBytes_inside (s := s.advancePC) (bs := s.registersTo x) hs
    (by rw [hlen]; exact hx) (show r.toNat < _ by omega)
  rw [storeRegisters, incrementIfQuirk_readByte, hread, getElem_registersTo]

/-- The word at I after a store of at least V0 and V1 is made of these two (R83). -/
theorem fetchWord_storeRegisters {s : State} (hs : s.MemWf) {x : Nibble} (h1 : 1 ≤ x.toNat)
    (hx : s.I.toNat + x.toNat < Config.memSize) :
    (s.storeRegisters x).fetchWord s.I.toNat = wordOfBytes (s.readV 0x0#4) (s.readV 0x1#4) :=
  congrArg₂ wordOfBytes (readByte_storeRegisters hs (r := 0x0#4) hx (Nat.zero_le _))
    (readByte_storeRegisters hs (r := 0x1#4) hx h1)

end State

/-- A step that can fetch a word that decodes runs that instruction (R130, R134, R136). -/
theorem step_of_decode {s : State} {i : Instr} (hhold : s.hold = none) (hfetch : s.fetchFault = none)
    (hi : decode s.variant (s.fetchWord s.PC.toNat) = .instr i) : step s = exec i s.startCycle := by
  have hfetch' : s.startCycle.fetchFault = none := hfetch
  have hi' : decode s.startCycle.variant (s.startCycle.fetchWord s.startCycle.PC.toNat) = .instr i :=
    hi
  rw [step_of_no_hold hhold, fetchAndExecute, hfetch']
  simp only [hi']

/-- Settles O32: the store leaves `PC` at the word it wrote, in bounds and with no hold in the way. -/
theorem storedWordIsExecuted : Obligations.StoredWordIsExecuted := by
  intro s x i hs h1 hI hx heven hhalt hwait hvblank hdec
  have hPC : (s.storeRegisters x).PC = s.I := (State.storeRegisters_PC s x).trans hI.symm
  refine ⟨_, exec_ldMemVx_inBounds hx, step_of_decode ?hold ?fetch ?decode⟩
  case hold => rw [State.storeRegisters_hold]; exact hold_eq_none.2 ⟨hhalt, hwait, hvblank⟩
  case fetch =>
    rw [fetchFault_eq_none, hPC]
    exact ⟨heven, by omega⟩
  case decode =>
    rw [State.storeRegisters_variant, hPC, State.fetchWord_storeRegisters hs h1 hx]
    exact hdec

end Sys2Proof.Machine
end

section
/-! SUPPORT. The decoder against the encoder and the opcode map (30_encoding.md R103 to R113). What a
word decodes to is said once (`decode_faithful`); each instruction's word is decoded by the fields it
lays out (`decode_encode`). -/

namespace Sys2Proof

/-! ### A word from its own fields -/

section Fields

variable {w : Word16} {op x y n : Nibble} {kk : Byte}

theorem wordNnn_of_fields (hop : fieldOp w = op) : wordNnn op (fieldNnn w) = w :=
  hop ▸ wordNnn_fields w

theorem wordXKk_of_fields (hop : fieldOp w = op) (hx : fieldX w = x) (hkk : fieldKk w = kk) :
    wordXKk op x kk = w :=
  hop ▸ hx ▸ hkk ▸ wordXKk_fields w

theorem wordXYN_of_fields (hop : fieldOp w = op) (hx : fieldX w = x) (hy : fieldY w = y)
    (hn : fieldN w = n) : wordXYN op x y n = w :=
  hop ▸ hx ▸ hy ▸ hn ▸ wordXYN_fields w

end Fields

/-! ### Decoding, then encoding -/

/-- An instruction decoded from a word exists for the variant and is encoded as that word; an illegal
word is reported as it stands. -/
def Decoded.Faithful (v : Variant) (w : Word16) : Decoded → Prop
  | .instr i => i.wellFormed v = true ∧ encode i = w
  | .illegal w' => w' = w

section Families

variable {v : Variant} {w : Word16} {i : Instr}

theorem superRow_faithful (hwf : i.wellFormed .superchip = true) (henc : encode i = w) :
    (superRow v w i).Faithful v w := by
  cases v with
  | chip8 => rfl
  | superchip => exact ⟨hwf, henc⟩

theorem flagRow_faithful (hwf : (fieldX w).toNat ≤ 7 → i.wellFormed .superchip = true)
    (henc : encode i = w) : (flagRow v w i).Faithful v w := by
  unfold flagRow
  split
  · next hx => exact superRow_faithful (hwf hx) henc
  · rfl

/-- `5xy0` and `9xy0`: the instruction where `n = 0`. -/
theorem zeroRow_faithful (hwf : i.wellFormed v = true) (henc : fieldN w = 0#4 → encode i = w) :
    (if fieldN w = 0#4 then Decoded.instr i else .illegal w).Faithful v w := by
  split
  · next hn => exact ⟨hwf, henc hn⟩
  · rfl

theorem decodeFamily0_faithful (hop : fieldOp w = 0x0#4) : (decodeFamily0 v w).Faithful v w := by
  unfold decodeFamily0
  split
  · next hx =>
    split
    · next hy => exact superRow_faithful rfl (wordXYN_of_fields hop hx hy rfl)
    · split
      case h_1 hkk => exact ⟨rfl, wordXKk_of_fields hop hx hkk⟩
      case h_2 hkk => exact ⟨rfl, wordXKk_of_fields hop hx hkk⟩
      case h_8 => rfl
      all_goals next hkk => exact superRow_faithful rfl (wordXKk_of_fields hop hx hkk)
  · rfl

theorem decodeFamily8_faithful (hop : fieldOp w = 0x8#4) : (decodeFamily8 w).Faithful v w := by
  unfold decodeFamily8
  split
  case h_10 => rfl
  all_goals next hn => exact ⟨rfl, wordXYN_of_fields hop rfl rfl hn⟩

theorem decodeFamilyD_faithful (hop : fieldOp w = 0xD#4) : (decodeFamilyD v w).Faithful v w := by
  unfold decodeFamilyD
  split
  · next h =>
    obtain ⟨rfl, hn⟩ := h
    exact ⟨rfl, wordXYN_of_fields hop rfl rfl hn⟩
  · next h =>
    refine ⟨?_, wordXYN_of_fields hop rfl rfl rfl⟩
    cases v with
    | chip8 => rfl
    | superchip => exact bne_iff_ne.2 fun hn => h ⟨rfl, hn⟩

theorem decodeFamilyE_faithful (hop : fieldOp w = 0xE#4) : (decodeFamilyE w).Faithful v w := by
  unfold decodeFamilyE
  split
  case h_3 => rfl
  all_goals next hkk => exact ⟨rfl, wordXKk_of_fields hop rfl hkk⟩

theorem ldRVx_wellFormed {x : Nibble} (hx : x.toNat ≤ 7) :
    (Instr.ldRVx x).wellFormed .superchip = true := by
  simp [Instr.wellFormed, Instr.variantOk, Instr.flagSlotsOk, Instr.spriteRowsOk, hx]

theorem ldVxR_wellFormed {x : Nibble} (hx : x.toNat ≤ 7) :
    (Instr.ldVxR x).wellFormed .superchip = true := ldRVx_wellFormed hx

theorem decodeFamilyF_faithful (hop : fieldOp w = 0xF#4) : (decodeFamilyF v w).Faithful v w := by
  unfold decodeFamilyF
  split
  case h_7 hkk => exact superRow_faithful rfl (wordXKk_of_fields hop rfl hkk)
  case h_11 hkk => exact flagRow_faithful ldRVx_wellFormed (wordXKk_of_fields hop rfl hkk)
  case h_12 hkk => exact flagRow_faithful ldVxR_wellFormed (wordXKk_of_fields hop rfl hkk)
  case h_13 => rfl
  all_goals next hkk => exact ⟨rfl, wordXKk_of_fields hop rfl hkk⟩

theorem decode_faithful (v : Variant) (w : Word16) : (decode v w).Faithful v w := by
  unfold decode
  split
  case h_1 hop => exact decodeFamily0_faithful hop
  case h_6 hop => exact zeroRow_faithful rfl (wordXYN_of_fields hop rfl rfl)
  case h_9 hop => exact decodeFamily8_faithful hop
  case h_10 hop => exact zeroRow_faithful rfl (wordXYN_of_fields hop rfl rfl)
  case h_14 hop => exact decodeFamilyD_faithful hop
  case h_15 hop => exact decodeFamilyE_faithful hop
  case h_16 hop => exact decodeFamilyF_faithful hop
  case h_17 => rfl
  case h_2 hop | h_3 hop | h_11 hop | h_12 hop => exact ⟨rfl, wordNnn_of_fields hop⟩
  all_goals next hop => exact ⟨rfl, wordXKk_of_fields hop rfl rfl⟩

end Families

theorem wellFormed_encode_of_decode {v : Variant} {w : Word16} {i : Instr}
    (h : decode v w = .instr i) : i.wellFormed v = true ∧ encode i = w := by
  have hf := decode_faithful v w
  rwa [h] at hf

/-- Settles O2, by what each arm of the decoder answers (`decode_faithful`). -/
theorem decodeThenEncode : Obligations.DecodeThenEncode := fun _ _ _ => wellFormed_encode_of_decode

/-! ### Encoding, then decoding -/

theorem variantOk_iff {v : Variant} {i : Instr} :
    i.variantOk v = true ↔ (i.superOnly = true → v = .superchip) := by
  simp [Instr.variantOk, imp_iff_not_or]

theorem wellFormed_iff {v : Variant} {i : Instr} :
    i.wellFormed v = true ↔
      (i.superOnly = true → v = .superchip) ∧ i.flagSlotsOk = true ∧ i.spriteRowsOk v = true := by
  rw [← variantOk_iff, Instr.wellFormed, Bool.and_eq_true, Bool.and_eq_true, and_assoc]

/-- By the instruction's family: the fields of its word select its arm of the decoder, where
well-formedness admits it. -/
theorem decode_encode {v : Variant} {i : Instr} (h : i.wellFormed v = true) :
    decode v (encode i) = .instr i := by
  obtain ⟨hsuper, hslots, hrows⟩ := wellFormed_iff.1 h
  cases i with
  | cls | ret => rfl
  | scr | scl | exit | low | high => obtain rfl := hsuper rfl; rfl
  | scd => obtain rfl := hsuper rfl; simp [encode, decode, decodeFamily0, superRow]
  | jp | call | seVxKk | sneVxKk | seVxVy | ldVxKk | addVxKk | sneVxVy | ldINnn | jpV0Nnn
  | rndVxKk => simp [encode, decode]
  | ldVxVy | orVxVy | andVxVy | xorVxVy | addVxVy | subVxVy | shrVxVy | subnVxVy | shlVxVy =>
    simp [encode, decode, decodeFamily8]
  | drwVxVy0 => obtain rfl := hsuper rfl; simp [encode, decode, decodeFamilyD]
  | drwVxVyN x y n =>
    have hn : ¬(v = .superchip ∧ n = 0#4) := by rintro ⟨rfl, rfl⟩; cases hrows
    simp only [encode, decode, decodeFamilyD, fieldOp_wordXYN, fieldX_wordXYN, fieldY_wordXYN,
      fieldN_wordXYN, if_neg hn]
  | skpVx | sknpVx => simp [encode, decode, decodeFamilyE]
  | ldVxDT | ldVxK | ldDTVx | ldSTVx | addIVx | ldFVx | ldBVx | ldMemVx | ldVxMem =>
    simp [encode, decode, decodeFamilyF]
  | ldHFVx => obtain rfl := hsuper rfl; simp [encode, decode, decodeFamilyF, superRow]
  | ldRVx x | ldVxR x =>
    obtain rfl := hsuper rfl
    have hx : x.toNat ≤ 7 := of_decide_eq_true hslots
    simp [encode, decode, decodeFamilyF, flagRow, superRow, hx]

/-- Settles O1, by the instruction's family (`decode_encode`). -/
theorem encodeThenDecode : Obligations.EncodeThenDecode := fun _ _ => decode_encode

/-! ### The opcode map -/

/-- Every instruction has a row that its word matches: the lemmas of `RowMatch` together. -/
theorem encode_matches_row (i : Instr) : Laws.RowMatch.Statement i := by
  open Laws.RowMatch in
  cases i
  exacts [scd _, cls, ret, scr, scl, exit, low, high, jp _, call _, seVxKk _ _, sneVxKk _ _,
    seVxVy _ _, ldVxKk _ _, addVxKk _ _, ldVxVy _ _, orVxVy _ _, andVxVy _ _, xorVxVy _ _,
    addVxVy _ _, subVxVy _ _, shrVxVy _ _, subnVxVy _ _, shlVxVy _ _, sneVxVy _ _, ldINnn _,
    jpV0Nnn _, rndVxKk _ _, drwVxVyN _ _ _, drwVxVy0 _ _, skpVx _, sknpVx _, ldVxDT _, ldVxK _,
    ldDTVx _, ldSTVx _, addIVx _, ldFVx _, ldHFVx _, ldBVx _, ldMemVx _, ldVxMem _, ldRVx _,
    ldVxR _]

/-- A decoded word is the instruction's own, so it matches the instruction's row. -/
theorem row_of_decode {v : Variant} {w : Word16} {i : Instr} (h : decode v w = .instr i) :
    ∃ r ∈ opcodeMap, r.mnemonic = i.mnemonic ∧ r.existsIn v = true ∧ r.matchesWord w = true := by
  obtain ⟨hwf, rfl⟩ := wellFormed_encode_of_decode h
  obtain ⟨hsuper, -⟩ := wellFormed_iff.1 hwf
  obtain ⟨r, hr, hname, hmark, hmatch⟩ := encode_matches_row i
  have hexists : r.existsIn v = i.variantOk v := by rw [OpcodeRow.existsIn, hmark]; rfl
  exact ⟨r, hr, hname, hexists.trans (variantOk_iff.2 hsuper), hmatch⟩

theorem decode_of_no_row {v : Variant} {w : Word16}
    (h : ∀ r ∈ opcodeMap, r.existsIn v = true → r.matchesWord w = false) :
    decode v w = .illegal w := by
  cases hd : decode v w with
  | instr i =>
    obtain ⟨r, hr, -, hexists, hmatch⟩ := row_of_decode hd
    cases (h r hr hexists).symm.trans hmatch
  | illegal w' =>
    have hw : (Decoded.illegal w').Faithful v w := hd ▸ decode_faithful v w
    exact congrArg Decoded.illegal hw

/-- A ninth flag slot (R112 (f)). -/
theorem decode_flagRow_illegal (v : Variant) {x : Nibble} (hx : 7 < x.toNat) :
    decode v (wordXKk 0xF#4 x 0x75#8) = .illegal (wordXKk 0xF#4 x 0x75#8)
      ∧ decode v (wordXKk 0xF#4 x 0x85#8) = .illegal (wordXKk 0xF#4 x 0x85#8) := by
  have hx' : ¬x.toNat ≤ 7 := Nat.not_le.2 hx
  simp [decode, decodeFamilyF, flagRow, hx']

/-- Settles O3: the row is that of the instruction decoded, whose word was read. -/
theorem decodeFollowsOpcodeMap : Obligations.DecodeFollowsOpcodeMap :=
  ⟨fun _ _ _ => row_of_decode, fun _ _ => decode_of_no_row, fun v _ => decode_flagRow_illegal v⟩

/-- Two rows one word matches agree on the bits both masks take. -/
theorem OpcodeRow.pattern_and_mask {r r' : OpcodeRow} {w : Word16} (h : r.matchesWord w = true)
    (h' : r'.matchesWord w = true) : r.pattern &&& r'.mask = r'.pattern &&& r.mask := by
  have hr : w &&& r.mask = r.pattern := eq_of_beq h
  have hr' : w &&& r'.mask = r'.pattern := eq_of_beq h'
  rw [← hr, ← hr', BitVec.and_assoc, BitVec.and_assoc, BitVec.and_comm r.mask]

/-- In the map, only the two rows of `Dxyn` and `Dxy0` agree so. -/
theorem opcodeMap_rows_disjoint : ∀ r ∈ opcodeMap, ∀ r' ∈ opcodeMap,
    r.pattern &&& r'.mask = r'.pattern &&& r.mask →
      r = r' ∨ (r.pattern = 0xD000#16 ∧ r'.pattern = 0xD000#16) := by
  decide +kernel

/-- Settles O4: the rows by their masks, and `Dxy0` as the word of an instruction of each variant. -/
theorem rowsOverlapOnlyAtDxy0 : Obligations.RowsOverlapOnlyAtDxy0 :=
  ⟨fun r hr r' hr' _ h h' => opcodeMap_rows_disjoint r hr r' hr' (OpcodeRow.pattern_and_mask h h'),
    fun x y => ⟨decode_encode (i := .drwVxVy0 x y) rfl,
      decode_encode (i := .drwVxVyN x y 0x0#4) rfl⟩,
    rfl, rfl⟩

/-- Settles O5, by running the decoder on each word. -/
theorem spelledWordsDecode : Obligations.SpelledWordsDecode := by
  unfold Obligations.SpelledWordsDecode
  decide

end Sys2Proof
end

section
/-! SUPPORT. The instruction cycle (40_cycle.md): what a held cycle, a cycle that cannot fetch or decode
and a cycle that executes do; how an instruction ends (it completes or it faults); and a frame as its
cycles and a tick. -/

namespace Sys2Proof.Machine

/-! ### Held cycles (R132) -/

theorem hold_of_halted {s : State} (h : s.halted = true) : s.hold = some .halted := if_pos h

/-- A halted engine signals that it is halted, and no fault (R132 (a), R141). -/
theorem step_of_halted {s : State} (h : s.halted = true) :
    step s = .next { s.startCycle with signal := { Signal.quiet with halted := true } } := by
  simp only [step, executeOneCycle, hold_of_halted h]

/-- A key wait or a display hold leaves the cycle as it starts (R132 (b), (c)). -/
theorem step_of_waiting {s : State} (h : s.halted = false)
    (hw : s.waitKey ≠ .notWaiting ∨ s.vblankHold = true) : step s = .next s.startCycle := by
  have hhold : s.hold = some .keyWait ∨ s.hold = some .display := by
    by_cases hk : s.waitKey = .notWaiting
    · have hv : s.vblankHold = true := hw.resolve_left (not_not_intro hk)
      exact .inr (by simp [State.hold, h, hk, hv])
    · exact .inl (by simp [State.hold, h, hk])
  rcases hhold with hhold | hhold <;> simp only [step, executeOneCycle, hhold]

/-- Settles O8: the halted engine's cycle, and that of the two holds that wait for the host. -/
theorem heldCycleChangesNothing : Obligations.HeldCycleChangesNothing :=
  fun _ => ⟨step_of_halted, fun h hw => step_of_waiting h (.inl hw),
    fun h _ hv => step_of_waiting h (.inr hv)⟩

/-- Once a step leads to a state that every step leads back to, the run is there after any number of
steps. -/
theorem core_run_of_fixed {s t : State} (hs : step s = .next t) (ht : step t = .next t) (n : Nat) :
    Host.Core.run Sys2Proof.core (n + 1) s = .next t := by
  induction n generalizing s with
  | zero => rw [core_run_succ 0 hs, core_run_zero]
  | succ n ih => rw [core_run_succ (n + 1) hs, ih ht]

/-- Settles O9: what a held cycle leaves is held as before, and a further cycle changes nothing of
it. -/
theorem holdsLastForever : Obligations.HoldsLastForever := by
  refine fun n s => ⟨fun h => ?_, fun h hw => ?_⟩
  · have hs := step_of_halted h
    exact core_run_of_fixed hs (step_of_halted h) n
  · have hs := step_of_waiting h hw
    exact core_run_of_fixed hs (step_of_waiting h hw) n

/-! ### Cycles that fetch (R134, R136) -/

/-- The two conditions of R134 fail in the order of R355: alignment first. -/
theorem fetchFault_of_odd {s : State} (h : s.PC.toNat % 2 = 1) : s.fetchFault = some .pcMisaligned :=
  if_pos (by omega)

theorem fetchFault_of_past_memory {s : State} (heven : s.PC.toNat % 2 = 0)
    (h : s.PC.toNat + 1 ≥ Config.memSize) : s.fetchFault = some .pcBounds :=
  (if_neg (not_not_intro heven)).trans (if_pos h)

theorem step_of_fetchFault {s : State} {info : FaultInfo} (hhold : s.hold = none)
    (hfetch : s.fetchFault = some info) :
    step s = .next (haltedBy s .outOfBoundsAccess info) := by
  have hfetch' : s.startCycle.fetchFault = some info := hfetch
  rw [step_of_no_hold hhold, fetchAndExecute, hfetch']
  rfl

theorem step_of_illegal {s : State} {w : Word16} (hhold : s.hold = none)
    (hfetch : s.fetchFault = none)
    (hw : decode s.variant (s.fetchWord s.PC.toNat) = .illegal w) :
    step s = .next (haltedBy s .illegalInstruction (.word w)) := by
  have hfetch' : s.startCycle.fetchFault = none := hfetch
  have hw' : decode s.startCycle.variant (s.startCycle.fetchWord s.startCycle.PC.toNat)
      = .illegal w := hw
  rw [step_of_no_hold hhold, fetchAndExecute, hfetch']
  simp only [hw']
  rfl

/-- Settles O6: `fetchWord` is the word of the two bytes at `PC` (`step_of_decode`). -/
theorem stepRunsDecodedInstruction : Obligations.StepRunsDecodedInstruction :=
  fun _ _ hhalt hwait hvblank heven hbound hi =>
    step_of_decode (hold_eq_none.2 ⟨hhalt, hwait, hvblank⟩) (fetchFault_eq_none.2 ⟨heven, hbound⟩) hi

/-- Settles O7: the fault of the fetch by the check that fails, else that of the decoding. -/
theorem fetchAndDecodeFaults : Obligations.FetchAndDecodeFaults := by
  intro s hhalt hwait hvblank
  have hhold : s.hold = none := hold_eq_none.2 ⟨hhalt, hwait, hvblank⟩
  exact ⟨fun hodd => step_of_fetchFault hhold (fetchFault_of_odd hodd),
    fun heven hpast => step_of_fetchFault hhold (fetchFault_of_past_memory heven hpast),
    fun _ heven hbound hw => step_of_illegal hhold (fetchFault_eq_none.2 ⟨heven, hbound⟩) hw⟩

/-! ### Registers after an operation (R31) -/

namespace State

theorem readV_resetFlagIfQuirk_ne (s : State) {r : Nibble} (h : r ≠ 0xF#4) :
    s.resetFlagIfQuirk.readV r = s.readV r := by
  cases hq : s.quirks.vfReset with
  | false => rw [resetFlagIfQuirk_off hq]
  | true => rw [readV_resetFlagIfQuirk_on hq, if_neg h]

/-- The logic operations write their destination and, by the quirk, VF (R163 to R165). -/
theorem readV_logic_other (s : State) {x r : Nibble} (b : Byte) (h : r ≠ x) (h' : r ≠ 0xF#4) :
    (s.writeV x b).resetFlagIfQuirk.readV r = s.readV r := by
  rw [readV_resetFlagIfQuirk_ne _ h', readV_writeV_ne _ _ h]

/-- A draw writes VF and no other register (R283). -/
theorem readV_completeDraw_ne (s : State) {n : Nat} (x y : Nibble) (rows : List (BitVec n))
    {r : Nibble} (h : r ≠ 0xF#4) : (s.completeDraw x y rows).readV r = s.readV r :=
  readV_writeV_ne s.advancePC _ h

end State

/-- The registers V0..Vx by their numbers. -/
theorem mem_registersUpTo {x r : Nibble} : r ∈ registersUpTo x ↔ r.toNat ≤ x.toNat := by
  simp only [registersUpTo, List.mem_map, List.mem_range, Nat.lt_succ_iff]
  constructor
  · rintro ⟨j, hj, rfl⟩
    exact (BitVec.toNat_ofNat j 4 ▸ Nat.mod_le j _).trans hj
  · exact fun h => ⟨r.toNat, h, by simp⟩

/-- A block load of V0..Vx leaves the registers above Vx (R247, R252). -/
theorem State.readV_loadRegisters_other (s : State) {x r : Nibble} (f : Nat → Byte)
    (h : r ∉ registersUpTo x) : (s.loadRegisters (x.toNat + 1) f).readV r = s.readV r := by
  rw [readV_loadRegisters, if_neg fun hr => h (mem_registersUpTo.2 (Nat.le_of_lt_succ hr))]

/-! ### How an instruction ends (R138, R140) -/

/-- How the instruction may end in `t` from `s`: it completes, with no fault of its own signalled and
every general register kept but its destinations; or it faults, and `t` is the fault's entry. -/
inductive Ends (i : Instr) (s : State) : State → Prop where
  | completes {t : State} (fault_eq : t.signal.fault = s.signal.fault)
      (readV_eq : ∀ r, r ∉ destRegisters i → t.readV r = s.readV r) : Ends i s t
  | faults (kind : FaultKind) (info : FaultInfo) : Ends i s (haltedBy s kind info)

/-- A meaning of the SUPER-CHIP extension ends as its effect does, or in the fault of CHIP8. -/
theorem underSuperchip_ends {s t : State} {i : Instr} {e : State}
    (hx : underSuperchip s i e = .next t) (he : Ends i s e) : Ends i s t := by
  rcases underSuperchip_cases hx with ⟨-, rfl⟩ | ⟨-, rfl⟩
  exacts [he, .faults _ _]

/-- One case for each instruction: those that branch go by the cases of their meaning, the others by
the registers they write. -/
theorem exec_ends {i : Instr} {s t : State} (hx : exec i s = .next t) : Ends i s t := by
  cases i with
  | cls | jp | seVxKk | sneVxKk | seVxVy | sneVxVy | ldINnn | jpV0Nnn | ldVxK | ldDTVx | ldSTVx
  | addIVx => cases hx; exact .completes rfl fun _ _ => rfl
  | ldVxKk | addVxKk | ldVxVy | rndVxKk | ldVxDT =>
    cases hx
    exact .completes rfl fun _ hr =>
      State.readV_writeV_ne s.advancePC _ (List.ne_of_not_mem_cons hr)
  | orVxVy | andVxVy | xorVxVy =>
    cases hx
    refine .completes rfl fun _ hr => ?_
    obtain ⟨hdest, hflag⟩ := not_or.1 (mt List.mem_pair.2 hr)
    exact State.readV_logic_other s.advancePC _ hdest hflag
  | addVxVy | subVxVy | shrVxVy | subnVxVy | shlVxVy =>
    cases hx
    refine .completes rfl fun _ hr => ?_
    obtain ⟨hdest, hflag⟩ := not_or.1 (mt List.mem_pair.2 hr)
    exact State.readV_writeResultAndFlag_other s.advancePC _ _ hdest hflag
  | scd | scr | scl | exit | low | high =>
    exact underSuperchip_ends hx (.completes rfl fun _ _ => rfl)
  | ret =>
    rcases execRet_cases hx with ⟨-, rfl⟩ | ⟨-, rfl⟩
    exacts [.completes rfl fun _ _ => rfl, .faults _ _]
  | call =>
    rcases execCall_cases hx with ⟨-, rfl⟩ | ⟨-, rfl⟩
    exacts [.completes rfl fun _ _ => rfl, .faults _ _]
  | drwVxVyN =>
    rcases execDrwVxVyN_cases hx with ⟨-, rfl⟩ | ⟨-, -, rfl⟩
    exacts [.completes rfl fun _ hr => s.readV_completeDraw_ne _ _ _ (List.ne_of_not_mem_cons hr),
      .faults _ _]
  | drwVxVy0 =>
    rcases execDrwVxVy0_cases hx with ⟨-, -, rfl⟩ | ⟨-, -, rfl⟩ | ⟨-, rfl⟩
    exacts [.completes rfl fun _ hr => s.readV_completeDraw_ne _ _ _ (List.ne_of_not_mem_cons hr),
      .faults _ _,
      .completes rfl fun _ hr => s.readV_completeDraw_ne _ _ _ (List.ne_of_not_mem_cons hr)]
  | skpVx =>
    rcases execSkpVx_cases hx with ⟨-, rfl⟩ | ⟨-, rfl⟩
    exacts [.completes rfl fun _ _ => rfl, .faults _ _]
  | sknpVx =>
    rcases execSknpVx_cases hx with ⟨-, rfl⟩ | ⟨-, rfl⟩
    exacts [.completes rfl fun _ _ => rfl, .faults _ _]
  | ldFVx =>
    rcases execLdFVx_cases hx with ⟨-, rfl⟩ | ⟨-, rfl⟩
    exacts [.completes rfl fun _ _ => rfl, .faults _ _]
  | ldHFVx =>
    rcases execLdHFVx_cases hx with ⟨-, -, rfl⟩ | ⟨-, -, rfl⟩ | ⟨-, rfl⟩
    exacts [.completes rfl fun _ _ => rfl, .faults _ _, .faults _ _]
  | ldBVx =>
    rcases execLdBVx_cases hx with ⟨-, rfl⟩ | ⟨-, rfl⟩
    exacts [.completes (by simp) (by simp), .faults _ _]
  | ldMemVx =>
    rcases execLdMemVx_cases hx with ⟨-, rfl⟩ | ⟨-, rfl⟩
    exacts [.completes (by simp) (by simp), .faults _ _]
  | ldVxMem =>
    rcases execLdVxMem_cases hx with ⟨-, rfl⟩ | ⟨-, rfl⟩
    · refine .completes (by simp) fun r hr => ?_
      rw [State.incrementIfQuirk_readV]
      exact s.advancePC.readV_loadRegisters_other _ hr
    · exact .faults _ _
  | ldRVx =>
    rcases execLdRVx_cases hx with ⟨-, -, rfl⟩ | ⟨-, rfl⟩
    exacts [.completes rfl fun _ _ => rfl, .faults _ _]
  | ldVxR =>
    rcases execLdVxR_cases hx with ⟨-, -, rfl⟩ | ⟨-, rfl⟩
    exacts [.completes (by simp) fun _ hr => s.advancePC.readV_loadRegisters_other _ hr,
      .faults _ _]

/-- Settles O49: an instruction that completes keeps the others, a fault keeps all. -/
theorem registersOutsideDestinationsKept : Obligations.RegistersOutsideDestinationsKept := by
  intro i s t r hx hr
  cases exec_ends hx with
  | completes _ hkept => exact hkept r hr
  | faults kind info => rfl

/-- Settles O11: a cycle starts with no fault signalled, so one that signals a fault entered it at the
fetch, at the decoding or in its instruction. -/
theorem faultCommitsNothing : Obligations.FaultCommitsNothing := by
  intro s t k hx hk
  rcases step_cases hx with ⟨-, rfl⟩ | ⟨-, -, rfl⟩ | ⟨-, info, rfl⟩ | ⟨-, w, rfl⟩ | ⟨-, i, -, hi⟩
  · cases hk
  · cases hk
  · cases hk; exact ⟨info, rfl⟩
  · cases hk; exact ⟨.word w, rfl⟩
  · cases exec_ends hi with
    | completes hfault _ => cases hfault.symm.trans hk
    | faults kind info => cases hk; exact ⟨info, rfl⟩

/-- A cycle that signals a fault leaves the engine halted (R140). -/
theorem halted_of_step_fault {s t : State} (hx : step s = .next t) (hf : t.signal.fault ≠ none) :
    t.halted = true := by
  obtain ⟨k, hk⟩ := Option.ne_none_iff_exists'.1 hf
  obtain ⟨info, rfl⟩ := faultCommitsNothing s t k hx hk
  rfl

/-! ### Every cycle answers a next state -/

theorem ite_next (c : Prop) [Decidable c] (a b : State) :
    ∃ t, (if c then .next a else .next b : Outcome) = .next t := by
  split <;> exact ⟨_, rfl⟩

theorem underSuperchip_next (s : State) (i : Instr) (e : State) :
    ∃ t, underSuperchip s i e = .next t := by
  unfold underSuperchip
  split <;> exact ⟨_, rfl⟩

/-- No instruction is refused: each meaning answers one state, or one of two by its bounds check or its
variant. -/
theorem exec_next (i : Instr) (s : State) : ∃ t, exec i s = .next t := by
  cases i with
  | cls | jp | seVxKk | sneVxKk | seVxVy | ldVxKk | addVxKk | ldVxVy | orVxVy | andVxVy | xorVxVy
  | addVxVy | subVxVy | shrVxVy | subnVxVy | shlVxVy | sneVxVy | ldINnn | jpV0Nnn | rndVxKk
  | ldVxDT | ldVxK | ldDTVx | ldSTVx | addIVx => exact ⟨_, rfl⟩
  | scd | scr | scl | exit | low | high | ldHFVx | ldRVx | ldVxR =>
    exact underSuperchip_next _ _ _
  | drwVxVyN | skpVx | sknpVx | ldFVx | ldBVx | ldMemVx | ldVxMem => exact ite_next _ _ _
  | ret => rw [exec, execRet]; split <;> exact ⟨_, rfl⟩
  | call => rw [exec, execCall]; split <;> exact ⟨_, rfl⟩
  | drwVxVy0 =>
    rw [exec, execDrwVxVy0]
    split
    · exact ite_next _ _ _
    · exact ⟨_, rfl⟩

theorem fetchAndExecute_next (s : State) : ∃ t, fetchAndExecute s = .next t := by
  unfold fetchAndExecute
  split
  · exact ⟨_, rfl⟩
  · split
    · exact ⟨_, rfl⟩
    · exact exec_next _ _

theorem step_next (s : State) : ∃ t, step s = .next t := by
  unfold step executeOneCycle
  split
  case h_4 => exact fetchAndExecute_next _
  all_goals exact ⟨_, rfl⟩

/-! ### A frame (R145) -/

/-- The signals of a frame after one more cycle, as `frameCycles` accumulates them. -/
def Signal.accumulate (acc sig : Signal) : Signal :=
  { acc with
    redraw := acc.redraw || sig.redraw
    fault := if acc.fault = none then sig.fault else acc.fault }

theorem frameCycles_succ {s t : State} (h : step s = .next t) (n : Nat) (acc : Signal) :
    frameCycles (n + 1) acc s = frameCycles n (acc.accumulate t.signal) t := by
  have h' : executeOneCycle s = .next t := h
  rw [frameCycles, h', Signal.accumulate]

/-- One of the next `n` cycles from `s` returns signals with the property. -/
def SignalledWithin (n : Nat) (s : State) (p : Signal → Prop) : Prop :=
  ∃ j v, j < n ∧ performAll (List.replicate (j + 1) .executeOneCycle) s = .next v ∧ p v.signal

theorem not_signalledWithin_zero (s : State) (p : Signal → Prop) : ¬SignalledWithin 0 s p :=
  fun ⟨_, _, hj, _⟩ => Nat.not_lt_zero _ hj

/-- It is the first cycle or one of the later ones. -/
theorem signalledWithin_succ {s t : State} (h : step s = .next t) {n : Nat} {p : Signal → Prop} :
    SignalledWithin (n + 1) s p ↔ p t.signal ∨ SignalledWithin n t p := by
  have hfirst (cs : List Command) := performAll_cycle h cs
  constructor
  · rintro ⟨j, v, hj, hv, hp⟩
    rw [List.replicate_succ, hfirst] at hv
    cases j with
    | zero => cases hv; exact .inl hp
    | succ j => exact .inr ⟨j, v, Nat.lt_of_succ_lt_succ hj, hv, hp⟩
  · rintro (hp | ⟨j, v, hj, hv, hp⟩)
    · exact ⟨0, t, Nat.succ_pos n, hfirst [], hp⟩
    · exact ⟨j + 1, v, Nat.succ_lt_succ hj, (hfirst _).trans hv, hp⟩

/-- What the accumulated signals say of faults holds as long as a fault halts the engine: the cycles
after the first fault signal none, so it is the only one. -/
theorem accumulate_fault_eq_some_iff {s t : State} (h : step s = .next t) {acc : Signal}
    (hacc : acc.fault ≠ none → s.halted = true) (k : FaultKind) :
    (acc.accumulate t.signal).fault = some k ↔ acc.fault = some k ∨ t.signal.fault = some k := by
  unfold Signal.accumulate
  cases hf : acc.fault with
  | none => simp
  | some k' =>
    have ht := (step_of_halted (hacc (by simp [hf]))).symm.trans h
    cases ht
    simp [Signal.quiet]

theorem halted_of_accumulate_fault {s t : State} (h : step s = .next t) {acc : Signal}
    (hacc : acc.fault ≠ none → s.halted = true) (hf : (acc.accumulate t.signal).fault ≠ none) :
    t.halted = true := by
  by_cases ha : acc.fault = none
  · exact halted_of_step_fault h (by simpa [Signal.accumulate, ha] using hf)
  · have hs := hacc ha
    cases (step_of_halted hs).symm.trans h
    exact hs

/-- The cycles of a frame: their last state is that of the cycles one after another, and the signals
are those already accumulated with those of the cycles. -/
theorem frameCycles_spec (n : Nat) {acc : Signal} {s : State}
    (hacc : acc.fault ≠ none → s.halted = true) :
    ∃ u sig, frameCycles n acc s = .next (u, sig)
      ∧ performAll (List.replicate n .executeOneCycle) s = .next u
      ∧ (sig.redraw = true ↔ acc.redraw = true ∨ SignalledWithin n s (·.redraw = true))
      ∧ ∀ k, sig.fault = some k ↔ acc.fault = some k ∨ SignalledWithin n s (·.fault = some k) := by
  induction n generalizing acc s with
  | zero => exact ⟨s, acc, rfl, rfl, by simp [not_signalledWithin_zero]⟩
  | succ n ih =>
    obtain ⟨t, ht⟩ := step_next s
    obtain ⟨u, sig, hframe, hu, hredraw, hfault⟩ :=
      ih (fun hf => halted_of_accumulate_fault ht hacc hf)
    refine ⟨u, sig, (frameCycles_succ ht n acc).trans hframe, (performAll_cycle ht _).trans hu, ?_,
      fun k => ?_⟩
    · rw [hredraw, signalledWithin_succ ht, ← or_assoc, Signal.accumulate, Bool.or_eq_true]
    · rw [hfault, signalledWithin_succ ht, ← or_assoc, accumulate_fault_eq_some_iff ht hacc]

/-- Settles O54: the frame accumulates from quiet signals, and ends with the tick. -/
theorem frameIsCyclesThenTick : Obligations.FrameIsCyclesThenTick := by
  intro n s
  obtain ⟨u, sig, hframe, hu, hredraw, hfault⟩ :=
    frameCycles_spec n.toNat (acc := Signal.quiet) (s := { s with runStarted := true })
      (fun h => absurd rfl h)
  refine ⟨_, u.tickFrame, { sig with halted := u.tickFrame.halted }, ?_,
    performAll_append hu [.tickFrame], rfl, rfl, ?_, fun k => ?_⟩
  · simp only [perform, advanceOneFrame, hframe]
  · exact hredraw.trans (or_iff_right Bool.false_ne_true)
  · exact (hfault k).trans (or_iff_right (fun h => nomatch h))

end Sys2Proof.Machine
end

section
/-! SUPPORT. Loads, arithmetic, logic, shifts and random (41_alu.md). Each instruction but the random
one leaves one of three states, by what it writes after the advance: its destination; a result and then
a flag; a result and then, by the quirk `vf_reset`, a zero in VF. What each of the three leaves is said
once. -/

namespace Sys2Proof.Machine

/-! ### The value of a flag (R168, R170, R175) -/

theorem carryFlag_toNat (a b : Byte) :
    (carryFlag a b).toNat = if a.toNat + b.toNat > 255 then 1 else 0 := by
  simp [carryFlag]

theorem notBorrowFlag_toNat (minuend subtrahend : Byte) :
    (notBorrowFlag minuend subtrahend).toNat
      = if minuend.toNat ≥ subtrahend.toNat then 1 else 0 := by
  simp [notBorrowFlag]

theorem rightShiftFlag_toNat (src : Byte) : (rightShiftFlag src).toNat = src.toNat % 2 := by
  rw [rightShiftFlag, BitVec.toNat_and]
  exact Nat.and_one_is_mod _

theorem leftShiftFlag_toNat (src : Byte) : (leftShiftFlag src).toNat = src.toNat / 128 := by
  rw [leftShiftFlag, BitVec.toNat_ushiftRight, Nat.shiftRight_eq_div_pow]

/-! ### Only the destination -/

theorem keepsAllBut_writeV (s : State) (x : Nibble) (b : Byte) :
    KeepsAllBut [x] s (s.advancePC.writeV x b) :=
  ⟨rfl, fun _ hr => State.readV_writeV_ne s.advancePC b (List.ne_of_not_mem_cons hr), fun _ => rfl⟩

/-- Settles O13: the three write their destination and no flag. -/
theorem loadsAndAddImmediate : Obligations.LoadsAndAddImmediate := by
  refine fun s x y kk => ⟨⟨_, rfl, ?load, rfl, keepsAllBut_writeV s x _⟩,
    ⟨_, rfl, ?add, rfl, keepsAllBut_writeV s x _⟩, ⟨_, rfl, ?copy, rfl, keepsAllBut_writeV s x _⟩⟩
  case load => exact State.readV_writeV_same _ _ _
  case add => rw [State.readV_writeV_same, trunc8_toNat]
  case copy => exact State.readV_writeV_same _ _ _

/-- Settles O18: the draw counter moves besides the destination; the mask 0 leaves no bit. -/
theorem randomByteIsMasked : Obligations.RandomByteIsMasked := by
  intro s x kk
  have hmasked : (s.advancePC.writeV x (Config.rand s.draws &&& kk)).readV x
      = Config.rand s.draws &&& kk := State.readV_writeV_same _ _ _
  refine ⟨_, rfl, hmasked, ?mask_zero, rfl, rfl, ?others, fun _ => rfl, rfl⟩
  case mask_zero =>
    rintro rfl
    exact hmasked.trans BitVec.and_zero
  case others => exact fun _ hr => State.readV_writeV_ne s.advancePC _ hr

/-! ### A result, then a flag (R176) -/

theorem keepsAllBut_writeResultAndFlag (s : State) (x : Nibble) (result flag : Byte) :
    KeepsAllBut [x, 0xF#4] s (s.advancePC.writeResultAndFlag x result flag) := by
  refine ⟨rfl, fun _ hr => ?_, fun _ => rfl⟩
  obtain ⟨hdest, hflag⟩ := not_or.1 (mt List.mem_pair.2 hr)
  exact State.readV_writeResultAndFlag_other s.advancePC _ _ hdest hflag

/-- What remains of an instruction that writes a result and its flag, as numbers: the result unless
the destination is VF, and the flag. -/
theorem exec_writes_result_and_flag {s : State} {i : Instr} {x : Nibble} {result flag : Byte}
    {m n : Nat} (hx : exec i s = .next (s.advancePC.writeResultAndFlag x result flag))
    (hresult : result.toNat = m) (hflag : flag.toNat = n) :
    ∃ t, exec i s = .next t ∧ (x ≠ 0xF#4 → (t.readV x).toNat = m) ∧ (t.readV 0xF#4).toNat = n
      ∧ t.PC = s.PC + 2#16 ∧ KeepsAllBut [x, 0xF#4] s t := by
  refine ⟨_, hx, fun hne => ?_, ?_, rfl, keepsAllBut_writeResultAndFlag s x result flag⟩
  · rw [State.readV_writeResultAndFlag_result _ _ _ hne, hresult]
  · rw [State.readV_writeResultAndFlag_flag, hflag]

/-- Settles O14: the sum and its carry (`exec_writes_result_and_flag`). -/
theorem addSetsCarry : Obligations.AddSetsCarry := fun _ _ _ =>
  exec_writes_result_and_flag rfl (trunc8_toNat _) (carryFlag_toNat _ _)

/-- Settles O15: the two subtractions exchange their operands. -/
theorem subtractSetsNotBorrow : Obligations.SubtractSetsNotBorrow := fun _ _ _ =>
  ⟨exec_writes_result_and_flag rfl (trunc8_toNat _) (notBorrowFlag_toNat _ _),
    exec_writes_result_and_flag rfl (trunc8_toNat _) (notBorrowFlag_toNat _ _)⟩

/-- Settles O17: `src` is the model's `shiftSource`. -/
theorem shiftsFollowQuirk : Obligations.ShiftsFollowQuirk := by
  intro s x y src hsrc
  obtain rfl : src = s.shiftSource x y := hsrc
  have hright : (s.shiftSource x y >>> 1).toNat = (s.shiftSource x y).toNat / 2 := by
    rw [BitVec.toNat_ushiftRight, Nat.shiftRight_one]
  have hleft : (trunc8 ((s.shiftSource x y).toNat <<< 1)).toNat
      = (s.shiftSource x y).toNat * 2 % 256 := by
    rw [trunc8_toNat, Nat.shiftLeft_eq, Nat.pow_one]
  exact ⟨exec_writes_result_and_flag rfl hright (rightShiftFlag_toNat _),
    exec_writes_result_and_flag rfl hleft (leftShiftFlag_toNat _)⟩

/-! ### A result, then the quirk `vf_reset` (R163 to R165) -/

theorem keepsAllBut_logic (s : State) (x : Nibble) (b : Byte) :
    KeepsAllBut [x, 0xF#4] s (s.advancePC.writeV x b).resetFlagIfQuirk := by
  refine ⟨rfl, fun _ hr => ?_, fun _ => rfl⟩
  obtain ⟨hdest, hflag⟩ := not_or.1 (mt List.mem_pair.2 hr)
  exact State.readV_logic_other s.advancePC b hdest hflag

/-- The logic operations differ in the result they write. -/
theorem exec_logic {s : State} {x y : Nibble} {i : Instr} {f : Byte → Byte → Byte}
    (h : i = .orVxVy x y ∧ f = (fun a b => a ||| b)
      ∨ i = .andVxVy x y ∧ f = (fun a b => a &&& b)
      ∨ i = .xorVxVy x y ∧ f = (fun a b => a ^^^ b)) :
    exec i s = .next (s.advancePC.writeV x (f (s.readV x) (s.readV y))).resetFlagIfQuirk := by
  obtain ⟨rfl, rfl⟩ | ⟨rfl, rfl⟩ | ⟨rfl, rfl⟩ := h <;> rfl

/-- Settles O16: with the quirk VF is written last, and without it the result stands alone. -/
theorem logicFollowsVfReset : Obligations.LogicFollowsVfReset := by
  intro s x y i f h
  refine ⟨_, exec_logic h, fun hon => ?on, fun hoff => ?off, rfl⟩
  case on =>
    have hreset : (s.advancePC.writeV x (f (s.readV x) (s.readV y))).quirks.vfReset = true := hon
    refine ⟨?_, fun hne => ?_, keepsAllBut_logic s x _⟩
    · rw [State.readV_resetFlagIfQuirk_on hreset, if_pos rfl]
    · rw [State.readV_resetFlagIfQuirk_ne _ hne, State.readV_writeV_same]
  case off =>
    rw [State.resetFlagIfQuirk_off (s := s.advancePC.writeV x _) hoff]
    exact ⟨State.readV_writeV_same _ _ _, keepsAllBut_writeV s x _⟩

end Sys2Proof.Machine
end

section
/-! SUPPORT. Control transfer and exit (42_control.md). A call and a return each branch on the depth
of the stack; what each does on either side is said once, and a run of calls is an induction over
its targets. -/

namespace Sys2Proof.Machine

/-! ### The call stack (R34) -/

@[simp] theorem State.pushAndJump_SP_val (s : State) (h : s.SP.val < Config.stackDepth)
    (ret target : Word16) : (s.pushAndJump h ret target).SP.val = s.SP.val + 1 := rfl

/-- A push writes the entry at the old depth and leaves every other. -/
theorem State.pushAndJump_stack_getElem? (s : State) (h : s.SP.val < Config.stackDepth)
    (ret target : Word16) (j : Nat) :
    (s.pushAndJump h ret target).stack[j]? = if s.SP.val = j then some ret else s.stack[j]? := by
  rw [State.pushAndJump_stack]
  exact Vector.getElem?_set h

/-- The pop after a push takes the entry pushed, which stays above the live entries (R200). -/
theorem State.popAndJump_pushAndJump (s : State) (h : s.SP.val < Config.stackDepth)
    (ret target : Word16) (hlive : 0 < (s.pushAndJump h ret target).SP.val) :
    (s.pushAndJump h ret target).popAndJump hlive
      = { s with PC := ret, stack := (s.pushAndJump h ret target).stack } := by
  simp [State.popAndJump, State.pushAndJump]

/-! ### Call and return by the depth of the stack (R200, R202) -/

theorem exec_call_of_room {s : State} (h : s.SP.val < Config.stackDepth) (nnn : Addr12) :
    exec (.call nnn) s = .next (s.pushAndJump h (s.PC + 2#16) (zext16 nnn)) := dif_pos h

theorem exec_call_of_full {s : State} (h : s.SP.val = Config.stackDepth) (nnn : Addr12) :
    exec (.call nnn) s = .next (haltedBy s .stackOverflow .call) := dif_neg (Nat.not_lt.2 h.ge)

theorem exec_ret_of_live {s : State} (h : 0 < s.SP.val) :
    exec .ret s = .next (s.popAndJump h) := dif_pos h

theorem exec_ret_of_empty {s : State} (h : s.SP.val = 0) :
    exec .ret s = .next (haltedBy s .stackUnderflow .ret) := dif_neg (Nat.not_lt.2 h.le)

/-- A list of instructions whose first one answers next. -/
theorem execAll_cons_next {i : Instr} {s t : State} (h : exec i s = .next t) (is : List Instr) :
    execAll (i :: is) s = execAll is t := by
  rw [execAll, h]

/-- Calls to any targets, as many as the stack has room for, raise its depth by their number and
change only the stack, its depth and `PC`. -/
theorem execAll_calls (targets : List Addr12) :
    ∀ s : State, s.SP.val + targets.length ≤ Config.stackDepth →
      ∃ t, execAll (targets.map Instr.call) s = .next t
        ∧ t.SP.val = s.SP.val + targets.length
        ∧ t = { s with SP := t.SP, stack := t.stack, PC := t.PC } := by
  induction targets with
  | nil => exact fun s _ => ⟨s, rfl, rfl, rfl⟩
  | cons nnn targets ih =>
    intro s hroom
    rw [List.length_cons] at hroom ⊢
    have hs : s.SP.val < Config.stackDepth := by omega
    have hrest : (s.pushAndJump hs (s.PC + 2#16) (zext16 nnn)).SP.val + targets.length
        ≤ Config.stackDepth := by
      rw [State.pushAndJump_SP_val]; omega
    obtain ⟨t, hrun, hdepth, hframe⟩ := ih _ hrest
    refine ⟨t, (execAll_cons_next (exec_call_of_room hs nnn) _).trans hrun, ?_, hframe⟩
    rw [hdepth, State.pushAndJump_SP_val]
    omega

/-- Settles O23: the calls fit (`execAll_calls`), and the stack is then full. -/
theorem seventeenthCallOverflows : Obligations.SeventeenthCallOverflows := by
  intro s targets last hlength
  obtain ⟨t, hrun, hdepth, hframe⟩ := execAll_calls targets s hlength.le
  have hfull : t.SP.val = 16 := hdepth.trans hlength
  exact ⟨t, hrun, hfull, hframe, exec_call_of_full hfull last⟩

/-- Settles O20: the push, and the fault of a full stack. -/
theorem callPushesReturnAddress : Obligations.CallPushesReturnAddress := by
  intro s nnn
  refine ⟨fun hroom => ?_, fun hfull => exec_call_of_full hfull nnn⟩
  have hentry := s.pushAndJump_stack_getElem? hroom (s.PC + 2#16) (zext16 nnn)
  exact ⟨_, exec_call_of_room hroom nnn, rfl, (hentry _).trans (if_pos rfl),
    fun j hj => (hentry j).trans (if_neg hj.symm), zext16_toNat nnn, fun _ => rfl, rfl⟩

/-- Settles O21: the pop, and the fault of an empty stack. -/
theorem returnPopsReturnAddress : Obligations.ReturnPopsReturnAddress := fun _ =>
  ⟨fun hlive =>
      ⟨_, exec_ret_of_live hlive, rfl, Vector.getElem?_eq_getElem _, fun _ => rfl, rfl⟩,
    exec_ret_of_empty⟩

/-- Settles O22: the pop takes what the call pushed, above every entry that was live. -/
theorem returnUndoesCall : Obligations.ReturnUndoesCall := by
  intro s nnn hroom
  have hlive : 0 < (s.pushAndJump hroom (s.PC + 2#16) (zext16 nnn)).SP.val := Nat.succ_pos _
  refine ⟨_, _, exec_call_of_room hroom nnn, exec_ret_of_live hlive,
    s.popAndJump_pushAndJump hroom _ _ hlive, fun j hj => ?_⟩
  rw [State.popAndJump_stack, State.pushAndJump_stack_getElem?, if_neg hj.ne']

/-! ### Jumps (R201, R207) -/

theorem exec_jp (nnn : Addr12) (s : State) :
    exec (.jp nnn) s = .next (s.jump (zext16 nnn)) := rfl

theorem exec_jpV0Nnn (nnn : Addr12) (s : State) :
    exec (.jpV0Nnn nnn) s
      = .next (s.jump (trunc16 ((zext16 nnn).toNat + (s.readV (s.jumpRegister nnn)).toNat))) := rfl

/-- The register `Bnnn` reads: V0, or by the quirk `jumping` the one the top nibble names. -/
theorem State.jumpRegister_eq (s : State) (nnn : Addr12) :
    s.jumpRegister nnn = if s.quirks.jumping then BitVec.ofNat 4 (nnn.toNat / 256) else 0#4 := by
  have htop : nnn.extractLsb' 8 4 = BitVec.ofNat 4 (nnn.toNat / 256) := by
    rw [BitVec.extractLsb', Nat.shiftRight_eq_div_pow]
  rw [State.jumpRegister, htop]

/-- A 12-bit address and a byte add up without a wrap. -/
theorem trunc16_addr_add_byte_toNat (nnn : Addr12) (b : Byte) :
    (trunc16 ((zext16 nnn).toNat + b.toNat)).toNat = nnn.toNat + b.toNat := by
  have := nnn.isLt
  have := b.isLt
  rw [trunc16_toNat, zext16_toNat]
  omega

/-- Settles O19: the target of each jump as a number. -/
theorem jumpsSetPC : Obligations.JumpsSetPC := by
  intro s nnn
  refine ⟨⟨_, exec_jp nnn s, zext16_toNat nnn, rfl⟩, ⟨_, exec_jpV0Nnn nnn s, ?_, rfl⟩⟩
  rw [State.jump_PC, trunc16_addr_add_byte_toNat, State.jumpRegister_eq]

/-! ### Skips (R203 to R206, R211) -/

/-- A skip after the advance is past the next instruction when its condition holds. -/
theorem State.skipIf_advancePC (s : State) {c : Bool} {p : Prop} [Decidable p]
    (h : c = true ↔ p) :
    s.advancePC.skipIf c = { s with PC := if p then s.PC + 4#16 else s.PC + 2#16 } := by
  have htwice : s.PC + 2#16 + 2#16 = s.PC + 4#16 := BitVec.add_assoc _ _ _
  simp only [State.skipIf, State.advancePC, h, htwice]

/-- Settles O24: the four skips differ in their condition. -/
theorem skipsFollowCondition : Obligations.SkipsFollowCondition := by
  intro s x y kk
  exact ⟨congrArg _ (s.skipIf_advancePC beq_iff_eq), congrArg _ (s.skipIf_advancePC bne_iff_ne),
    congrArg _ (s.skipIf_advancePC beq_iff_eq), congrArg _ (s.skipIf_advancePC bne_iff_ne)⟩

/-! ### Exit (R210) -/

/-- Settles O25: the instruction exists under SUPERCHIP. -/
theorem exitHaltsWithoutFault : Obligations.ExitHaltsWithoutFault :=
  fun _ hv => underSuperchip_superchip hv .exit _

end Sys2Proof.Machine
end

section
/-! SUPPORT. The index register, memory and the persistent flags (43_memory_ops.md): what the bounds
check of an access answers on either side, what each block transfer leaves, and which part of the
state each instruction may write. -/

namespace Sys2Proof.Machine

/-! ### The bounds check (R84) -/

/-- An access with an address past memory takes the fault of the last address. -/
theorem ite_inBounds_of_past_memory {s : State} {last : Nat} (done : State)
    (h : s.I.toNat + last ≥ Config.memSize) :
    (if s.inBounds last then .next done
      else .next (s.takeFault .outOfBoundsAccess (.address (s.effAddr last))) : Outcome)
      = .next (haltedBy s .outOfBoundsAccess (.address (s.I.toNat + last))) := by
  rw [(s.inBounds_false_iff last).2 h]
  rfl

theorem exec_ldBVx_inBounds {s : State} (x : Nibble) (h : s.I.toNat + 2 < Config.memSize) :
    exec (.ldBVx x) s = .next (s.advancePC.writeBytes s.I.toNat (bcdDigits (s.readV x))) :=
  if_pos ((s.inBounds_iff 2).2 h)

theorem exec_ldBVx_past_memory {s : State} (x : Nibble) (h : s.I.toNat + 2 ≥ Config.memSize) :
    exec (.ldBVx x) s = .next (haltedBy s .outOfBoundsAccess (.address (s.I.toNat + 2))) :=
  ite_inBounds_of_past_memory _ h

theorem exec_ldMemVx_past_memory {s : State} {x : Nibble}
    (h : s.I.toNat + x.toNat ≥ Config.memSize) :
    exec (.ldMemVx x) s
      = .next (haltedBy s .outOfBoundsAccess (.address (s.I.toNat + x.toNat))) :=
  ite_inBounds_of_past_memory _ h

/-- The state `Fx65` leaves when it is in bounds (R247). -/
def State.loadFromMemory (s : State) (x : Nibble) : State :=
  (s.advancePC.loadRegisters (x.toNat + 1) fun k => s.readByte (s.effAddr k)).incrementIfQuirk x

theorem exec_ldVxMem_inBounds {s : State} {x : Nibble} (h : s.I.toNat + x.toNat < Config.memSize) :
    exec (.ldVxMem x) s = .next (s.loadFromMemory x) :=
  if_pos ((s.inBounds_iff x.toNat).2 h)

theorem exec_ldVxMem_past_memory {s : State} {x : Nibble}
    (h : s.I.toNat + x.toNat ≥ Config.memSize) :
    exec (.ldVxMem x) s
      = .next (haltedBy s .outOfBoundsAccess (.address (s.I.toNat + x.toNat))) :=
  ite_inBounds_of_past_memory _ h

/-! ### Index register and font addresses (R240 to R243) -/

/-- Settles O26: the two write I after the advance, and no register. -/
theorem indexRegisterOps : Obligations.IndexRegisterOps := fun _ _ nnn =>
  ⟨⟨_, rfl, zext16_toNat nnn, rfl, rfl⟩, ⟨_, rfl, trunc16_toNat _, rfl, rfl⟩⟩

theorem Fonts.wf_bases {f : Fonts} (h : f.wf = true) :
    f.smallBase + 80 ≤ 0x200 ∧ f.bigBase + 100 ≤ 0x200 := by
  simp only [Fonts.wf, Bool.and_eq_true, decide_eq_true_eq] at h
  exact h.1

theorem exec_ldFVx_of_digit {s : State} {x : Nibble} (h : (s.readV x).toNat ≤ 0xF) :
    exec (.ldFVx x) s = .next { s.advancePC with
      I := trunc16 (s.fonts.smallBase + 5 * (s.readV x).toNat) } := if_neg (Nat.not_lt.2 h)

theorem exec_ldFVx_of_no_digit {s : State} {x : Nibble} (h : (s.readV x).toNat > 0xF) :
    exec (.ldFVx x) s = .next (haltedBy s .unmodelled .smallDigit) := if_pos h

theorem exec_ldHFVx_of_digit {s : State} {x : Nibble} (hv : s.variant = .superchip)
    (h : (s.readV x).toNat ≤ 9) :
    exec (.ldHFVx x) s = .next { s.advancePC with
      I := trunc16 (s.fonts.bigBase + 10 * (s.readV x).toNat) } :=
  (underSuperchip_superchip hv _ _).trans (congrArg _ (if_neg (Nat.not_lt.2 h)))

theorem exec_ldHFVx_of_no_digit {s : State} {x : Nibble} (hv : s.variant = .superchip)
    (h : (s.readV x).toNat > 9) :
    exec (.ldHFVx x) s = .next (haltedBy s .unmodelled .bigDigit) :=
  (underSuperchip_superchip hv _ _).trans (congrArg _ (if_pos h))

/-- Settles O27: fonts that fit leave no glyph's address to wrap. -/
theorem fontAddresses : Obligations.FontAddresses := by
  intro s x hfonts
  obtain ⟨hsmall, hbig⟩ := Fonts.wf_bases hfonts
  refine ⟨fun hdigit => ⟨_, exec_ldFVx_of_digit hdigit, ?small, rfl, rfl⟩, exec_ldFVx_of_no_digit,
    fun hv hdigit => ⟨_, exec_ldHFVx_of_digit hv hdigit, ?big, rfl, rfl⟩, exec_ldHFVx_of_no_digit⟩
  case small => exact (trunc16_toNat _).trans (Nat.mod_eq_of_lt (by omega))
  case big => exact (trunc16_toNat _).trans (Nat.mod_eq_of_lt (by omega))

/-! ### Stores (R245, R246) -/

theorem trunc8_toNat_of_lt {v : Nat} (h : v < 256) : (trunc8 v).toNat = v :=
  (trunc8_toNat v).trans (Nat.mod_eq_of_lt h)

/-- Settles O28: each digit is below 256 and reads back at its address. -/
theorem bcdStoresDigits : Obligations.BcdStoresDigits := by
  intro s x hs
  refine ⟨fun hI => ?_, exec_ldBVx_past_memory x⟩
  have hv := (s.readV x).isLt
  have hread {k : Nat} (hk : k < 3) :
      (s.advancePC.writeBytes s.I.toNat (bcdDigits (s.readV x))).readByte (s.I.toNat + k)
        = (bcdDigits (s.readV x))[k] :=
    State.readByte_writeBytes_inside (s := s.advancePC) hs hI hk
  refine ⟨_, exec_ldBVx_inBounds x hI, ?hundreds, ?tens, ?ones, fun a ha => ?others, ?pc, ?frame⟩
  case hundreds =>
    exact (congrArg BitVec.toNat (hread (k := 0) (by decide))).trans (trunc8_toNat_of_lt (by omega))
  case tens =>
    exact (congrArg BitVec.toNat (hread (k := 1) (by decide))).trans (trunc8_toNat_of_lt (by omega))
  case ones =>
    exact (congrArg BitVec.toNat (hread (k := 2) (by decide))).trans (trunc8_toNat_of_lt (by omega))
  case others => exact s.advancePC.readByte_writeBytes_outside ha
  case pc => exact s.advancePC.writeBytes_PC _ _
  case frame =>
    rw [State.writeBytes_PC]
    exact s.advancePC.writeBytes_eq _ _

namespace State

/-- With the quirk `memory_increment` off, nothing changes. -/
theorem incrementIfQuirk_off {s : State} (h : s.quirks.memoryIncrement = false) (x : Nibble) :
    s.incrementIfQuirk x = s := by
  simp [incrementIfQuirk, h]

/-- The store changes memory, I and `PC`, and nothing else. -/
theorem storeRegisters_eq (s : State) (x : Nibble) :
    s.storeRegisters x = { s with
      mem := (s.storeRegisters x).mem, I := (s.storeRegisters x).I, PC := s.PC + 2#16 } :=
  congrArg (fun u : State => { u with I := (s.storeRegisters x).I })
    (s.advancePC.writeBytes_eq s.I.toNat (s.registersTo x))

theorem storeRegisters_I_toNat {s : State} {x : Nibble} (h : s.I.toNat + x.toNat < Config.memSize) :
    (s.storeRegisters x).I.toNat
      = if s.quirks.memoryIncrement then s.I.toNat + x.toNat + 1 else s.I.toNat := by
  rw [storeRegisters, incrementIfQuirk_I_toNat _ x (by simpa using h)]
  simp

theorem storeRegisters_I_of_off {s : State} (h : s.quirks.memoryIncrement = false) (x : Nibble) :
    (s.storeRegisters x).I = s.I := by
  rw [storeRegisters, incrementIfQuirk_off (by simpa using h)]
  simp

/-- Outside the registers stored, every address reads as before. -/
theorem readByte_storeRegisters_outside (s : State) {x : Nibble} {a : Nat}
    (h : a < s.I.toNat ∨ s.I.toNat + x.toNat < a) :
    (s.storeRegisters x).readByte a = s.readByte a := by
  have hlen := length_registersTo s x
  rw [storeRegisters, incrementIfQuirk_readByte]
  exact s.advancePC.readByte_writeBytes_outside (by omega)

end State

/-- Settles O29: what `storeRegisters` leaves, or the fault. -/
theorem storeRegisters : Obligations.StoreRegisters := by
  intro s x hs
  refine ⟨fun hx => ⟨_, exec_ldMemVx_inBounds hx, fun _ => State.readByte_storeRegisters hs hx,
    fun _ => s.readByte_storeRegisters_outside, State.storeRegisters_I_toNat hx,
    s.storeRegisters_PC x, ?frame⟩, exec_ldMemVx_past_memory⟩
  case frame =>
    rw [State.storeRegisters_PC]
    exact s.storeRegisters_eq x

/-! ### Loads (R247) -/

namespace State

@[simp] theorem loadFromMemory_PC (s : State) (x : Nibble) :
    (s.loadFromMemory x).PC = s.PC + 2#16 := by
  simp [loadFromMemory]

@[simp] theorem loadFromMemory_readByte (s : State) (x : Nibble) (a : Nat) :
    (s.loadFromMemory x).readByte a = s.readByte a := by
  simp [loadFromMemory]

/-- The load changes the general registers, I and `PC`, and nothing else. -/
theorem loadFromMemory_eq (s : State) (x : Nibble) :
    s.loadFromMemory x = { s with
      V := (s.loadFromMemory x).V, I := (s.loadFromMemory x).I, PC := s.PC + 2#16 } :=
  congrArg (fun u : State => { u with I := (s.loadFromMemory x).I })
    (s.advancePC.loadRegisters_eq (x.toNat + 1) fun k => s.readByte (s.effAddr k))

theorem loadFromMemory_I_toNat {s : State} {x : Nibble} (h : s.I.toNat + x.toNat < Config.memSize) :
    (s.loadFromMemory x).I.toNat
      = if s.quirks.memoryIncrement then s.I.toNat + x.toNat + 1 else s.I.toNat := by
  rw [loadFromMemory, incrementIfQuirk_I_toNat _ x (by simpa using h)]
  simp

theorem readV_loadFromMemory (s : State) (x r : Nibble) :
    (s.loadFromMemory x).readV r
      = if r.toNat ≤ x.toNat then s.readByte (s.I.toNat + r.toNat) else s.readV r := by
  rw [loadFromMemory, incrementIfQuirk_readV, readV_loadRegisters, advancePC_readV]
  simp only [Nat.lt_succ_iff, effAddr]

end State

/-- Settles O30: what `loadFromMemory` leaves, or the fault. -/
theorem loadRegisters : Obligations.LoadRegisters := by
  intro s x
  refine ⟨fun hx => ⟨_, exec_ldVxMem_inBounds hx,
    fun r hr => (s.readV_loadFromMemory x r).trans (if_pos hr),
    fun r hr => (s.readV_loadFromMemory x r).trans (if_neg (Nat.not_le.2 hr)),
    s.loadFromMemory_readByte x, State.loadFromMemory_I_toNat hx, s.loadFromMemory_PC x, ?frame⟩,
    exec_ldVxMem_past_memory⟩
  case frame =>
    rw [State.loadFromMemory_PC]
    exact s.loadFromMemory_eq x

/-- Settles O31: the load reads from the same I, where the store put each register. -/
theorem loadRestoresStoredRegisters : Obligations.LoadRestoresStoredRegisters := by
  intro s x lost hs hx hoff
  have hI : (s.storeRegisters x).I = s.I := State.storeRegisters_I_of_off hoff x
  have hx' : (s.storeRegisters x).I.toNat + x.toNat < Config.memSize := by rwa [hI]
  refine ⟨_, _, exec_ldMemVx_inBounds hx, exec_ldVxMem_inBounds hx', fun r hr => ?_⟩
  rw [State.readV_loadFromMemory, if_pos hr]
  change (s.storeRegisters x).readByte ((s.storeRegisters x).I.toNat + r.toNat) = s.readV r
  rw [hI, State.readByte_storeRegisters hs hx hr]

/-! ### Persistent flags (R250, R252) -/

namespace State

theorem saveFlags_getElem?_of_lt (s : State) {count j : Nat} (hj : j < count) (h8 : j < 8) :
    (s.saveFlags count).flags[j]? = some s.V[j] := by
  rw [Vector.getElem?_eq_getElem h8, flags_saveFlags _ _ h8, if_pos hj]

theorem saveFlags_getElem?_of_le (s : State) {count j : Nat} (hj : count ≤ j) :
    (s.saveFlags count).flags[j]? = s.flags[j]? := by
  by_cases h8 : j < 8
  · rw [Vector.getElem?_eq_getElem h8, flags_saveFlags _ _ h8, if_neg (Nat.not_lt.2 hj),
      Vector.getElem?_eq_getElem h8]
  · rw [Vector.getElem?_eq_none (Nat.not_lt.1 h8), Vector.getElem?_eq_none (Nat.not_lt.1 h8)]

theorem getElem?_flags_eq_readFlag (s : State) {j : Nat} (h8 : j < 8) :
    s.flags[j]? = some (s.readFlag j) := by
  rw [readFlag_eq s h8, Vector.getElem?_eq_getElem h8]

end State

theorem exec_ldRVx_of_slot {s : State} {x : Nibble} (hv : s.variant = .superchip)
    (h : x.toNat ≤ 7) : exec (.ldRVx x) s = .next (s.advancePC.saveFlags (x.toNat + 1)) :=
  (underSuperchip_superchip hv _ _).trans (congrArg _ (if_pos h))

theorem exec_ldRVx_of_no_slot {s : State} {x : Nibble} (hv : s.variant = .superchip)
    (h : x.toNat > 7) :
    exec (.ldRVx x) s = .next (haltedBy s .illegalInstruction (.word (encode (.ldRVx x)))) :=
  (underSuperchip_superchip hv _ _).trans (congrArg _ (if_neg (Nat.not_le.2 h)))

theorem exec_ldVxR_of_slot {s : State} {x : Nibble} (hv : s.variant = .superchip)
    (h : x.toNat ≤ 7) :
    exec (.ldVxR x) s = .next (s.advancePC.loadRegisters (x.toNat + 1) s.readFlag) :=
  (underSuperchip_superchip hv _ _).trans (congrArg _ (if_pos h))

theorem exec_ldVxR_of_no_slot {s : State} {x : Nibble} (hv : s.variant = .superchip)
    (h : x.toNat > 7) :
    exec (.ldVxR x) s = .next (haltedBy s .illegalInstruction (.word (encode (.ldVxR x)))) :=
  (underSuperchip_superchip hv _ _).trans (congrArg _ (if_neg (Nat.not_le.2 h)))

/-- A block load after the advance writes V0..Vx, and no other register. -/
theorem keepsAllBut_loadRegisters (s : State) (x : Nibble) (f : Nat → Byte) :
    KeepsAllBut (registersUpTo x) s (s.advancePC.loadRegisters (x.toNat + 1) f) := by
  refine ⟨?_, fun _ hr => s.advancePC.readV_loadRegisters_other f hr,
    s.advancePC.loadRegisters_readByte _ f⟩
  rw [State.loadRegisters_PC]
  exact s.advancePC.loadRegisters_eq _ f

/-- Settles O33: the save and the load by slot, and the fault of an `x` that names none. -/
theorem flagsSaveAndLoad : Obligations.FlagsSaveAndLoad := by
  intro s x hv
  refine ⟨fun hx => ⟨?save, ?load⟩,
    fun hx => ⟨exec_ldRVx_of_no_slot hv hx, exec_ldVxR_of_no_slot hv hx⟩⟩
  case save =>
    exact ⟨_, exec_ldRVx_of_slot hv hx,
      fun r hr => s.advancePC.saveFlags_getElem?_of_lt (Nat.lt_succ_of_le hr) (by omega),
      fun _ hj => s.advancePC.saveFlags_getElem?_of_le hj, rfl, rfl⟩
  case load =>
    refine ⟨_, exec_ldVxR_of_slot hv hx, fun r hr => ?_, s.advancePC.loadRegisters_PC _ _,
      keepsAllBut_loadRegisters s x _⟩
    rw [State.readV_loadRegisters, if_pos (Nat.lt_succ_of_le hr)]
    exact s.getElem?_flags_eq_readFlag (by omega)

/-! ### Which part of the state an instruction may write (R253, R270, R300; 10_state.md) -/

/-- The special registers, memory, the two framebuffers and the draw counter:
what an instruction may write besides the general registers, `PC` and the run control. -/
inductive StatePart where
  | memory | index | depth | stack | delay | sound | flags | keyWait | displayHold | resolution
  | lowPixels | highPixels | draws

/-- The part is the same in both states; of memory, what every address reads as. -/
def SamePart (s t : State) : StatePart → Prop
  | .memory => t.readByte = s.readByte
  | .index => t.I = s.I
  | .depth => t.SP = s.SP
  | .stack => t.stack = s.stack
  | .delay => t.DT = s.DT
  | .sound => t.ST = s.ST
  | .flags => t.flags = s.flags
  | .keyWait => t.waitKey = s.waitKey
  | .displayHold => t.vblankHold = s.vblankHold
  | .resolution => t.hires = s.hires
  | .lowPixels => t.fbLo = s.fbLo
  | .highPixels => t.fbHi = s.fbHi
  | .draws => t.draws = s.draws

/-- The instructions whose rules name the part; a block transfer advances I under its quirk only. -/
def MayWrite (s : State) (i : Instr) : StatePart → Prop
  | .memory => ∃ x, i = .ldBVx x ∨ i = .ldMemVx x
  | .index => (∃ nnn, i = .ldINnn nnn)
      ∨ ∃ x, i = .addIVx x ∨ i = .ldFVx x ∨ i = .ldHFVx x
        ∨ (s.quirks.memoryIncrement = true ∧ (i = .ldMemVx x ∨ i = .ldVxMem x))
  | .depth | .stack => i = .ret ∨ ∃ nnn, i = .call nnn
  | .delay => ∃ x, i = .ldDTVx x
  | .sound => ∃ x, i = .ldSTVx x
  | .flags => ∃ x, i = .ldRVx x
  | .keyWait => ∃ x, i = .ldVxK x
  | .displayHold => ∃ x y, (∃ n, i = .drwVxVyN x y n) ∨ i = .drwVxVy0 x y
  | .resolution => i = .low ∨ i = .high
  | .lowPixels | .highPixels => redraws i = true
  | .draws => ∃ x kk, i = .rndVxKk x kk

/-- The instruction keeps the part, or it is one of those that may write it. -/
def KeepsOrMayWrite (i : Instr) (s t : State) (p : StatePart) : Prop :=
  SamePart s t p ∨ MayWrite s i p

theorem samePart_haltedBy (s : State) (kind : FaultKind) (info : FaultInfo) (p : StatePart) :
    SamePart s (haltedBy s kind info) p := by
  cases p <;> exact rfl

theorem KeepsOrMayWrite.fault {i : Instr} {s : State} (kind : FaultKind) (info : FaultInfo)
    (p : StatePart) : KeepsOrMayWrite i s (haltedBy s kind info) p :=
  .inl (samePart_haltedBy s kind info p)

theorem underSuperchip_keepsOrMayWrite {s t : State} {i : Instr} {e : State} {p : StatePart}
    (hx : underSuperchip s i e = .next t) (he : KeepsOrMayWrite i s e p) :
    KeepsOrMayWrite i s t p := by
  rcases underSuperchip_cases hx with ⟨-, rfl⟩ | ⟨-, rfl⟩
  exacts [he, .fault _ _ p]

/-- A draw writes pixels and the display hold (R284, R285), besides VF. -/
theorem keepsOrMayWrite_completeDraw {n : Nat} {i : Instr} {x y : Nibble} {p : StatePart}
    (s : State) (rows : List (BitVec n)) (hi : (∃ n, i = .drwVxVyN x y n) ∨ i = .drwVxVy0 x y)
    (hr : redraws i = true) :
    KeepsOrMayWrite i s (s.completeDraw x y rows) p := by
  cases p with
  | lowPixels | highPixels => exact .inr hr
  | displayHold => exact .inr ⟨x, y, hi⟩
  | _ => exact .inl rfl

/-- A clear or a scroll writes the pixels (R270). -/
theorem keepsOrMayWrite_updateScreen {i : Instr} {p : StatePart} (s : State)
    (f : ∀ {w h : Nat}, Framebuffer w h → Framebuffer w h) (hr : redraws i = true) :
    KeepsOrMayWrite i s (s.advancePC.updateScreen f).signalRedraw p := by
  cases p with
  | lowPixels | highPixels => exact .inr hr
  | _ => exact .inl rfl

/-- A mode switch writes the resolution and clears the pixels (R300). -/
theorem keepsOrMayWrite_switchResolution {i : Instr} {p : StatePart} (s : State) (b : Bool)
    (hi : i = .low ∨ i = .high) :
    KeepsOrMayWrite i s (s.advancePC.switchResolution b).signalRedraw p := by
  cases p with
  | lowPixels | highPixels => exact .inr (by rcases hi with rfl | rfl <;> rfl)
  | resolution => exact .inr hi
  | _ => exact .inl rfl

/-- A store writes memory (R245, R246). -/
theorem keepsOrMayWrite_writeBytes {i : Instr} {x : Nibble} {p : StatePart} (s : State) (a : Nat)
    (bs : List Byte) (hi : i = .ldBVx x ∨ i = .ldMemVx x) :
    KeepsOrMayWrite i s (s.advancePC.writeBytes a bs) p := by
  cases p with
  | memory => exact .inr ⟨x, hi⟩
  | _ => exact .inl (by simp [SamePart])

/-- A block load writes the general registers alone (R247, R252). -/
theorem keepsOrMayWrite_loadRegisters {i : Instr} {p : StatePart} (s : State) (count : Nat)
    (f : Nat → Byte) : KeepsOrMayWrite i s (s.advancePC.loadRegisters count f) p := by
  cases p with
  | memory => exact .inl (funext (s.advancePC.loadRegisters_readByte count f))
  | _ => exact .inl (by simp [SamePart])

theorem keepsOrMayWrite_setI {i : Instr} {s : State} {p : StatePart} (v : Word16)
    (hi : MayWrite s i .index) : KeepsOrMayWrite i s { s.advancePC with I := v } p := by
  cases p with
  | index => exact .inr hi
  | _ => exact .inl rfl

/-- By the quirk `memory_increment` a block transfer may also write I (R246, R247). -/
theorem KeepsOrMayWrite.incrementIfQuirk {i : Instr} {s u : State} {x : Nibble} {p : StatePart}
    (hu : KeepsOrMayWrite i s u p) (hquirks : u.quirks = s.quirks)
    (hi : i = .ldMemVx x ∨ i = .ldVxMem x) :
    KeepsOrMayWrite i s (u.incrementIfQuirk x) p := by
  cases hq : u.quirks.memoryIncrement with
  | false => rwa [State.incrementIfQuirk_off hq]
  | true =>
    cases p with
    | index => exact .inr (.inr ⟨x, .inr (.inr (.inr ⟨hquirks ▸ hq, hi⟩))⟩)
    | _ => exact hu

/-- One case for each instruction: those that branch go by the cases of their meaning, where a fault
keeps every part; the others by the parts they write. -/
theorem exec_keepsOrMayWrite {i : Instr} {s t : State} (hx : exec i s = .next t) (p : StatePart) :
    KeepsOrMayWrite i s t p := by
  cases i with
  | jp | seVxKk | sneVxKk | seVxVy | ldVxKk | addVxKk | ldVxVy | orVxVy | andVxVy | xorVxVy
  | addVxVy | subVxVy | shrVxVy | subnVxVy | shlVxVy | sneVxVy | jpV0Nnn | ldVxDT =>
    cases hx
    exact .inl (by cases p <;> exact rfl)
  | exit => exact underSuperchip_keepsOrMayWrite hx (.inl (by cases p <;> exact rfl))
  | cls => cases hx; exact keepsOrMayWrite_updateScreen s _ rfl
  | scd | scr | scl =>
    exact underSuperchip_keepsOrMayWrite hx (keepsOrMayWrite_updateScreen s _ rfl)
  | low =>
    exact underSuperchip_keepsOrMayWrite hx (keepsOrMayWrite_switchResolution s _ (.inl rfl))
  | high =>
    exact underSuperchip_keepsOrMayWrite hx (keepsOrMayWrite_switchResolution s _ (.inr rfl))
  | drwVxVyN x y n =>
    rcases execDrwVxVyN_cases hx with ⟨-, rfl⟩ | ⟨-, -, rfl⟩
    exacts [keepsOrMayWrite_completeDraw s _ (.inl ⟨n, rfl⟩) rfl, .fault _ _ p]
  | drwVxVy0 x y =>
    rcases execDrwVxVy0_cases hx with ⟨-, -, rfl⟩ | ⟨-, -, rfl⟩ | ⟨-, rfl⟩
    exacts [keepsOrMayWrite_completeDraw s _ (.inr rfl) rfl, .fault _ _ p,
      keepsOrMayWrite_completeDraw s _ (.inr rfl) rfl]
  | ret =>
    rcases execRet_cases hx with ⟨-, rfl⟩ | ⟨-, rfl⟩
    · cases p with
      | depth | stack => exact .inr (.inl rfl)
      | _ => exact .inl rfl
    · exact .fault _ _ p
  | call =>
    rcases execCall_cases hx with ⟨-, rfl⟩ | ⟨-, rfl⟩
    · cases p with
      | depth | stack => exact .inr (.inr ⟨_, rfl⟩)
      | _ => exact .inl rfl
    · exact .fault _ _ p
  | skpVx =>
    rcases execSkpVx_cases hx with ⟨-, rfl⟩ | ⟨-, rfl⟩
    exacts [.inl (by cases p <;> exact rfl), .fault _ _ p]
  | sknpVx =>
    rcases execSknpVx_cases hx with ⟨-, rfl⟩ | ⟨-, rfl⟩
    exacts [.inl (by cases p <;> exact rfl), .fault _ _ p]
  | rndVxKk =>
    cases hx
    cases p with
    | draws => exact .inr ⟨_, _, rfl⟩
    | _ => exact .inl rfl
  | ldVxK =>
    cases hx
    cases p with
    | keyWait => exact .inr ⟨_, rfl⟩
    | _ => exact .inl rfl
  | ldDTVx =>
    cases hx
    cases p with
    | delay => exact .inr ⟨_, rfl⟩
    | _ => exact .inl rfl
  | ldSTVx =>
    cases hx
    cases p with
    | sound => exact .inr ⟨_, rfl⟩
    | _ => exact .inl rfl
  | ldINnn nnn => cases hx; exact keepsOrMayWrite_setI _ (.inl ⟨nnn, rfl⟩)
  | addIVx x => cases hx; exact keepsOrMayWrite_setI _ (.inr ⟨x, .inl rfl⟩)
  | ldFVx x =>
    rcases execLdFVx_cases hx with ⟨-, rfl⟩ | ⟨-, rfl⟩
    exacts [keepsOrMayWrite_setI _ (.inr ⟨x, .inr (.inl rfl)⟩), .fault _ _ p]
  | ldHFVx x =>
    rcases execLdHFVx_cases hx with ⟨-, -, rfl⟩ | ⟨-, -, rfl⟩ | ⟨-, rfl⟩
    exacts [keepsOrMayWrite_setI _ (.inr ⟨x, .inr (.inr (.inl rfl))⟩), .fault _ _ p, .fault _ _ p]
  | ldRVx =>
    rcases execLdRVx_cases hx with ⟨-, -, rfl⟩ | ⟨-, rfl⟩
    · cases p with
      | flags => exact .inr ⟨_, rfl⟩
      | _ => exact .inl rfl
    · exact .fault _ _ p
  | ldVxR =>
    rcases execLdVxR_cases hx with ⟨-, -, rfl⟩ | ⟨-, rfl⟩
    exacts [keepsOrMayWrite_loadRegisters s _ _, .fault _ _ p]
  | ldBVx =>
    rcases execLdBVx_cases hx with ⟨-, rfl⟩ | ⟨-, rfl⟩
    exacts [keepsOrMayWrite_writeBytes s _ _ (.inl rfl), .fault _ _ p]
  | ldMemVx =>
    rcases execLdMemVx_cases hx with ⟨-, rfl⟩ | ⟨-, rfl⟩
    exacts [(keepsOrMayWrite_writeBytes s _ _ (.inr rfl)).incrementIfQuirk (by simp) (.inl rfl),
      .fault _ _ p]
  | ldVxMem =>
    rcases execLdVxMem_cases hx with ⟨-, rfl⟩ | ⟨-, rfl⟩
    exacts [(keepsOrMayWrite_loadRegisters s _ _).incrementIfQuirk (by simp) (.inr rfl),
      .fault _ _ p]

/-- Settles O48: a part that differs was not kept, so the instruction is one that may write it. -/
theorem onlyNamedInstructionsWrite : Obligations.OnlyNamedInstructionsWrite := by
  intro i s t hx
  have hwritten (p : StatePart) (h : ¬SamePart s t p) : MayWrite s i p :=
    (exec_keepsOrMayWrite hx p).resolve_left h
  exact ⟨fun ⟨a, ha⟩ => hwritten .memory fun h => ha (congrFun h a), hwritten .index,
    fun h => h.elim (hwritten .depth) (hwritten .stack), hwritten .delay, hwritten .sound,
    hwritten .flags, hwritten .keyWait, hwritten .displayHold, hwritten .resolution,
    fun h => h.elim (hwritten .lowPixels) (hwritten .highPixels), hwritten .draws⟩

end Sys2Proof.Machine
end

section
/-! SUPPORT. The display (44_display.md): what a clear, a scroll and a change of resolution leave on
the active buffer, what a sprite leaves on it and in VF, and which instructions signal a redraw. -/

namespace Sys2Proof.Machine

/-! ### The active buffer as a whole (R270, R272, R290 to R292) -/

namespace State

theorem pixel_updateScreen (s : State) (f : ∀ {w h : Nat}, Framebuffer w h → Framebuffer w h)
    (px py : Nat) : (s.updateScreen f).pixel px py
      = if s.hires then (f s.fbHi).pixel px py else (f s.fbLo).pixel px py := by
  cases h : s.hires <;> simp [updateScreen, pixel, h]

/-- An operation that computes each pixel of any grid from the grid's old pixels computes each pixel
of the screen from the screen's. -/
theorem pixel_updateScreen_of_pixel {f : ∀ {w h : Nat}, Framebuffer w h → Framebuffer w h}
    (moved : Nat → (Nat → Nat → Bool) → Nat → Nat → Bool)
    (hf : ∀ {w h : Nat} (fb : Framebuffer w h) {px py : Nat}, px < w → py < h →
      (f fb).pixel px py = moved w fb.pixel px py)
    (s : State) (px py : Nat) (hx : px < s.width) (hy : py < s.height) :
    (s.updateScreen f).pixel px py = moved s.width s.pixel px py := by
  rw [pixel_updateScreen]
  unfold width at hx ⊢
  unfold height at hy
  unfold pixel
  cases hh : s.hires with
  | false => rw [hh] at hx hy; exact hf s.fbLo hx hy
  | true => rw [hh] at hx hy; exact hf s.fbHi hx hy

/-- A pixel that reads 1 is on the screen. -/
theorem inside_of_pixel {s : State} {px py : Nat} (h : s.pixel px py = true) :
    px < s.width ∧ py < s.height := by
  by_contra hout
  have hdark := s.pixel_outside (px := px) (py := py) (by omega)
  exact nomatch h.symm.trans hdark

end State

/-- Settles O35: the update of the screen to a blank one, after the advance. -/
theorem clearScreen : Obligations.ClearScreen := by
  intro s
  refine ⟨_, rfl, fun px py => ?_,
    s.advancePC.updateScreen_inactive fun _ => Framebuffer.blank, rfl, rfl, rfl⟩
  change (s.advancePC.updateScreen fun _ => Framebuffer.blank).pixel px py = false
  rw [State.pixel_updateScreen]
  split <;> exact Framebuffer.pixel_blank px py

/-- Settles O36: each scroll is an update of the screen by the formula of its rule. -/
theorem scrollsMoveActiveBuffer : Obligations.ScrollsMoveActiveBuffer := by
  intro s n i moved hv hi
  obtain ⟨f, hx, hmoved⟩ : ∃ f : ∀ {w h : Nat}, Framebuffer w h → Framebuffer w h,
      exec i s = .next (s.advancePC.updateScreen f).signalRedraw
      ∧ ∀ px py, px < s.width → py < s.height →
        (s.advancePC.updateScreen f).pixel px py = moved px py := by
    rcases hi with ⟨rfl, rfl⟩ | ⟨rfl, rfl⟩ | ⟨rfl, rfl⟩
    · exact ⟨_, underSuperchip_superchip hv _ _, State.pixel_updateScreen_of_pixel
        (fun _ old px py => if py ≥ n.toNat then old px (py - n.toNat) else false)
        (fun _ => Framebuffer.pixel_ofPixels _) s.advancePC⟩
    · exact ⟨_, underSuperchip_superchip hv _ _, State.pixel_updateScreen_of_pixel
        (fun _ old px py => if px ≥ 4 then old (px - 4) py else false)
        (fun _ => Framebuffer.pixel_ofPixels _) s.advancePC⟩
    · exact ⟨_, underSuperchip_superchip hv _ _, State.pixel_updateScreen_of_pixel
        (fun w old px py => if px + 4 < w then old (px + 4) py else false)
        (fun _ => Framebuffer.pixel_ofPixels _) s.advancePC⟩
  exact ⟨_, hx, hmoved, s.advancePC.updateScreen_inactive f, rfl, rfl, rfl⟩

/-- Settles O37: the switch blanks both buffers, whatever the mode was. -/
theorem modeSwitchClearsBoth : Obligations.ModeSwitchClearsBoth := by
  intro s i b hv hi
  have hx : exec i s = .next (s.advancePC.switchResolution b).signalRedraw := by
    rcases hi with ⟨rfl, rfl⟩ | ⟨rfl, rfl⟩ <;> exact underSuperchip_superchip hv _ _
  exact ⟨_, hx, rfl, Framebuffer.pixel_blank, Framebuffer.pixel_blank, rfl, rfl, rfl, rfl, rfl⟩

/-! ### A sprite on a grid (R281 to R285) -/

namespace Framebuffer

/-- A draw inverts the pixels the sprite has a 1 for, and its collision is a lit one among them. -/
theorem draw_spriteOn {w h n : Nat} (clipping : Bool) {ox oy : Nat} {rows : List (BitVec n)}
    {bit : Nat → Nat → Bool}
    (hbit : ∀ r c, c < n → ∀ row, rows[r]? = some row → bit r c = row.getLsbD (n - 1 - c))
    (hox : ox < w) (hoy : oy < h) (hn : n ≤ w) (hr : rows.length ≤ h) (fb : Framebuffer w h) :
    (∀ px py, px < w → py < h → (draw clipping ox oy rows fb).1.pixel px py
      = xor (fb.pixel px py) (spriteOn clipping w h ox oy rows.length n bit px py))
    ∧ ((draw clipping ox oy rows fb).2 = true ↔ ∃ px py, px < w ∧ py < h
        ∧ fb.pixel px py = true ∧ spriteOn clipping w h ox oy rows.length n bit px py = true) := by
  have hw0 : 0 < w := Nat.zero_lt_of_lt hox
  have hh0 : 0 < h := Nat.zero_lt_of_lt hoy
  have hon {px py : Nat} (hx : px < w) (hy : py < h) :=
    spriteOn_iff clipping rows bit hbit hox hoy hn hr hx hy
  obtain ⟨hpixel, hhit⟩ := draw_spec clipping ox oy rows fb hn hw0 hr hh0
  refine ⟨fun px py hx hy => ?_, hhit.trans ⟨?_, ?_⟩⟩
  · rw [hpixel]
    simp only [hon hx hy, Bool.decide_eq_true]
  · rintro ⟨cell, hcell, px, py, htarget, hlit⟩
    obtain ⟨hx, hy⟩ := edgeTarget_inside hw0 hh0 htarget
    exact ⟨px, py, hx, hy, hlit, (hon hx hy).1 ⟨cell, hcell, htarget⟩⟩
  · rintro ⟨px, py, hx, hy, hlit, hsprite⟩
    obtain ⟨cell, hcell, htarget⟩ := (hon hx hy).2 hsprite
    exact ⟨cell, hcell, px, py, htarget, hlit⟩

end Framebuffer

/-! ### A sprite on the screen (R280, R285, R286) -/

namespace State

/-- The screen's pixels that a sprite with its origin from Vx and Vy has a 1 for (R280, R282). -/
def spriteAt (s : State) (x y : Nibble) (rows columns : Nat) (bit : Nat → Nat → Bool) :
    Nat → Nat → Bool :=
  spriteOn s.quirks.clipping s.width s.height ((s.readV x).toNat % s.width)
    ((s.readV y).toNat % s.height) rows columns bit

section Draw

variable {n : Nat} (s : State) (x y : Nibble) {rows : List (BitVec n)} {bit : Nat → Nat → Bool}
  (hbit : ∀ r c, c < n → ∀ row, rows[r]? = some row → bit r c = row.getLsbD (n - 1 - c))
  (hn : n ≤ Config.loresW) (hr : rows.length ≤ Config.loresH)

include hbit hn hr

/-- What a draw leaves on the active buffer, whichever that is, and in VF. A sprite that fits the
low-res screen fits the high-res one. -/
theorem completeDraw_screen :
    (∀ px py, px < s.width → py < s.height → (s.completeDraw x y rows).pixel px py
      = xor (s.pixel px py) (s.spriteAt x y rows.length n bit px py))
    ∧ ∃ hit : Bool, (s.completeDraw x y rows).readV 0xF#4 = collisionFlag hit
      ∧ (hit = true ↔ ∃ px py, px < s.width ∧ py < s.height
        ∧ s.pixel px py = true ∧ s.spriteAt x y rows.length n bit px py = true) := by
  unfold spriteAt width height pixel
  rw [completeDraw_hires]
  cases hh : s.hires with
  | false =>
    obtain ⟨hpixel, hhit⟩ := Framebuffer.draw_spriteOn s.quirks.clipping hbit
      (Nat.mod_lt (s.readV x).toNat (by decide)) (Nat.mod_lt (s.readV y).toNat (by decide))
      hn hr s.fbLo
    rw [completeDraw_of_lores hh x y rows rfl]
    exact ⟨hpixel, _, readV_writeV_same s _ _, hhit⟩
  | true =>
    obtain ⟨hpixel, hhit⟩ := Framebuffer.draw_spriteOn s.quirks.clipping hbit
      (Nat.mod_lt (s.readV x).toNat (by decide)) (Nat.mod_lt (s.readV y).toNat (by decide))
      (hn.trans (by decide)) (hr.trans (by decide)) s.fbHi
    rw [completeDraw_of_hires hh x y rows rfl]
    exact ⟨hpixel, _, readV_writeV_same s _ _, hhit⟩

theorem drawn_completeDraw :
    Drawn (s.spriteAt x y rows.length n bit) s (s.completeDraw x y rows) := by
  obtain ⟨hpixel, hit, hflag, hhit⟩ := s.completeDraw_screen x y hbit hn hr
  refine ⟨hpixel, s.advancePC.drawSprite_inactive x y rows, fun hlit => ?lit, fun hdark => ?dark,
    rfl, ?hold, rfl, fun _ => s.readV_completeDraw_ne x y rows, fun _ => rfl, rfl⟩
  case lit => rw [hflag, hhit.2 hlit]; rfl
  case dark =>
    have hmiss : hit = false := by
      refine Bool.eq_false_iff.2 fun h => ?_
      obtain ⟨px, py, hx, hy, hon, hsprite⟩ := hhit.1 h
      exact nomatch hon.symm.trans (hdark px py hx hy hsprite)
    rw [hflag, hmiss]
    rfl
  case hold =>
    change (if s.quirks.displayWait then true else s.vblankHold) = _
    cases s.quirks.displayWait <;> rfl

end Draw

theorem length_spriteRows8 (s : State) (rows : Nat) : (s.spriteRows8 rows).length = rows := by
  simp [spriteRows8]

theorem length_spriteRows16 (s : State) (rows : Nat) : (s.spriteRows16 rows).length = rows := by
  simp [spriteRows16]

/-- The rows of an 8-pixel-wide sprite hold its pixels, bit 7 the leftmost (R281). -/
theorem spriteBit8_of_row {s : State} {rows r c : Nat} {row : Byte}
    (hrow : (s.spriteRows8 rows)[r]? = some row) : spriteBit8 s r c = row.getLsbD (8 - 1 - c) := by
  obtain ⟨-, rfl⟩ := List.getElem?_eq_some_iff.1 hrow
  simp [spriteBit8, spriteRows8, effAddr]

/-- The rows of a 16-pixel-wide sprite hold its pixels, bit 15 the leftmost (R281). -/
theorem spriteBit16_of_row {s : State} {rows r c : Nat} {row : Word16} (hc : c < 16)
    (hrow : (s.spriteRows16 rows)[r]? = some row) :
    spriteBit16 s r c = row.getLsbD (16 - 1 - c) := by
  obtain ⟨-, rfl⟩ := List.getElem?_eq_some_iff.1 hrow
  simp only [spriteBit16, spriteRows16, effAddr, List.getElem_map, List.getElem_range, wordOfBytes,
    BitVec.getLsbD_append]
  by_cases hleft : c < 8
  · rw [if_pos hleft, if_neg (by omega), show 16 - 1 - c - 8 = 7 - c by omega]
  · rw [if_neg hleft, if_pos (by omega)]
    rfl

end State

theorem exec_drwVxVyN_inBounds {s : State} {n : Nibble} (x y : Nibble)
    (h : n.toNat = 0 ∨ s.I.toNat + n.toNat - 1 < Config.memSize) :
    exec (.drwVxVyN x y n) s = .next (s.completeDraw x y (s.spriteRows8 n.toNat)) := by
  obtain ⟨t, ht⟩ := exec_next (.drwVxVyN x y n) s
  rcases execDrwVxVyN_cases ht with ⟨-, rfl⟩ | ⟨hpos, hpast, -⟩
  · exact ht
  · omega

theorem exec_drwVxVyN_past_memory {s : State} {n : Nibble} (x y : Nibble) (hpos : n.toNat ≠ 0)
    (h : s.I.toNat + n.toNat - 1 ≥ Config.memSize) :
    exec (.drwVxVyN x y n) s
      = .next (haltedBy s .outOfBoundsAccess (.address (s.I.toNat + n.toNat - 1))) := by
  obtain ⟨t, ht⟩ := exec_next (.drwVxVyN x y n) s
  rcases execDrwVxVyN_cases ht with ⟨hin, -⟩ | ⟨-, -, rfl⟩
  · omega
  · exact ht

theorem exec_drwVxVy0_inBounds {s : State} (x y : Nibble) (hv : s.variant = .superchip)
    (h : s.I.toNat + 31 < Config.memSize) :
    exec (.drwVxVy0 x y) s = .next (s.completeDraw x y (s.spriteRows16 16)) := by
  rw [exec, execDrwVxVy0]
  simp only [hv]
  exact if_pos ((s.inBounds_iff 31).2 h)

theorem exec_drwVxVy0_past_memory {s : State} (x y : Nibble) (hv : s.variant = .superchip)
    (h : s.I.toNat + 31 ≥ Config.memSize) :
    exec (.drwVxVy0 x y) s = .next (haltedBy s .outOfBoundsAccess (.address (s.I.toNat + 31))) := by
  rw [exec, execDrwVxVy0]
  simp only [hv]
  exact ite_inBounds_of_past_memory _ h

theorem drawn_spriteRows8 (s : State) (x y n : Nibble) :
    Drawn (s.spriteAt x y n.toNat 8 (spriteBit8 s)) s
      (s.completeDraw x y (s.spriteRows8 n.toNat)) := by
  have hlen := s.length_spriteRows8 n.toNat
  have hdrawn := s.drawn_completeDraw x y (rows := s.spriteRows8 n.toNat)
    (fun _ _ _ _ hrow => State.spriteBit8_of_row hrow) (by decide)
    (by rw [hlen]; exact n.isLt.le.trans (by decide))
  rwa [hlen] at hdrawn

theorem drawn_spriteRows16 (s : State) (x y : Nibble) :
    Drawn (s.spriteAt x y 16 16 (spriteBit16 s)) s (s.completeDraw x y (s.spriteRows16 16)) := by
  have hlen := s.length_spriteRows16 16
  have hdrawn := s.drawn_completeDraw x y (rows := s.spriteRows16 16)
    (fun _ _ hc _ hrow => State.spriteBit16_of_row hc hrow) (by decide) (by rw [hlen]; decide)
  rwa [hlen] at hdrawn

/-- Settles O38: the rows read at I are drawn, or the bounds check faults. -/
theorem drawsEightWideSprite : Obligations.DrawsEightWideSprite := fun s x y n =>
  ⟨fun hin => ⟨_, exec_drwVxVyN_inBounds x y hin, drawn_spriteRows8 s x y n⟩,
    exec_drwVxVyN_past_memory x y⟩

/-- Settles O39: the same with rows of two bytes. -/
theorem drawsSixteenWideSprite : Obligations.DrawsSixteenWideSprite := fun s x y hv =>
  ⟨fun hin => ⟨_, exec_drwVxVy0_inBounds x y hv hin, drawn_spriteRows16 s x y⟩,
    exec_drwVxVy0_past_memory x y hv⟩

/-! ### Two draws (R285) -/

namespace Drawn

variable {on : Nat → Nat → Bool} {s t u : State}

theorem hires_eq (h : Drawn on s t) : t.hires = s.hires := by
  obtain ⟨-, -, -, -, -, -, -, -, -, hframe⟩ := h
  rw [hframe]

theorem width_eq (h : Drawn on s t) : t.width = s.width := by
  rw [State.width, h.hires_eq, State.width]

theorem height_eq (h : Drawn on s t) : t.height = s.height := by
  rw [State.height, h.hires_eq, State.height]

theorem pixel_eq (h : Drawn on s t) {px py : Nat} (hx : px < s.width) (hy : py < s.height) :
    t.pixel px py = xor (s.pixel px py) (on px py) := by
  obtain ⟨hpixel, -⟩ := h
  exact hpixel px py hx hy

theorem inactive_eq (h : Drawn on s t) :
    if s.hires then t.fbLo = s.fbLo else t.fbHi = s.fbHi := by
  obtain ⟨-, hinactive, -⟩ := h
  exact hinactive

/-- VF says whether a lit pixel was hit (R283). -/
theorem flag_eq_one_iff (h : Drawn on s t) : t.readV 0xF#4 = 1#8 ↔
    ∃ px py, px < s.width ∧ py < s.height ∧ s.pixel px py = true ∧ on px py = true := by
  obtain ⟨-, -, hhit, hmiss, -⟩ := h
  refine ⟨fun hflag => by_contra fun hno => ?_, hhit⟩
  have hzero := hmiss fun px py hx hy hon =>
    Bool.eq_false_iff.2 fun hlit => hno ⟨px, py, hx, hy, hlit, hon⟩
  exact absurd (hflag.symm.trans hzero) (by decide)

/-- On a blank screen nothing is hit. -/
theorem flag_eq_zero_of_blank (h : Drawn on s t) (hblank : ∀ px py, s.pixel px py = false) :
    t.readV 0xF#4 = 0#8 := by
  obtain ⟨-, -, -, hmiss, -⟩ := h
  exact hmiss fun px py _ _ _ => hblank px py

/-- From a blank screen a draw lights the sprite's pixels, and the next one hits those it lit. -/
theorem lit_iff_second_hits (h : Drawn on s t) (h' : Drawn on t u)
    (hblank : ∀ px py, s.pixel px py = false) :
    (∃ px py, t.pixel px py = true) ↔ u.readV 0xF#4 = 1#8 := by
  rw [h'.flag_eq_one_iff]
  constructor
  · rintro ⟨px, py, hlit⟩
    obtain ⟨hx, hy⟩ := State.inside_of_pixel hlit
    have hon := h.pixel_eq (h.width_eq ▸ hx) (h.height_eq ▸ hy)
    rw [hblank, Bool.false_xor] at hon
    exact ⟨px, py, hx, hy, hlit, hon ▸ hlit⟩
  · rintro ⟨px, py, -, -, hlit, -⟩
    exact ⟨px, py, hlit⟩

/-- The exclusive or undoes itself on the active buffer, and the inactive one never changes. -/
theorem twice_restores (h : Drawn on s t) (h' : Drawn on t u) :
    u.fbLo = s.fbLo ∧ u.fbHi = s.fbHi := by
  have hpixel (px py : Nat) (hx : px < s.width) (hy : py < s.height) :
      u.pixel px py = s.pixel px py := by
    rw [h'.pixel_eq (h.width_eq.symm ▸ hx) (h.height_eq.symm ▸ hy), h.pixel_eq hx hy,
      Bool.xor_assoc, Bool.xor_self, Bool.xor_false]
  have hinactive := h.inactive_eq
  have hinactive' := h'.inactive_eq
  have hu := h'.hires_eq.trans h.hires_eq
  rw [h.hires_eq] at hinactive'
  simp only [State.pixel, State.width, State.height, hu] at hpixel
  cases hh : s.hires with
  | false =>
    simp only [hh, Bool.false_eq_true, if_false] at hpixel hinactive hinactive'
    exact ⟨Framebuffer.ext_pixel hpixel, hinactive'.trans hinactive⟩
  | true =>
    simp only [hh, if_true] at hpixel hinactive hinactive'
    exact ⟨hinactive'.trans hinactive, Framebuffer.ext_pixel hpixel⟩

end Drawn

/-- A draw leaves the sprite and its place as they were, when VF gives neither coordinate. -/
theorem State.spriteAt_completeDraw {n : Nat} (s : State) {x y : Nibble} (hx : x ≠ 0xF#4)
    (hy : y ≠ 0xF#4) (drawn : List (BitVec n)) (rows columns : Nat) (bit : Nat → Nat → Bool) :
    (s.completeDraw x y drawn).spriteAt x y rows columns bit = s.spriteAt x y rows columns bit := by
  rw [spriteAt, readV_completeDraw_ne _ _ _ _ hx, readV_completeDraw_ne _ _ _ _ hy]
  rfl

/-- Settles O40: the two draws are of one sprite at one place, and the second hits what the first
lit. -/
theorem drawTwiceRestoresScreen : Obligations.DrawTwiceRestoresScreen := by
  intro s x y n hx hy hin
  have hfirst := drawn_spriteRows8 s x y n
  have hsecond := drawn_spriteRows8 (s.completeDraw x y (s.spriteRows8 n.toNat)) x y n
  rw [s.spriteAt_completeDraw hx hy] at hsecond
  obtain ⟨hlo, hhi⟩ := hfirst.twice_restores hsecond
  exact ⟨_, _, exec_drwVxVyN_inBounds x y hin, exec_drwVxVyN_inBounds x y hin, hlo, hhi,
    fun hblank => ⟨hfirst.flag_eq_zero_of_blank hblank, hfirst.lit_iff_second_hits hsecond hblank⟩⟩

/-! ### The redraw signal (R273) -/

/-- A well-formed instruction of the SUPER-CHIP extension has its effect. -/
theorem eq_of_underSuperchip_wellFormed {s t : State} {i : Instr} {e : State}
    (hwf : i.wellFormed s.variant = true) (hi : i.superOnly = true)
    (hx : underSuperchip s i e = .next t) : t = e := by
  obtain ⟨hsuper, -⟩ := wellFormed_iff.1 hwf
  rw [underSuperchip_superchip (hsuper hi)] at hx
  exact (Host.Outcome.next.inj hx).symm

/-- One case for each instruction: the display instructions signal, the others keep the signals. A
branch that faults is one of the fault table, or of an instruction the variant does not have. -/
theorem exec_redraw {i : Instr} {s t : State} (hwf : i.wellFormed s.variant = true)
    (hf : faultOf i s = none) (hx : exec i s = .next t) :
    t.signal.redraw = (s.signal.redraw || redraws i) := by
  obtain ⟨hsuper, hslots, -⟩ := wellFormed_iff.1 hwf
  cases i with
  | jp | seVxKk | sneVxKk | seVxVy | ldVxKk | addVxKk | ldVxVy | orVxVy | andVxVy | xorVxVy
  | addVxVy | subVxVy | shrVxVy | subnVxVy | shlVxVy | sneVxVy | ldINnn | jpV0Nnn | rndVxKk
  | ldVxDT | ldVxK | ldDTVx | ldSTVx | addIVx =>
    cases hx
    exact (Bool.or_false _).symm
  | cls => cases hx; exact (Bool.or_true _).symm
  | scd | scr | scl | low | high =>
    obtain rfl := eq_of_underSuperchip_wellFormed hwf rfl hx
    exact (Bool.or_true _).symm
  | exit =>
    obtain rfl := eq_of_underSuperchip_wellFormed hwf rfl hx
    exact (Bool.or_false _).symm
  | drwVxVyN =>
    rcases execDrwVxVyN_cases hx with ⟨-, rfl⟩ | ⟨hpos, hpast, -⟩
    exacts [(Bool.or_true _).symm, nomatch ite_eq_right_iff.1 hf ⟨hpos, hpast⟩]
  | drwVxVy0 =>
    rcases execDrwVxVy0_cases hx with ⟨-, -, rfl⟩ | ⟨-, hpast, -⟩ | ⟨-, rfl⟩
    exacts [(Bool.or_true _).symm, (nomatch ite_eq_right_iff.1 hf hpast),
      (Bool.or_true _).symm]
  | ret =>
    rcases execRet_cases hx with ⟨-, rfl⟩ | ⟨hempty, -⟩
    exacts [(Bool.or_false _).symm, nomatch ite_eq_right_iff.1 hf hempty]
  | call =>
    rcases execCall_cases hx with ⟨-, rfl⟩ | ⟨hfull, -⟩
    exacts [(Bool.or_false _).symm, nomatch ite_eq_right_iff.1 hf hfull]
  | skpVx =>
    rcases execSkpVx_cases hx with ⟨-, rfl⟩ | ⟨hkey, -⟩
    exacts [(Bool.or_false _).symm, nomatch ite_eq_right_iff.1 hf hkey]
  | sknpVx =>
    rcases execSknpVx_cases hx with ⟨-, rfl⟩ | ⟨hkey, -⟩
    exacts [(Bool.or_false _).symm, nomatch ite_eq_right_iff.1 hf hkey]
  | ldFVx =>
    rcases execLdFVx_cases hx with ⟨-, rfl⟩ | ⟨hdigit, -⟩
    exacts [(Bool.or_false _).symm, nomatch ite_eq_right_iff.1 hf hdigit]
  | ldHFVx =>
    rcases execLdHFVx_cases hx with ⟨-, -, rfl⟩ | ⟨-, hdigit, -⟩ | ⟨hv, -⟩
    exacts [(Bool.or_false _).symm, (nomatch ite_eq_right_iff.1 hf hdigit),
      nomatch hv.symm.trans (hsuper rfl)]
  | ldBVx =>
    rcases execLdBVx_cases hx with ⟨-, rfl⟩ | ⟨hpast, -⟩
    exacts [(Bool.or_false _).symm, nomatch ite_eq_right_iff.1 hf hpast]
  | ldMemVx =>
    rcases execLdMemVx_cases hx with ⟨-, rfl⟩ | ⟨hpast, -⟩
    exacts [by simp [redraws], nomatch ite_eq_right_iff.1 hf hpast]
  | ldVxMem =>
    rcases execLdVxMem_cases hx with ⟨-, rfl⟩ | ⟨hpast, -⟩
    exacts [by simp [redraws], nomatch ite_eq_right_iff.1 hf hpast]
  | ldRVx =>
    rcases execLdRVx_cases hx with ⟨-, -, rfl⟩ | ⟨hv | hslot, -⟩
    exacts [by simp [redraws], (nomatch hv.symm.trans (hsuper rfl)),
      absurd hslot (Nat.not_lt.2 (of_decide_eq_true hslots))]
  | ldVxR =>
    rcases execLdVxR_cases hx with ⟨-, -, rfl⟩ | ⟨hv | hslot, -⟩
    exacts [by simp [redraws], (nomatch hv.symm.trans (hsuper rfl)),
      absurd hslot (Nat.not_lt.2 (of_decide_eq_true hslots))]

/-- Settles O41, instruction by instruction (`exec_redraw`). -/
theorem redrawMarksDisplayInstructions : Obligations.RedrawMarksDisplayInstructions :=
  fun _ _ _ => exec_redraw

end Sys2Proof.Machine
end

section
/-! SUPPORT. Keys and timers (45_input_timers.md). The two key skips read one bit of the keypad;
`set_key` is refused, or writes the key and nothing else, or writes the key and ends the wait: each
of the three is said once. -/

namespace Sys2Proof.Machine

/-! ### The host's `set_key` (R322) -/

namespace State

/-- Every nibble is the code of a key. -/
theorem toNat_nibble_not_gt (k : Nibble) : ¬k.toNat > 15 := Nat.not_lt.2 (Nat.le_of_lt_succ k.isLt)

theorem setKey_of_no_key (s : State) {code : Nat} (h : code ≥ 16) (pressed : Bool) :
    s.setKey code pressed = (s, .refused) := if_pos h

/-- Without a wait, or without a release of a key that was down, `set_key` writes the key. -/
theorem setKey_of_not_resolving {s : State} {k : Nibble} {pressed : Bool}
    (h : s.waitKey = .notWaiting ∨ s.readKey k = false ∨ pressed = true) :
    s.setKey k.toNat pressed = (s.writeKey k pressed, .done) := by
  rw [setKey, if_neg (toNat_nibble_not_gt k), BitVec.ofNat_toNat, BitVec.setWidth_eq]
  dsimp only
  split
  case h_1 r hwait =>
    have hkept : (s.readKey k && !pressed) = false := by
      rcases h with hidle | hup | hpressed
      · exact nomatch hwait.symm.trans hidle
      · rw [hup, Bool.false_and]
      · rw [hpressed, Bool.not_true, Bool.and_false]
    exact if_neg (Bool.eq_false_iff.1 hkept)
  case h_2 => rfl

/-- The release of a key that was down writes its code and ends the wait. -/
theorem setKey_of_resolving {s : State} {k r : Nibble} (hwait : s.waitKey = .waitingForPress r)
    (hdown : s.readKey k = true) :
    s.setKey k.toNat false =
      ({ (s.writeKey k false).writeV r (BitVec.setWidth 8 k) with waitKey := .notWaiting },
        .done) := by
  have hcode : trunc8 k.toNat = BitVec.setWidth 8 k := BitVec.ofNat_toNat 8 k
  rw [setKey, if_neg (toNat_nibble_not_gt k), BitVec.ofNat_toNat, BitVec.setWidth_eq, hwait, hcode]
  exact if_pos (by rw [hdown, Bool.not_false, Bool.and_true])

theorem readKey_writeKey_same (s : State) (k : Nibble) (p : Bool) :
    (s.writeKey k p).readKey k = p := Vector.getElem_set_self _

theorem writeKey_writeKey_same (s : State) (k : Nibble) (p q : Bool) :
    (s.writeKey k p).writeKey k q = s.writeKey k q := by
  simp only [writeKey, Vector.set_set]

/-- A press and then the release of the same key, in a wait: the key ends up released, whatever it
was before. -/
theorem setKey_press_release {s : State} {r : Nibble} (hwait : s.waitKey = .waitingForPress r)
    (k : Nibble) :
    (s.writeKey k true).setKey k.toNat false =
      ({ (s.writeKey k false).writeV r (BitVec.setWidth 8 k) with waitKey := .notWaiting },
        .done) := by
  rw [setKey_of_resolving (s := s.writeKey k true) hwait (s.readKey_writeKey_same k true),
    writeKey_writeKey_same]

end State

theorem exec_ldVxK (x : Nibble) (s : State) :
    exec (.ldVxK x) s = .next { s.advancePC with waitKey := .waitingForPress x } := rfl

/-- Settles O44: the press does not resolve the wait the instruction has set, and the release of the
key that is now down does. -/
theorem keyReleaseResolvesWait : Obligations.KeyReleaseResolvesWait := by
  intro s x k
  refine ⟨_, exec_ldVxK x s, rfl, _, congrArg _ (State.setKey_of_not_resolving (.inr (.inr rfl))),
    rfl, _, congrArg _ (State.setKey_press_release rfl k), ?code, ?others, rfl⟩
  case code => exact State.readV_writeV_same _ x _
  case others => exact fun r hr => State.readV_writeV_ne _ _ hr

/-- Settles O45: a code below 16 is a key's. -/
theorem setKeyElsewhereOnlyWritesKey : Obligations.SetKeyElsewhereOnlyWritesKey := by
  intro s code pressed
  refine ⟨fun hcode => congrArg _ (s.setKey_of_no_key hcode pressed), fun hcode hquiet => ?_⟩
  obtain ⟨k, rfl⟩ : ∃ k : Nibble, k.toNat = code := ⟨BitVec.ofNatLT code hcode, rfl⟩
  exact congrArg _ (State.setKey_of_not_resolving hquiet)

/-! ### Key skips (R325, R326) -/

/-- What a key skip reads, for a value that names a key. -/
theorem State.getElem?_keys_eq_keyDown (s : State) {b : Byte} (h : b.toNat < 16) :
    s.keys[b.toNat]? = some (s.keyDown b) := by
  have hlist : b.toNat < s.keys.toList.length := s.keys.length_toList.symm ▸ h
  rw [State.keyDown, List.getD_eq_getElem _ _ hlist, Vector.getElem_toList]
  exact Vector.getElem?_eq_getElem h

theorem exec_skpVx_of_key {s : State} {x : Nibble} (h : (s.readV x).toNat ≤ 0xF) :
    exec (.skpVx x) s = .next (s.advancePC.skipIf (s.keyDown (s.readV x))) :=
  if_neg (Nat.not_lt.2 h)

theorem exec_skpVx_of_no_key {s : State} {x : Nibble} (h : (s.readV x).toNat > 0xF) :
    exec (.skpVx x) s = .next (haltedBy s .unmodelled .skpKey) := if_pos h

theorem exec_sknpVx_of_key {s : State} {x : Nibble} (h : (s.readV x).toNat ≤ 0xF) :
    exec (.sknpVx x) s = .next (s.advancePC.skipIf (!s.keyDown (s.readV x))) :=
  if_neg (Nat.not_lt.2 h)

theorem exec_sknpVx_of_no_key {s : State} {x : Nibble} (h : (s.readV x).toNat > 0xF) :
    exec (.sknpVx x) s = .next (haltedBy s .unmodelled .sknpKey) := if_pos h

/-- Settles O42: the two skips ask one key's state for opposite values. -/
theorem keySkipsReadKeypad : Obligations.KeySkipsReadKeypad := by
  intro s x k
  refine ⟨fun hkey => ?_, fun hno => ⟨exec_skpVx_of_no_key hno, exec_sknpVx_of_no_key hno⟩⟩
  have hlt : (s.readV x).toNat < 16 := hkey ▸ k.isLt
  have hread : s.keys[k.toNat]? = some (s.keyDown (s.readV x)) :=
    hkey ▸ s.getElem?_keys_eq_keyDown hlt
  rw [exec_skpVx_of_key (Nat.le_of_lt_succ hlt), exec_sknpVx_of_key (Nat.le_of_lt_succ hlt), hread]
  exact ⟨congrArg _ (s.skipIf_advancePC Option.some_inj.symm),
    congrArg _ (s.skipIf_advancePC (by rw [Bool.not_eq_true', Option.some_inj]))⟩

/-! ### Timers (R335 to R337) -/

/-- Settles O43: the read writes its destination only, and each write its timer. -/
theorem timerInstructions : Obligations.TimerInstructions := fun s x =>
  ⟨⟨_, rfl, State.readV_writeV_same _ x _, rfl, keepsAllBut_writeV s x _⟩, rfl, rfl⟩

end Sys2Proof.Machine
end

section
/-! SUPPORT. Faults, ticks, reachable states and the snapshot (60_exceptions.md R351, R370, R372, R380;
10_state.md R70): every instruction faults as tabled or completes, ticks count the timers down, the
invariant holds of every reachable state, and the snapshot copies the state. -/

namespace Sys2Proof.Machine

/-! ### Every cycle answers (R138, R352) -/

/-- Settles O10: no arm of the cycle or of an instruction is a stop of the model. -/
theorem everyCycleAnswersNext : Obligations.EveryCycleAnswersNext := ⟨step_next, exec_next⟩

/-! ### The fault table (R351) -/

/-- What the entry of a fault writes, but for `halted`, which `EXIT` writes too, and the other
signals. -/
def State.faultRecord (s : State) :
    Option FaultKind × Option FaultInfo × Option FaultKind × Bool :=
  (s.faultState, s.faultInfo, s.signal.fault, s.runStarted)

@[simp] theorem State.faultRecord_eq_iff {s t : State} :
    t.faultRecord = s.faultRecord ↔ t.faultState = s.faultState ∧ t.faultInfo = s.faultInfo
      ∧ t.signal.fault = s.signal.fault ∧ t.runStarted = s.runStarted := by
  simp [faultRecord]

/-- How an instruction may end in `t` from `s`, by the table: where it lists no fault, the instruction
completes, records none and halts only if it is `EXIT`; where it lists one, `t` is the fault's entry. -/
inductive EndsAsTabled (i : Instr) (s : State) : State → Prop where
  | completes {t : State} (tabled : faultOf i s = none)
      (record_eq : t.faultRecord = s.faultRecord)
      (halted_eq : t.halted = (s.halted || i == .exit)) : EndsAsTabled i s t
  | faults {kind : FaultKind} {info : FaultInfo} (tabled : faultOf i s = some (kind, info)) :
      EndsAsTabled i s (haltedBy s kind info)

/-- An instruction other than `EXIT` that writes no part of the fault record and not `halted`. -/
theorem EndsAsTabled.kept {i : Instr} {s t : State} (tabled : faultOf i s = none)
    (record_eq : t.faultRecord = s.faultRecord) (halted_eq : t.halted = s.halted)
    (hi : (i == .exit) = false := by rfl) : EndsAsTabled i s t :=
  .completes tabled record_eq (by rw [hi, halted_eq, Bool.or_false])

/-- One case for each instruction: those that branch go by the cases of their meaning, whose conditions
are the table's. A fault the table does not list is that of an instruction the variant does not have. -/
theorem exec_endsAsTabled {i : Instr} {s t : State} (hwf : i.wellFormed s.variant = true)
    (hx : exec i s = .next t) : EndsAsTabled i s t := by
  obtain ⟨hsuper, hslots, -⟩ := wellFormed_iff.1 hwf
  cases i with
  | cls | jp | seVxKk | sneVxKk | seVxVy | ldVxKk | addVxKk | ldVxVy | orVxVy | andVxVy | xorVxVy
  | addVxVy | subVxVy | shrVxVy | subnVxVy | shlVxVy | sneVxVy | ldINnn | jpV0Nnn | rndVxKk
  | ldVxDT | ldVxK | ldDTVx | ldSTVx | addIVx => cases hx; exact .kept rfl rfl rfl
  | scd | scr | scl | low | high =>
    obtain rfl := eq_of_underSuperchip_wellFormed hwf rfl hx
    exact .kept rfl rfl rfl
  | exit =>
    obtain rfl := eq_of_underSuperchip_wellFormed hwf rfl hx
    exact .completes rfl rfl (Bool.or_true _).symm
  | ret =>
    rcases execRet_cases hx with ⟨hlive, rfl⟩ | ⟨hempty, rfl⟩
    exacts [.kept (if_neg hlive.ne') rfl rfl, .faults (if_pos hempty)]
  | call =>
    rcases execCall_cases hx with ⟨hroom, rfl⟩ | ⟨hfull, rfl⟩
    exacts [.kept (if_neg hroom.ne) rfl rfl, .faults (if_pos hfull)]
  | drwVxVyN =>
    rcases execDrwVxVyN_cases hx with ⟨hin, rfl⟩ | ⟨hpos, hpast, rfl⟩
    exacts [.kept (if_neg (by omega)) rfl rfl, .faults (if_pos ⟨hpos, hpast⟩)]
  | drwVxVy0 =>
    rcases execDrwVxVy0_cases hx with ⟨-, hin, rfl⟩ | ⟨-, hpast, rfl⟩ | ⟨hv, -⟩
    exacts [.kept (if_neg hin.not_ge) rfl rfl, .faults (if_pos hpast),
      nomatch hv.symm.trans (hsuper rfl)]
  | skpVx =>
    rcases execSkpVx_cases hx with ⟨hkey, rfl⟩ | ⟨hno, rfl⟩
    exacts [.kept (if_neg hkey.not_gt) rfl rfl, .faults (if_pos hno)]
  | sknpVx =>
    rcases execSknpVx_cases hx with ⟨hkey, rfl⟩ | ⟨hno, rfl⟩
    exacts [.kept (if_neg hkey.not_gt) rfl rfl, .faults (if_pos hno)]
  | ldFVx =>
    rcases execLdFVx_cases hx with ⟨hdigit, rfl⟩ | ⟨hno, rfl⟩
    exacts [.kept (if_neg hdigit.not_gt) rfl rfl, .faults (if_pos hno)]
  | ldHFVx =>
    rcases execLdHFVx_cases hx with ⟨-, hdigit, rfl⟩ | ⟨-, hno, rfl⟩ | ⟨hv, -⟩
    exacts [.kept (if_neg hdigit.not_gt) rfl rfl, .faults (if_pos hno),
      nomatch hv.symm.trans (hsuper rfl)]
  | ldBVx =>
    rcases execLdBVx_cases hx with ⟨hin, rfl⟩ | ⟨hpast, rfl⟩
    exacts [.kept (if_neg hin.not_ge) (by simp) (by simp), .faults (if_pos hpast)]
  | ldMemVx =>
    rcases execLdMemVx_cases hx with ⟨hin, rfl⟩ | ⟨hpast, rfl⟩
    exacts [.kept (if_neg hin.not_ge) (by simp) (by simp), .faults (if_pos hpast)]
  | ldVxMem =>
    rcases execLdVxMem_cases hx with ⟨hin, rfl⟩ | ⟨hpast, rfl⟩
    exacts [.kept (if_neg hin.not_ge) (by simp) (by simp), .faults (if_pos hpast)]
  | ldRVx =>
    rcases execLdRVx_cases hx with ⟨-, -, rfl⟩ | ⟨hv | hslot, -⟩
    exacts [.kept rfl rfl rfl, (nomatch hv.symm.trans (hsuper rfl)),
      absurd hslot (Nat.not_lt.2 (of_decide_eq_true hslots))]
  | ldVxR =>
    rcases execLdVxR_cases hx with ⟨-, -, rfl⟩ | ⟨hv | hslot, -⟩
    exacts [.kept rfl (by simp) (by simp), (nomatch hv.symm.trans (hsuper rfl)),
      absurd hslot (Nat.not_lt.2 (of_decide_eq_true hslots))]

/-- Settles O12: the instruction answers a state (`exec_next`), and that is the table's
(`exec_endsAsTabled`). -/
theorem instructionsFaultAsTabled : Obligations.InstructionsFaultAsTabled := by
  intro i s hwf
  obtain ⟨t, hx⟩ := exec_next i s
  cases exec_endsAsTabled hwf hx with
  | completes tabled record_eq halted_eq =>
    obtain ⟨hstate, hinfo, hsignal, hstarted⟩ := State.faultRecord_eq_iff.1 record_eq
    exact ⟨fun _ _ hf => (nomatch tabled.symm.trans hf),
      fun _ => ⟨t, hx, hstate, hinfo, hsignal, hstarted, halted_eq⟩⟩
  | faults tabled =>
    refine ⟨fun _ _ hf => ?_, fun hf => nomatch tabled.symm.trans hf⟩
    cases tabled.symm.trans hf
    exact hx

/-! ### Ticks (R370) -/

/-- One tick of a timer, whose floor is that of `Nat`'s subtraction. -/
theorem toNat_timer_after_tick (b : Byte) :
    (if b.toNat > 0 then b - 1#8 else b).toNat = b.toNat - 1 := by
  split
  · next hpos => exact BitVec.toNat_sub_of_le (BitVec.le_def.2 hpos)
  · next hzero => omega

namespace State

theorem tickFrame_of_halted {s : State} (h : s.halted = true) : s.tickFrame = s := if_pos h

section Running

variable {s : State} (h : s.halted = false)

include h

theorem tickFrame_of_running : s.tickFrame = { s with
    DT := if s.DT.toNat > 0 then s.DT - 1#8 else s.DT
    ST := if s.ST.toNat > 0 then s.ST - 1#8 else s.ST
    vblankHold := false } := if_neg (Bool.eq_false_iff.1 h)

/-- A tick writes the timers and the display hold, and nothing else. -/
theorem tickFrame_eq : s.tickFrame =
    { s with DT := s.tickFrame.DT, ST := s.tickFrame.ST, vblankHold := false } := by
  rw [tickFrame_of_running h]

theorem tickFrame_halted : s.tickFrame.halted = false := by
  rw [tickFrame_of_running h]
  exact h

theorem tickFrame_DT_toNat : s.tickFrame.DT.toNat = s.DT.toNat - 1 := by
  rw [tickFrame_of_running h]
  exact toNat_timer_after_tick s.DT

theorem tickFrame_ST_toNat : s.tickFrame.ST.toNat = s.ST.toNat - 1 := by
  rw [tickFrame_of_running h]
  exact toNat_timer_after_tick s.ST

end Running

end State

theorem performAll_tick (cs : List Command) (s : State) :
    performAll (.tickFrame :: cs) s = performAll cs s.tickFrame := rfl

theorem performAll_ticks_of_halted {s : State} (h : s.halted = true) (n : Nat) :
    performAll (List.replicate n .tickFrame) s = .next s := by
  induction n with
  | zero => rfl
  | succ n ih => rw [List.replicate_succ, performAll_tick, State.tickFrame_of_halted h, ih]

/-- The first tick ends the display hold, so at least one is asked for. -/
theorem performAll_ticks_of_running {s : State} (h : s.halted = false) (n : Nat) :
    ∃ t, performAll (List.replicate (n + 1) .tickFrame) s = .next t
      ∧ t.DT.toNat = s.DT.toNat - (n + 1) ∧ t.ST.toNat = s.ST.toNat - (n + 1)
      ∧ t = { s with DT := t.DT, ST := t.ST, vblankHold := false } := by
  induction n generalizing s with
  | zero => exact ⟨s.tickFrame, rfl, State.tickFrame_DT_toNat h, State.tickFrame_ST_toNat h,
      State.tickFrame_eq h⟩
  | succ n ih =>
    obtain ⟨t, hrun, hdelay, hsound, hframe⟩ := ih (State.tickFrame_halted h)
    refine ⟨t, hrun, ?_, ?_, ?_⟩
    · rw [hdelay, State.tickFrame_DT_toNat h]; omega
    · rw [hsound, State.tickFrame_ST_toNat h]; omega
    · rwa [State.tickFrame_eq h] at hframe

/-- Settles O46, by induction on the number of ticks, apart for a halted engine and a running one. -/
theorem ticksCountTimersDown : Obligations.TicksCountTimersDown :=
  fun n _ => ⟨fun h => performAll_ticks_of_halted h n, fun h => performAll_ticks_of_running h n⟩

/-! ### The invariant of every reachable state (R380) -/

/-- Settles O59: construction establishes the invariant and every command keeps it. -/
theorem reachableStatesMeetInv : Obligations.ReachableStatesMeetInv := by
  intro s hs
  induction hs with
  | constructed fonts hfonts => exact State.construct_inv hfonts
  | command s t c r _ hx ih => exact commandsKeepInv c s t r ih hx

/-! ### The buzzer and the snapshot (R70, R372) -/

/-- A grid as a list of rows holds each pixel at its row and column. -/
theorem Framebuffer.getElem?_rows {w h px py : Nat} (fb : Framebuffer w h) (hx : px < w)
    (hy : py < h) :
    ((fb.toList.map fun row => row.toList)[py]?.bind fun row => row[px]?)
      = some (fb.pixel px py) := by
  simp [Framebuffer.pixel, hx, hy]

namespace State

theorem buzzer_eq_true_iff (s : State) : s.buzzer = true ↔ 0 < s.ST.toNat := decide_eq_true_iff

theorem length_snapshot_stack (s : State) : s.snapshot.stack.length = s.SP.val :=
  List.length_take_of_le (s.stack.length_toList.symm ▸ Nat.le_of_lt_succ s.SP.isLt)

theorem getElem?_snapshot_stack (s : State) {j : Nat} (hj : j < s.SP.val) :
    s.snapshot.stack[j]? = s.stack[j]? :=
  (List.getElem?_take_of_lt hj).trans Vector.getElem?_toList

theorem getElem?_snapshot_screen (s : State) {px py : Nat} (hx : px < s.width)
    (hy : py < s.height) :
    (s.snapshot.screen[py]?.bind fun row => row[px]?) = some (s.pixel px py) := by
  show (s.screenRows[py]?.bind fun row => row[px]?) = _
  unfold width at hx
  unfold height at hy
  unfold screenRows pixel
  split
  · next hh => rw [if_pos hh] at hx hy; exact Framebuffer.getElem?_rows s.fbHi hx hy
  · next hh => rw [if_neg hh] at hx hy; exact Framebuffer.getElem?_rows s.fbLo hx hy

end State

/-- Settles O55: the live stack and the active buffer are read entry by entry, the rest is copied. -/
theorem snapshotShowsState : Obligations.SnapshotShowsState := fun s =>
  ⟨s.buzzer_eq_true_iff, s.length_snapshot_stack, fun _ => s.getElem?_snapshot_stack,
    fun _ _ => s.getElem?_snapshot_screen, rfl, rfl, rfl, rfl, rfl, rfl, rfl, rfl, rfl, rfl, rfl, rfl,
    rfl, rfl⟩

end Sys2Proof.Machine
end

section
/-! SUPPORT. `reset()` and `load_rom` (70_reset_and_hazards.md R392 to R395): what memory holds after a
reset, region by region, and the reset values of the rest of the state. -/

namespace Sys2Proof.Machine

/-! ### Memory after a reset, region by region (R60, R392) -/

/-- Of two fonts that fit one ends before the other begins. -/
theorem Fonts.wf_disjoint {f : Fonts} (h : f.wf = true) :
    f.smallBase + 80 ≤ f.bigBase ∨ f.bigBase + 100 ≤ f.smallBase := by
  simp only [Fonts.wf, Bool.and_eq_true, Bool.or_eq_true, decide_eq_true_eq] at h
  exact h.2

/-- The bytes of a font, as `resetContents` looks them up. -/
theorem getD_toList_font {n : Nat} (glyphs : Vector Byte n) {j : Nat} (hj : j < n) :
    glyphs.toList.getD j 0 = glyphs[j] := by
  rw [List.getD_eq_getElem _ _ (glyphs.length_toList.symm ▸ hj), Vector.getElem_toList]

namespace State

/-- No byte is listed after a reset, so every address reads as its reset contents. -/
theorem readByte_resetEngine (s : State) (a : Nat) :
    s.resetEngine.readByte a = resetContents s.fonts s.rom a := rfl

theorem readByte_resetEngine_rom (s : State) {j : Nat} (hj : j < s.rom.length) :
    s.resetEngine.readByte (0x200 + j) = s.rom[j] := by
  rw [readByte_resetEngine, resetContents, Config.entry, if_pos (by omega),
    Nat.add_sub_cancel_left, List.getD_eq_getElem _ _ hj]

/-- The big font lies below the ROM image, which would hide it. -/
theorem readByte_resetEngine_big {s : State} (h : s.fonts.wf = true) {j : Nat} (hj : j < 100) :
    s.resetEngine.readByte (s.fonts.bigBase + j) = s.fonts.big[j] := by
  obtain ⟨-, hbig⟩ := Fonts.wf_bases h
  rw [readByte_resetEngine, resetContents, Config.entry, if_neg (by omega), if_pos (by omega),
    Nat.add_sub_cancel_left, getD_toList_font _ hj]

/-- The small font lies below the ROM image and apart from the big font, which would hide it. -/
theorem readByte_resetEngine_small {s : State} (h : s.fonts.wf = true) {j : Nat} (hj : j < 80) :
    s.resetEngine.readByte (s.fonts.smallBase + j) = s.fonts.small[j] := by
  obtain ⟨hsmall, -⟩ := Fonts.wf_bases h
  have hdisj := Fonts.wf_disjoint h
  rw [readByte_resetEngine, resetContents, Config.entry, if_neg (by omega), if_neg (by omega),
    if_pos (by omega), Nat.add_sub_cancel_left, getD_toList_font _ hj]

/-- Outside the three regions memory is 0 after a reset (decision D39). -/
theorem readByte_resetEngine_elsewhere (s : State) {a : Nat}
    (hsmall : a < s.fonts.smallBase ∨ s.fonts.smallBase + 80 ≤ a)
    (hbig : a < s.fonts.bigBase ∨ s.fonts.bigBase + 100 ≤ a)
    (hrom : a < 0x200 ∨ 0x200 + s.rom.length ≤ a) : s.resetEngine.readByte a = 0#8 := by
  rw [readByte_resetEngine, resetContents, Config.entry, if_neg (by omega), if_neg (by omega),
    if_neg (by omega), BitVec.ofNat_eq_ofNat]

/-! ### The rest of the state after a reset (R60, R392) -/

@[simp] theorem readV_resetEngine (s : State) (r : Nibble) : s.resetEngine.readV r = 0#8 :=
  Vector.getElem_replicate _

theorem getElem?_resetEngine_stack (s : State) {j : Nat} (hj : j < 16) :
    s.resetEngine.stack[j]? = some 0#16 := by
  rw [show s.resetEngine.stack = Vector.replicate 16 0#16 from rfl, Vector.getElem?_replicate,
    if_pos hj]

theorem getElem?_resetEngine_keys (s : State) {k : Nat} (hk : k < 16) :
    s.resetEngine.keys[k]? = some false := by
  rw [show s.resetEngine.keys = Vector.replicate 16 false from rfl, Vector.getElem?_replicate,
    if_pos hk]

/-- What a reset keeps is what it reads, so a second one finds nothing to change. -/
@[simp] theorem resetEngine_resetEngine (s : State) : s.resetEngine.resetEngine = s.resetEngine := rfl

end State

theorem perform_reset (s : State) : perform .reset s = .next (s.resetEngine, .done) := rfl

/-- `load_rom` of an image that fits is a reset with that image in place of the old one (R395). -/
theorem perform_loadRom_of_fits (s : State) {bytes : List Byte} (h : bytes.length ≤ Config.romMax) :
    perform (.loadRom bytes) s = perform .reset { s with rom := bytes } :=
  congrArg Host.Outcome.next (if_neg (Nat.not_lt.2 h))

theorem perform_loadRom_of_too_long (s : State) {bytes : List Byte}
    (h : bytes.length > Config.romMax) : perform (.loadRom bytes) s = .next (s, .refused) :=
  congrArg Host.Outcome.next (if_pos h)

/-- Settles O52: memory region by region, every other field as construction or the old state has it. -/
theorem resetReinitialises : Obligations.ResetReinitialises := by
  intro s
  have hagain : perform .reset s.resetEngine = .next (s.resetEngine, .done) := by
    rw [perform_reset, State.resetEngine_resetEngine]
  exact ⟨s.resetEngine, rfl, s.readV_resetEngine, rfl, rfl, rfl,
    fun _ => s.getElem?_resetEngine_stack, rfl, rfl,
    fun hfonts _ =>
      ⟨fun _ => s.readByte_resetEngine_rom, fun _ => State.readByte_resetEngine_small hfonts,
        fun _ => State.readByte_resetEngine_big hfonts, fun _ => s.readByte_resetEngine_elsewhere⟩,
    Framebuffer.pixel_blank, Framebuffer.pixel_blank, rfl, fun _ => s.getElem?_resetEngine_keys,
    rfl, rfl, rfl, rfl, rfl, rfl, rfl, rfl, rfl, hagain⟩

/-- Settles O53: an image that fits is a reset with it in place of the old one. -/
theorem loadRomReplacesImageAndResets : Obligations.LoadRomReplacesImageAndResets := by
  intro s bytes
  constructor
  · intro hfits
    have hreset := perform_reset { s with rom := bytes }
    exact ⟨_, (perform_loadRom_of_fits s hfits).trans hreset, rfl, hreset,
      fun _ => State.readByte_resetEngine_rom { s with rom := bytes }⟩
  · exact perform_loadRom_of_too_long s

end Sys2Proof.Machine
end
